-- ==== Sys2Proof/Word.lean ====
section
/-!
DEFINITION. Word.lean: the bit vectors the spec's notation names (00_scope.md rule R13, 30_encoding.md rules R100, R116).
-/

namespace Sys2Proof

/-- A byte, 0..255 (rule R13); the width of every bus transfer (rule R11). -/
abbrev Byte := BitVec 8

/-- A memory address, 0x0000..0xFFFF (rule R70). -/
abbrev Addr := BitVec 16

/-- An I/O port number, 0x00..0xFF (rule R71). -/
abbrev Port := BitVec 8

/-- A transaction word: kind, address and data (rule R100). -/
abbrev TxnWord := BitVec 26

/-- A bus state: bit 0 is NMI, bit 1 is INT (rule R116). -/
abbrev BusState := BitVec 2

/-- A device name (rule R10); host operations address devices by it (rule R120). -/
abbrev Name := String

end Sys2Proof
end

