-- ==== Sys2Proof/Config.lean ====
section
/-!
DEFINITION. Config.lean: what an implementation fixes: the device list and the global parameters (00_scope.md rules R10,
R11), the reference configuration that `State.reset` is constructed from, and the values the spec leaves open.
-/

namespace Sys2Proof

/-- SERIAL_OVERFLOW, left open by the spec (rule R176, decision D11). -/
inductive SerialOverflow where
  | overwriteOldest
  | dropNewest
  | indexWrap
deriving DecidableEq, Repr

/-- BD_STATUS_RESET, left open by the spec: 0x00 or 0x40 (rule R40, decision D17). -/
inductive StatusReset where
  | clear
  | ready
deriving DecidableEq, Repr

/-- HOST_WRITE_ROM, left open by the spec (rule R152, decision D23). -/
inductive HostWriteRom where
  | ignore
  | store
deriving DecidableEq, Repr

/-- The global parameters (rule R11). -/
structure Params where
  overflow : SerialOverflow
  statusReset : StatusReset
  hostWriteRom : HostWriteRom
  engineResetPc : Addr
deriving DecidableEq, Repr

/-- The descriptor of a ROM or a RAM (rule R10). -/
structure RegionDesc where
  base : Addr
  size : Nat
  image : Option (List Byte)
deriving DecidableEq, Repr

/-- The descriptor of a serial port (rule R10). -/
structure SerialDesc where
  inPort : Port
  outPort : Port
  readyPort : Port
  capacity : Nat
deriving DecidableEq, Repr

/-- The descriptor of an interval timer (rule R10). -/
structure TimerDesc where
  countPort : Port
  controlPort : Port
deriving DecidableEq, Repr

/-- The descriptor of a block drive (rule R10). -/
structure DriveDesc where
  basePort : Port
  sectorSize : Nat
  numSectors : Nat
  file : Option (List Byte)
deriving DecidableEq, Repr

/-- The variant of a device; the set is closed (rules R10, R324). -/
inductive DeviceDesc where
  | rom (d : RegionDesc)
  | ram (d : RegionDesc)
  | serial (d : SerialDesc)
  | timer (d : TimerDesc)
  | drive (d : DriveDesc)
deriving DecidableEq, Repr

/-- One entry of the device list: a name and a variant (rule R10). -/
structure Descriptor where
  name : Name
  desc : DeviceDesc
deriving DecidableEq, Repr

/-- A configuration: the ordered device list and the parameters (rule R10); its order is significant. -/
structure Config where
  devices : List Descriptor
  params : Params
deriving DecidableEq, Repr

/-- The spec's default parameters (rule R11). -/
def Config.defaultParams : Params :=
  { overflow := .overwriteOldest, statusReset := .ready, hostWriteRom := .ignore, engineResetPc := 0x0000#16 }

/-- DESIGN CHOICE (log 2), unsafe: the spec fixes no device list, so the state after reset is constructed from this one,
which joins the configurations its test vectors use (95_test_vectors.md §2.1, §2.2, §2.4, §2.5). No statement rests on it. -/
def Config.reference : Config :=
  { devices :=
      [ ⟨"rom", .rom ⟨0x0000#16, 0x100, none⟩⟩,
        ⟨"ram", .ram ⟨0x8000#16, 0x100, none⟩⟩,
        ⟨"ser", .serial ⟨0x01#8, 0x02#8, 0x03#8, 256⟩⟩,
        ⟨"t", .timer ⟨0x10#8, 0x11#8⟩⟩,
        ⟨"bd", .drive ⟨0x20#8, 4, 4,
          some [1#8, 2#8, 3#8, 4#8, 5#8, 6#8, 7#8, 8#8, 9#8, 10#8, 11#8, 12#8, 13#8, 14#8, 15#8, 16#8]⟩⟩ ],
    params := Config.defaultParams }

/-- DESIGN CHOICE (log 13): the spec orders no two errors of one SERIAL_PUTS whose name AND some byte are bad (rules R121,
R314), so which of HOST_BAD_VALUE and HOST_BAD_DEVICE it reports is a free value: no proof can see it. -/
opaque Config.badValueFirst : Bool

end Sys2Proof
end

