-- ==== Sys2Proof/Machine/PortMap.lean ====
section
/-!
DEFINITION. PortMap.lean: which device registers answer at which I/O port (30_encoding.md rules R104 to R106, R110).
Reads and writes are decoded apart. It depends on the configuration alone, so the decoder and the dispatcher share it.
-/

namespace Sys2Proof

/-- The registers an I/O read can reach (rules R104, R106). -/
inductive ReadReg where
  | serIn
  | serReady
  | bdData
  | bdStatus
deriving DecidableEq, Repr

/-- The registers an I/O write can reach (rules R104 to R106). -/
inductive WriteReg where
  | serOut
  | tmrCount
  | tmrControl
  | bdData
  | bdLba0
  | bdLba1
  | bdLba2
  | bdLba3
  | bdCmd
deriving DecidableEq, Repr

/-- `recognizes(d, IO_RD, p)` of rule R110, answering with the register: a timer and a memory region recognize no read. Port
arithmetic is exact, so it is on natural numbers. -/
def DeviceDesc.readReg : DeviceDesc → Port → Option ReadReg
  | .serial d, p =>
    if p = d.inPort then some .serIn
    else if p = d.readyPort then some .serReady
    else none
  | .drive d, p =>
    if p.toNat = d.basePort.toNat then some .bdData
    else if p.toNat = d.basePort.toNat + 7 then some .bdStatus
    else none
  | .timer _, _ => none
  | .rom _, _ => none
  | .ram _, _ => none

/-- `recognizes(d, IO_WR, p)` of rule R110, answering with the register; `base+1` and `base+2` are not recognized. -/
def DeviceDesc.writeReg : DeviceDesc → Port → Option WriteReg
  | .serial d, p => if p = d.outPort then some .serOut else none
  | .timer d, p =>
    if p = d.countPort then some .tmrCount
    else if p = d.controlPort then some .tmrControl
    else none
  | .drive d, p =>
    if p.toNat = d.basePort.toNat then some .bdData
    else if p.toNat = d.basePort.toNat + 3 then some .bdLba0
    else if p.toNat = d.basePort.toNat + 4 then some .bdLba1
    else if p.toNat = d.basePort.toNat + 5 then some .bdLba2
    else if p.toNat = d.basePort.toNat + 6 then some .bdLba3
    else if p.toNat = d.basePort.toNat + 7 then some .bdCmd
    else none
  | .rom _, _ => none
  | .ram _, _ => none

/-- The port at which a device presents a readable register (rules R104, R106). -/
def DeviceDesc.readPort : DeviceDesc → ReadReg → Option Port
  | .serial d, .serIn => some d.inPort
  | .serial d, .serReady => some d.readyPort
  | .drive d, .bdData => some d.basePort
  | .drive d, .bdStatus => some (d.basePort + 7#8)
  | _, _ => none

/-- The port at which a device presents a writable register (rules R104 to R106). -/
def DeviceDesc.writePort : DeviceDesc → WriteReg → Option Port
  | .serial d, .serOut => some d.outPort
  | .timer d, .tmrCount => some d.countPort
  | .timer d, .tmrControl => some d.controlPort
  | .drive d, .bdData => some d.basePort
  | .drive d, .bdLba0 => some (d.basePort + 3#8)
  | .drive d, .bdLba1 => some (d.basePort + 4#8)
  | .drive d, .bdLba2 => some (d.basePort + 5#8)
  | .drive d, .bdLba3 => some (d.basePort + 6#8)
  | .drive d, .bdCmd => some (d.basePort + 7#8)
  | _, _ => none

/-- The devices of a list that recognize a read of `p`, in list order, each with its index (counted from `i`) and register. -/
def readersFrom (p : Port) : Nat → List Descriptor → List (Nat × ReadReg)
  | _, [] => []
  | i, d :: ds =>
    match d.desc.readReg p with
    | none => readersFrom p (i + 1) ds
    | some r => (i, r) :: readersFrom p (i + 1) ds

/-- The devices of a list that recognize a write of `p`, in list order, each with its index (counted from `i`) and register. -/
def writersFrom (p : Port) : Nat → List Descriptor → List (Nat × WriteReg)
  | _, [] => []
  | i, d :: ds =>
    match d.desc.writeReg p with
    | none => writersFrom p (i + 1) ds
    | some r => (i, r) :: writersFrom p (i + 1) ds

/-- The one element of a one-element list. -/
def sole {α : Type} : List α → Option α
  | [x] => some x
  | _ => none

/-- The device and register that alone answer a read of `p`, when exactly one device recognizes it. -/
def soleReader (devs : List Descriptor) (p : Port) : Option (Nat × ReadReg) :=
  sole (readersFrom p 0 devs)

/-- The device and register that alone take a write of `p`, when exactly one device recognizes it. -/
def soleWriter (devs : List Descriptor) (p : Port) : Option (Nat × WriteReg) :=
  sole (writersFrom p 0 devs)

/-- The port of device `i`'s readable register `r`, when the device has it. -/
def readPortOf (devs : List Descriptor) (i : Nat) (r : ReadReg) : Option Port :=
  match devs[i]? with
  | none => none
  | some d => d.desc.readPort r

/-- The port of device `i`'s writable register `r`, when the device has it. -/
def writePortOf (devs : List Descriptor) (i : Nat) (r : WriteReg) : Option Port :=
  match devs[i]? with
  | none => none
  | some d => d.desc.writePort r

/-- `name` names a configured serial port (rule R121). -/
def namesSerial (devs : List Descriptor) (name : Name) : Bool :=
  devs.any fun d =>
    d.name == name &&
      match d.desc with
      | .serial _ => true
      | _ => false

/-- `name` names a configured block drive (rule R121). -/
def namesDrive (devs : List Descriptor) (name : Name) : Bool :=
  devs.any fun d =>
    d.name == name &&
      match d.desc with
      | .drive _ => true
      | _ => false

end Sys2Proof
end

