-- ==== Sys2Proof/Syntax.lean ====
section
/-!
DEFINITION. Syntax.lean: the operations of the block, one constructor per row of spec/opcode_table.json, and the forms in
which they are presented to it (30_encoding.md rules R100, R102, R120).
-/

namespace Sys2Proof

/-- A host callback: host code, of which the block sees only which one it is and how many parameters it declares (rule R220,
decision D46; log 18). -/
structure Callback where
  id : Nat
  arity : Nat
deriving DecidableEq, Repr

/-- The operations of the block. `dev` is a device's index in the configuration's list. Host arguments are natural numbers,
because an argument out of range has a meaning of its own: the operation is refused (rule R121). -/
inductive Instr where
  -- bus transactions (rules R140 to R146)
  | memRd (a : Addr)
  | memWr (a : Addr) (v : Byte)
  | ioRd (p : Port)
  | ioWr (p : Port) (v : Byte)
  -- the clock batch (rule R148)
  | clock (c : Nat)
  -- serial port registers (rules R170 to R174)
  | serIn (dev : Nat)
  | serReady (dev : Nat)
  | serOut (dev : Nat) (v : Byte)
  -- timer registers (rules R240, R241)
  | tmrCount (dev : Nat) (v : Byte)
  | tmrControl (dev : Nat) (v : Byte)
  -- block drive registers (rules R260 to R272)
  | bdDataRd (dev : Nat)
  | bdDataWr (dev : Nat) (v : Byte)
  | bdLba0 (dev : Nat) (v : Byte)
  | bdLba1 (dev : Nat) (v : Byte)
  | bdLba2 (dev : Nat) (v : Byte)
  | bdLba3 (dev : Nat) (v : Byte)
  | bdStatus (dev : Nat)
  | bdCmdReadSector (dev : Nat)
  | bdCmdWriteSector (dev : Nat)
  | bdCmdOther (dev : Nat) (v : Byte)
  -- host operations (rule R120)
  | continueRun (max : Option Nat)
  | stepOne
  | setBreakpoint (addr : Nat)
  | removeBreakpoint (addr : Nat)
  | registerTracepoint (addr : Nat) (cb : Callback)
  | queryHalted
  | queryBreak
  | readMemory (addr : Nat)
  | writeMemory (addr : Nat) (value : Nat)
  | serialPuts (name : Name) (bytes : List Nat)
  | serialGets (name : Name) (count : Option Nat)
  | bdReadByte (name : Name) (sector : Nat) (offset : Nat)
deriving DecidableEq, Repr

/-- A host operation as it is presented: its code and its arguments (rule R120). Each operation reads the arguments the rule
lists for it and no other. DESIGN CHOICE (log 10), safe: the spec gives the codes and no layout of the arguments. -/
structure HostRecord where
  code : BitVec 8
  max : Option Nat
  addr : Nat
  callback : Callback
  value : Nat
  name : Name
  bytes : List Nat
  count : Option Nat
  sector : Nat
  offset : Nat
deriving DecidableEq, Repr

/-- The record of a code whose every argument is zero, empty or absent. -/
def HostRecord.ofCode (code : BitVec 8) : HostRecord :=
  { code := code, max := none, addr := 0, callback := ⟨0, 0⟩, value := 0, name := "", bytes := [], count := none,
    sector := 0, offset := 0 }

/-- What the block is presented with: a transaction word on the CPU port, a record on the host port (rule R320), or the control
input `clock(c)` (the CLOCK row of the table). -/
inductive Command where
  | txn (w : TxnWord)
  | host (r : HostRecord)
  | clock (c : Nat)
deriving DecidableEq, Repr

end Sys2Proof
end

