-- ==== Sys2Proof/WellFormed.lean ====
section
/-!
DEFINITION. WellFormed.lean: which operations a configuration has (30_encoding.md rules R101, R107, R110, R121).

A row for one device's register stands for an I/O transaction that this device alone recognizes; IO_RD and IO_WR stand for those
that no device or several recognize (log 8).
-/

namespace Sys2Proof

/-- Device `i` has the readable register `r` and alone recognizes its port. -/
def readsAlone (devs : List Descriptor) (i : Nat) (r : ReadReg) : Bool :=
  match readPortOf devs i r with
  | none => false
  | some p => soleReader devs p == some (i, r)

/-- Device `i` has the writable register `r` and alone recognizes its port. -/
def writesAlone (devs : List Descriptor) (i : Nat) (r : WriteReg) : Bool :=
  match writePortOf devs i r with
  | none => false
  | some p => soleWriter devs p == some (i, r)

/-- The well-formedness of an operation under a device list. Every transaction word whose port is 8 bits is well formed (rule
R101); a host operation is when its arguments are in range and its name names a device of the variant it needs (rule R121). -/
def Instr.wellFormed (devs : List Descriptor) : Instr → Bool
  | .memRd _ => true
  | .memWr _ _ => true
  | .ioRd p => (soleReader devs p).isNone
  | .ioWr p _ => (soleWriter devs p).isNone
  | .clock _ => true
  | .serIn i => readsAlone devs i .serIn
  | .serReady i => readsAlone devs i .serReady
  | .serOut i _ => writesAlone devs i .serOut
  | .tmrCount i _ => writesAlone devs i .tmrCount
  | .tmrControl i _ => writesAlone devs i .tmrControl
  | .bdDataRd i => readsAlone devs i .bdData
  | .bdDataWr i _ => writesAlone devs i .bdData
  | .bdLba0 i _ => writesAlone devs i .bdLba0
  | .bdLba1 i _ => writesAlone devs i .bdLba1
  | .bdLba2 i _ => writesAlone devs i .bdLba2
  | .bdLba3 i _ => writesAlone devs i .bdLba3
  | .bdStatus i => readsAlone devs i .bdStatus
  | .bdCmdReadSector i => writesAlone devs i .bdCmd
  | .bdCmdWriteSector i => writesAlone devs i .bdCmd
  | .bdCmdOther i v => writesAlone devs i .bdCmd && v != 0x20#8 && v != 0x30#8
  | .continueRun _ => true
  | .stepOne => true
  | .setBreakpoint a => decide (a ≤ 0xFFFF)
  | .removeBreakpoint a => decide (a ≤ 0xFFFF)
  | .registerTracepoint a _ => decide (a ≤ 0xFFFF)
  | .queryHalted => true
  | .queryBreak => true
  | .readMemory a => decide (a ≤ 0xFFFF)
  | .writeMemory a v => decide (a ≤ 0xFFFF) && decide (v ≤ 255)
  | .serialPuts name bytes => namesSerial devs name && bytes.all fun b => decide (b ≤ 255)
  | .serialGets name _ => namesSerial devs name
  | .bdReadByte name _ _ => namesDrive devs name

end Sys2Proof
end

