-- ==== Sys2Proof/Decode.lean ====
section
/-!
DEFINITION. Decode.lean: from what is presented to the operation it stands for (30_encoding.md rules R100, R101, R107, R110,
R120), and back.

The rows of opcode_table.json for device registers carry the same bits as IO_RD and IO_WR: what tells them apart is the port, and
the configuration says whose it is (rule R110). So decoding takes the device list. A word that exactly one device recognizes is
that device's row; any other I/O word is IO_RD or IO_WR (log 8).
-/

namespace Sys2Proof

/-- Why a presented command is no operation. -/
inductive DecodeError where
  /-- An I/O word whose bits 23:16 are not 0 (rule R101). -/
  | ioWordHighBits (w : TxnWord)
  /-- A host code that rule R120 does not list (log 22). -/
  | unknownHostCode (code : BitVec 8)
deriving DecidableEq, Repr

/-- `TW[25:24]` (rule R100). -/
def txnKind (w : TxnWord) : BitVec 2 :=
  w.extractLsb' 24 2

/-- `TW[23:8]` (rule R100). -/
def txnAddr (w : TxnWord) : Addr :=
  w.extractLsb' 8 16

/-- `TW[23:16]`, which an I/O word holds 0 in (rule R100). -/
def txnHigh (w : TxnWord) : BitVec 8 :=
  w.extractLsb' 16 8

/-- `TW[15:8]` of an I/O word (rule R100). -/
def txnPort (w : TxnWord) : Port :=
  w.extractLsb' 8 8

/-- `TW[7:0]` (rule R100). -/
def txnData (w : TxnWord) : Byte :=
  w.extractLsb' 0 8

/-- A transaction word from its fields (rule R100). -/
def txnWord (kind : BitVec 2) (addr : Addr) (data : Byte) : TxnWord :=
  kind ++ (addr ++ data)

/-- The transaction word of an I/O transaction: `TW[23:16] = 0` (rule R100). -/
def ioWord (kind : BitVec 2) (p : Port) (data : Byte) : TxnWord :=
  txnWord kind (0#8 ++ p) data

/-- The row of a read of one device's register (rules R104, R106). -/
def readRow (i : Nat) : ReadReg → Instr
  | .serIn => .serIn i
  | .serReady => .serReady i
  | .bdData => .bdDataRd i
  | .bdStatus => .bdStatus i

/-- The row of a write of one device's register; the command is the whole byte (rules R104 to R107). -/
def writeRow (i : Nat) (v : Byte) : WriteReg → Instr
  | .serOut => .serOut i v
  | .tmrCount => .tmrCount i v
  | .tmrControl => .tmrControl i v
  | .bdData => .bdDataWr i v
  | .bdLba0 => .bdLba0 i v
  | .bdLba1 => .bdLba1 i v
  | .bdLba2 => .bdLba2 i v
  | .bdLba3 => .bdLba3 i v
  | .bdCmd =>
    if v = 0x20#8 then .bdCmdReadSector i
    else if v = 0x30#8 then .bdCmdWriteSector i
    else .bdCmdOther i v

/-- Decoding of a read of port `p` (rule R110). -/
def decodeIoRead (devs : List Descriptor) (p : Port) : Instr :=
  match soleReader devs p with
  | some (i, r) => readRow i r
  | none => .ioRd p

/-- Decoding of a write of `v` to port `p` (rule R110). -/
def decodeIoWrite (devs : List Descriptor) (p : Port) (v : Byte) : Instr :=
  match soleWriter devs p with
  | some (i, r) => writeRow i v r
  | none => .ioWr p v

/-- Decoding of a transaction word (rules R100, R101). DEDUCED (log 9), safe: the data field of a read word takes no part in its
well-formedness, so it is not looked at. -/
def decodeTxn (devs : List Descriptor) (w : TxnWord) : Except DecodeError Instr :=
  if txnKind w = 0b00#2 then .ok (.memRd (txnAddr w))
  else if txnKind w = 0b01#2 then .ok (.memWr (txnAddr w) (txnData w))
  else if txnHigh w ≠ 0#8 then .error (.ioWordHighBits w)
  else if txnKind w = 0b10#2 then .ok (decodeIoRead devs (txnPort w))
  else .ok (decodeIoWrite devs (txnPort w) (txnData w))

/-- Decoding of a host record by its code (rule R120). -/
def decodeHost (r : HostRecord) : Except DecodeError Instr :=
  if r.code = 0x01#8 then .ok (.continueRun r.max)
  else if r.code = 0x02#8 then .ok .stepOne
  else if r.code = 0x03#8 then .ok (.setBreakpoint r.addr)
  else if r.code = 0x04#8 then .ok (.removeBreakpoint r.addr)
  else if r.code = 0x05#8 then .ok (.registerTracepoint r.addr r.callback)
  else if r.code = 0x06#8 then .ok .queryHalted
  else if r.code = 0x07#8 then .ok .queryBreak
  else if r.code = 0x08#8 then .ok (.readMemory r.addr)
  else if r.code = 0x09#8 then .ok (.writeMemory r.addr r.value)
  else if r.code = 0x0A#8 then .ok (.serialPuts r.name r.bytes)
  else if r.code = 0x0B#8 then .ok (.serialGets r.name r.count)
  else if r.code = 0x0C#8 then .ok (.bdReadByte r.name r.sector r.offset)
  else .error (.unknownHostCode r.code)

/-- Decoding of whatever is presented. -/
def decode (devs : List Descriptor) : Command → Except DecodeError Instr
  | .txn w => decodeTxn devs w
  | .host r => decodeHost r
  | .clock c => .ok (.clock c)

/-- The word of a read of device `i`'s register `r`. -/
def readWord (devs : List Descriptor) (i : Nat) (r : ReadReg) : TxnWord :=
  ioWord 0b10#2 ((readPortOf devs i r).getD 0#8) 0#8

/-- The word of a write of `v` to device `i`'s register `r`. -/
def writeWord (devs : List Descriptor) (i : Nat) (r : WriteReg) (v : Byte) : TxnWord :=
  ioWord 0b11#2 ((writePortOf devs i r).getD 0#8) v

/-- The encoder: the command a well-formed operation is presented as (rules R100, R107, R120). -/
def encode (devs : List Descriptor) : Instr → Command
  | .memRd a => .txn (txnWord 0b00#2 a 0#8)
  | .memWr a v => .txn (txnWord 0b01#2 a v)
  | .ioRd p => .txn (ioWord 0b10#2 p 0#8)
  | .ioWr p v => .txn (ioWord 0b11#2 p v)
  | .clock c => .clock c
  | .serIn i => .txn (readWord devs i .serIn)
  | .serReady i => .txn (readWord devs i .serReady)
  | .serOut i v => .txn (writeWord devs i .serOut v)
  | .tmrCount i v => .txn (writeWord devs i .tmrCount v)
  | .tmrControl i v => .txn (writeWord devs i .tmrControl v)
  | .bdDataRd i => .txn (readWord devs i .bdData)
  | .bdDataWr i v => .txn (writeWord devs i .bdData v)
  | .bdLba0 i v => .txn (writeWord devs i .bdLba0 v)
  | .bdLba1 i v => .txn (writeWord devs i .bdLba1 v)
  | .bdLba2 i v => .txn (writeWord devs i .bdLba2 v)
  | .bdLba3 i v => .txn (writeWord devs i .bdLba3 v)
  | .bdStatus i => .txn (readWord devs i .bdStatus)
  | .bdCmdReadSector i => .txn (writeWord devs i .bdCmd 0x20#8)
  | .bdCmdWriteSector i => .txn (writeWord devs i .bdCmd 0x30#8)
  | .bdCmdOther i v => .txn (writeWord devs i .bdCmd v)
  | .continueRun m => .host { HostRecord.ofCode 0x01#8 with max := m }
  | .stepOne => .host (HostRecord.ofCode 0x02#8)
  | .setBreakpoint a => .host { HostRecord.ofCode 0x03#8 with addr := a }
  | .removeBreakpoint a => .host { HostRecord.ofCode 0x04#8 with addr := a }
  | .registerTracepoint a cb => .host { HostRecord.ofCode 0x05#8 with addr := a, callback := cb }
  | .queryHalted => .host (HostRecord.ofCode 0x06#8)
  | .queryBreak => .host (HostRecord.ofCode 0x07#8)
  | .readMemory a => .host { HostRecord.ofCode 0x08#8 with addr := a }
  | .writeMemory a v => .host { HostRecord.ofCode 0x09#8 with addr := a, value := v }
  | .serialPuts name bytes => .host { HostRecord.ofCode 0x0A#8 with name := name, bytes := bytes }
  | .serialGets name count => .host { HostRecord.ofCode 0x0B#8 with name := name, count := count }
  | .bdReadByte name s o => .host { HostRecord.ofCode 0x0C#8 with name := name, sector := s, offset := o }

/-- The operation the decoder reads from a table row's bits: a row of 8 bits is a host code with zero arguments, a wider one a
transaction word, whose bits above 25 are 0. It decodes under the reference configuration (log 29). -/
def decodeTableWord (nbits w : Nat) : Option Instr :=
  if nbits ≤ 8 then
    if w < 2 ^ 8 then (decodeHost (HostRecord.ofCode (BitVec.ofNat 8 w))).toOption else none
  else
    if w < 2 ^ 26 then (decodeTxn Config.reference.devices (BitVec.ofNat 26 w)).toOption else none

end Sys2Proof
end

