-- ==== Sys2Proof/Machine/Memory.lean ====
section
/-!
DEFINITION. Memory.lean: finite maps on natural-number keys in one canonical form, and the byte arrays of the block over them
(10_state.md rules R33, R36, R40, R42): region contents, ring buffers, sector buffers, backing stores.

An array is the list of its (offset, byte) cells, offsets strictly rising, no cell equal to what an unlisted offset reads as:
0, the value the spec's arrays are initialised with (rules R33, R36, R40; log 19). So equal arrays are equal data.
-/

namespace Sys2Proof.Machine

/-- The value at key `k`. -/
def mapGet {α : Type} : List (Nat × α) → Nat → Option α
  | [], _ => none
  | (k', v) :: m, k => if k' = k then some v else mapGet m k

/-- The map with `v` at key `k`. -/
def mapSet {α : Type} (k : Nat) (v : α) : List (Nat × α) → List (Nat × α)
  | [] => [(k, v)]
  | (k', v') :: m =>
    if k < k' then (k, v) :: (k', v') :: m
    else if k = k' then (k, v) :: m
    else (k', v') :: mapSet k v m

/-- The map with nothing at key `k`. -/
def mapDel {α : Type} (k : Nat) (m : List (Nat × α)) : List (Nat × α) :=
  m.filter fun c => c.1 ≠ k

/-- The keys rise strictly, each at least `lo`. -/
def mapRises {α : Type} : Nat → List (Nat × α) → Bool
  | _, [] => true
  | lo, (k, _) :: m => decide (lo ≤ k) && mapRises (k + 1) m

/-- Every key is below `n`. -/
def mapBelow {α : Type} (n : Nat) (m : List (Nat × α)) : Bool :=
  m.all fun c => decide (c.1 < n)

/-- A byte array: its cells by offset. -/
abbrev Memory := List Host.Cell

/-- What an unlisted offset reads as: the spec's arrays are initialised with 0 (rules R33, R36, R40). -/
def Memory.unlisted : Byte := 0#8

/-- The canonical form: offsets strictly rising, no cell equal to what an unlisted offset reads as. -/
def Memory.wf (m : Memory) : Bool :=
  mapRises 0 m && m.all fun c => c.2 != Memory.unlisted

/-- The byte at offset `k`. -/
def Memory.read (m : Memory) (k : Nat) : Byte :=
  (mapGet m k).getD Memory.unlisted

/-- The array with `v` at offset `k`; the canonical form is kept. -/
def Memory.write (m : Memory) (k : Nat) (v : Byte) : Memory :=
  if v = Memory.unlisted then mapDel k m else mapSet k v m

/-- The array with bytes `f 0 .. f (n-1)` at offsets `start .. start+n-1`, written in that order. -/
def Memory.copyIn (m : Memory) (start : Nat) (f : Nat → Byte) : Nat → Memory
  | 0 => m
  | n + 1 => (Memory.copyIn m start f n).write (start + n) (f n)

/-- The array holding a list of bytes from offset 0 (an image or a backing file; rules R33, R42), zeros after it. -/
def Memory.ofBytes (bs : List Byte) : Memory :=
  Memory.copyIn [] 0 (fun k => bs.getD k Memory.unlisted) bs.length

end Sys2Proof.Machine
end

