-- ==== Sys2Proof/Machine/Devices.lean ====
section
/-!
DEFINITION. Devices.lean: the devices of the block, their registers and their reset values (10_state.md rules R33 to R42).
-/

namespace Sys2Proof.Machine

/-- A ROM or a RAM: its descriptor and its bytes, by offset from the base (rule R33). -/
structure Region where
  desc : RegionDesc
  contents : Memory
deriving DecidableEq, Repr

/-- A ring buffer: bytes, write index, read index, unread count (rule R36). Its capacity is the port's. -/
structure Ring where
  buf : Memory
  wr : Nat
  rd : Nat
  cnt : Nat
deriving DecidableEq, Repr

/-- A serial port: host to CPU and CPU to host (rule R34); it stores no control or status register (rule R35). -/
structure SerialPort where
  desc : SerialDesc
  toDevice : Ring
  fromDevice : Ring
deriving DecidableEq, Repr

/-- An interval timer (rule R38); it stores no NMI bit (rule R39). -/
structure Timer where
  desc : TimerDesc
  count : Byte
  running : Bool
deriving DecidableEq, Repr

/-- A block drive's transfer mode (rules R40, R117). -/
inductive DriveMode where
  | uninit
  | read
  | write
deriving DecidableEq, Repr

/-- A block drive: `lba_reg[0..3]`, mode, status, sector buffer, buffer offset and backing store (rules R40, R42). -/
structure BlockDrive where
  desc : DriveDesc
  lba0 : Byte
  lba1 : Byte
  lba2 : Byte
  lba3 : Byte
  mode : DriveMode
  status : Byte
  sectorBuffer : Memory
  bufferOffset : Nat
  store : Option Memory
deriving DecidableEq, Repr

/-- One device with its registers; its descriptor is kept beside them and never changes (rule R30; log 1). -/
inductive Device where
  | rom (r : Region)
  | ram (r : Region)
  | serial (p : SerialPort)
  | timer (t : Timer)
  | drive (b : BlockDrive)
deriving DecidableEq, Repr

/-- One entry of the device list: `devs[i]`, with its name (rules R10, R30). -/
structure Slot where
  name : Name
  device : Device
deriving DecidableEq, Repr

/-- The descriptor of a device. -/
def Device.desc : Device → DeviceDesc
  | .rom r => .rom r.desc
  | .ram r => .ram r.desc
  | .serial p => .serial p.desc
  | .timer t => .timer t.desc
  | .drive b => .drive b.desc

/-- The configuration entry of a device. -/
def Slot.descriptor (d : Slot) : Descriptor :=
  { name := d.name, desc := d.device.desc }

/-- An empty ring (rule R36). -/
def Ring.reset : Ring :=
  { buf := [], wr := 0, rd := 0, cnt := 0 }

/-- The reset value of `status` (rule R40, decision D17). -/
def StatusReset.byte : StatusReset → Byte
  | .clear => 0x00#8
  | .ready => 0x40#8

/-- A region's contents at construction: the image, then zeros (rule R33). -/
def Region.reset (d : RegionDesc) : Region :=
  { desc := d, contents := Memory.ofBytes (d.image.getD []) }

/-- A block drive at construction (rules R40, R42). -/
def BlockDrive.reset (params : Params) (d : DriveDesc) : BlockDrive :=
  { desc := d, lba0 := 0#8, lba1 := 0#8, lba2 := 0#8, lba3 := 0#8, mode := .uninit,
    status := StatusReset.byte params.statusReset, sectorBuffer := [], bufferOffset := 0,
    store := d.file.map Memory.ofBytes }

/-- A device at construction (rules R33, R36, R38, R40, R343). -/
def Device.reset (params : Params) : DeviceDesc → Device
  | .rom d => .rom (Region.reset d)
  | .ram d => .ram (Region.reset d)
  | .serial d => .serial { desc := d, toDevice := Ring.reset, fromDevice := Ring.reset }
  | .timer d => .timer { desc := d, count := 0#8, running := false }
  | .drive d => .drive (BlockDrive.reset params d)

end Sys2Proof.Machine
end

