-- ==== Sys2Proof/Machine/State.lean ====
section
/-!
DEFINITION. State.lean: everything the spec gives the block, the engine's visible side, the operation in progress, and the
input and return paths, as plain data (10_state.md rules R30 to R43).
-/

namespace Sys2Proof.Machine

/-- The run state (rules R43, R200). -/
inductive RunState where
  | undefined
  | running
  | halted
  | breakHit
deriving DecidableEq, Repr

/-- The direction of an out-of-protocol data-port access (rule R314, code 0x40). -/
inductive DataDirection where
  | read
  | write
deriving DecidableEq, Repr

/-- A model fault record: code, device name and info (rules R43, R310, R314). -/
inductive ModelFault where
  /-- 0x40 FAULT_BD_PROTOCOL: a data-port access outside its phase. -/
  | bdProtocol (device : Name) (direction : DataDirection) (mode : DriveMode) (offset : Nat)
  /-- 0x41 FAULT_BD_LBA_RANGE: with a file, `lba() >= num_sectors` at a read command or a flush. -/
  | bdLbaRange (device : Name) (lba : Nat)
  /-- 0x42 FAULT_ENGINE_CONTRACT: `Engine.step()` returned less than 1 cycle. -/
  | engineContract (cycles : Nat)
deriving DecidableEq, Repr

/-- The errors that refuse a host operation (rules R312, R314). -/
inductive HostError where
  /-- 0x20 TRACEPOINT_ARITY, with the address. -/
  | tracepointArity (addr : Nat)
  /-- 0x30 HOST_BAD_DEVICE, with the name. -/
  | badDevice (name : Name)
  /-- 0x31 HOST_BAD_VALUE, with the arguments out of range, in argument order (log 14). -/
  | badValue (args : List Nat)
  /-- 0x32 HOST_RANGE, with sector and offset. -/
  | range (sector : Nat) (offset : Nat)
  /-- 0x33 HOST_REENTRANT. -/
  | reentrant
  /-- 0x34 HOST_FAULTED. -/
  | faulted
deriving DecidableEq, Repr

/-- What a host operation, or an action of a callback, answers (rules R120, R310, R312). -/
inductive HostReply where
  | done
  | cycles (n : Nat)
  | bool (b : Bool)
  | byte (v : Byte)
  | bytes (vs : List Byte)
  | register (value : Nat)
  | error (e : HostError)
  /-- CONTINUE or STEP aborted by a model fault (rules R310, R359). -/
  | aborted
deriving DecidableEq, Repr

/-- The debug controller's state (rule R43). Breakpoints and tracepoints are kept by address in canonical form: a set is a
strictly rising list, a map has strictly rising keys. -/
structure Debug where
  runState : RunState
  breakpoints : List (Nat × Unit)
  tracepoints : List (Nat × Callback)
  cyclesTotal : Nat
  inCallback : Bool
  fault : Option ModelFault
deriving DecidableEq, Repr

/-- The engine as the block sees it (rules R12, R302): what `program_counter()` and `halted()` answer, how many times
`raise_nmi()` was called, and the last `set_interrupt` argument. Its other state is opaque (log 4, log 16). -/
structure Engine where
  pc : Addr
  halted : Bool
  nmiCalls : Nat
  intLevel : Option Bool
deriving DecidableEq, Repr

/-- What the engine does during `step()`: it issues a transaction, or returns its cycle count, with what `program_counter()` and
`halted()` then answer (rule R12; log 4). -/
inductive EngineEvent where
  | txn (w : TxnWord)
  | ret (cycles : Nat) (pc : Addr) (halted : Bool)
deriving DecidableEq, Repr

/-- What the host does between operations of the block: a host operation, or a change of one byte of a block drive's backing
store (rules R120, R358). -/
inductive HostAct where
  | op (r : HostRecord)
  | setStore (name : Name) (index : Nat) (value : Byte)
deriving DecidableEq, Repr

/-- What a tracepoint callback does (rule R222): anything the host does, an engine register read (with the engine's answer) or
write (with what `program_counter()` answers after it), or its return (log 15). -/
inductive CallbackAct where
  | host (a : HostAct)
  | readRegister (register : Name) (answer : Nat)
  | writeRegister (register : Name) (value : Nat) (pcAfter : Addr)
  | ret
deriving DecidableEq, Repr

/-- The variables of a running CONTINUE: its budget and the cycles it has executed (rule R210). -/
structure Call where
  budget : Option Nat
  total : Nat
deriving DecidableEq, Repr

/-- Who acts next (rules R8, R211): the host; the engine, inside `Engine.step()`; the block, with the clock batch of the `c`
cycles the step returned; the host again, inside the callback fired at `pc_s`. -/
inductive Phase where
  | idle
  | engine (call : Call)
  | clock (call : Call) (cycles : Nat)
  | callback (call : Call) (pcS : Addr) (cb : Callback)
deriving DecidableEq, Repr

/-- The return paths: the byte the last transaction answered, the bus state of the last clock batch, what the last host
operation answered. The model's own fields: no rule reads them after the operation that set them (log 7). -/
structure Returns where
  cpu : Option Byte
  bus : Option BusState
  host : Option HostReply
deriving DecidableEq, Repr

/-- The state of the block and of what stands around it (rule R30). -/
structure State where
  params : Params
  devs : List Slot
  dbg : Debug
  eng : Engine
  phase : Phase
  returns : Returns
  hostIn : List HostAct
  callbackIn : List CallbackAct
  engineIn : List EngineEvent
deriving DecidableEq, Repr

/-- The reasons a step stops the machine. The block's own model faults are not among them: the spec says what happens after one
(rule R310), so they are next states. -/
inductive Fault where
  /-- Raised by the meaning of a row for one device's register when its operand is the index of no device that has that register.
  No decoded command has such an operand. Safe: the machine stops where the spec has no operation at all (log 20). -/
  | noSuchDevice (dev : Nat)
deriving DecidableEq, Repr

/-- The reasons a step has no meaning. -/
inductive Refusal where
  /-- Raised by `exec` for an instruction without a meaning; no arm does. -/
  | notModelled (mnemonic : String)
  /-- Raised by `step` for an I/O transaction word whose bits 23:16 are not 0, refused at decode (rule R101). Safe. -/
  | ioWordHighBits (w : TxnWord)
  /-- Raised by `step` for a host record whose code rule R120 does not list (log 22). Safe. -/
  | unknownHostCode (code : BitVec 8)
deriving DecidableEq, Repr

/-- The state construction builds from a configuration that passed the checks (rules R342, R343): devices in list order, the
debug state, the engine with its program counter at ENGINE_RESET_PC. Nothing is presented and nothing has been answered. -/
def State.initial (c : Config) : State :=
  { params := c.params,
    devs := c.devices.map fun d => { name := d.name, device := Device.reset c.params d.desc },
    dbg :=
      { runState := .undefined, breakpoints := [], tracepoints := [], cyclesTotal := 0, inCallback := false, fault := none },
    eng := { pc := c.params.engineResetPc, halted := false, nmiCalls := 0, intLevel := none },
    phase := .idle,
    returns := { cpu := none, bus := none, host := none },
    hostIn := [], callbackIn := [], engineIn := [] }

/-- The state right after reset, which is construction (rule R340), from the reference configuration (log 2). -/
def State.reset : State :=
  State.initial Config.reference

/-- The device list of the configuration (rule R10). -/
def State.devices (s : State) : List Descriptor :=
  s.devs.map Slot.descriptor

/-- The configuration the Instance was constructed from (rule R10). -/
def State.config (s : State) : Config :=
  { devices := s.devices, params := s.params }

end Sys2Proof.Machine
end

