-- ==== Sys2Proof/Machine/Flags.lean ====
section
/-!
DEFINITION. Flags.lean: the flags of the block (10_state.md rules R41, R44; 30_encoding.md rule R116).
-/

namespace Sys2Proof.Machine

/-- `status` with CMD_READY set and every other bit 0 (rule R41). -/
def cmdReady : Byte :=
  0x40#8

/-- `status` with DATA_READY set and every other bit 0 (rule R41). -/
def dataReady : Byte :=
  0x08#8

/-- CMD_READY, bit 6 of `status` (rule R41). -/
def isCmdReady (status : Byte) : Bool :=
  status.getLsbD 6

/-- DATA_READY, bit 3 of `status` (rule R41). -/
def isDataReady (status : Byte) : Bool :=
  status.getLsbD 3

/-- The interrupt requests a device's tick returns: NMI and INT (rule R148). -/
structure Requests where
  nmi : Bool
  int : Bool
deriving DecidableEq, Repr

/-- No request; also what a device ticked 0 times requests (rule R148). -/
def Requests.none : Requests :=
  { nmi := false, int := false }

/-- The OR of two devices' requests (rule R148). -/
def Requests.or (x y : Requests) : Requests :=
  { nmi := x.nmi || y.nmi, int := x.int || y.int }

/-- The bus state: bit 0 is NMI, bit 1 is INT (rule R116). -/
def Requests.busState (x : Requests) : BusState :=
  BitVec.ofBool x.int ++ BitVec.ofBool x.nmi

/-- The NMI bit of a bus state (rule R116). -/
def busNmi (bs : BusState) : Bool :=
  bs.getLsbD 0

/-- The INT bit of a bus state (rule R116). -/
def busInt (bs : BusState) : Bool :=
  bs.getLsbD 1

end Sys2Proof.Machine
end

