-- ==== Sys2Proof/Machine/Operands.lean ====
section
/-!
DEFINITION. Operands.lean: how operands are formed (30_encoding.md rule R108) and how devices and addresses are found by a host
operation's arguments (rules R74, R120, R121).
-/

namespace Sys2Proof.Machine

/-- The running bit TMR_CONTROL forms from its byte: any nonzero byte starts the timer (rules R108, R241). -/
def runningOf (v : Byte) : Bool :=
  v != 0#8

/-- The 29-bit LBA: `lba_reg[3][4:0] ++ lba_reg[2] ++ lba_reg[1] ++ lba_reg[0]` (rules R42, R108; 90_conflicts.md C3, C4). -/
def lbaWord (b : BlockDrive) : BitVec 29 :=
  (b.lba3.extractLsb' 0 5) ++ (b.lba2 ++ (b.lba1 ++ b.lba0))

/-- `lba()`: the assembled LBA as a sector number (rule R42). -/
def lbaOf (b : BlockDrive) : Nat :=
  (lbaWord b).toNat

/-- A memory address of a host operation, after its range check (rule R121). -/
def hostAddr (a : Nat) : Addr :=
  BitVec.ofNat 16 a

/-- A byte of a host operation, after its range check (rule R121). -/
def hostByte (v : Nat) : Byte :=
  BitVec.ofNat 8 v

/-- The addresses among a host operation's arguments that are out of range (rule R121). -/
def badAddrs (args : List Nat) : List Nat :=
  args.filter fun a => decide (0xFFFF < a)

/-- The bytes among a host operation's arguments that are out of range (rule R121). -/
def badBytes (args : List Nat) : List Nat :=
  args.filter fun v => decide (255 < v)

/-- The region of a device, if it is a memory region (rule R73). -/
def Device.region : Device → Option Region
  | .rom r => some r
  | .ram r => some r
  | .serial _ => none
  | .timer _ => none
  | .drive _ => none

/-- `base <= a < base + size` (rule R73). -/
def Region.inRange (r : Region) (a : Addr) : Bool :=
  decide (r.desc.base.toNat ≤ a.toNat) && decide (a.toNat < r.desc.base.toNat + r.desc.size)

/-- A device claims an address when it is a memory region whose range contains it (rule R73; 90_conflicts.md C1). -/
def Slot.claims (d : Slot) (a : Addr) : Bool :=
  match d.device.region with
  | none => false
  | some r => r.inRange a

/-- `claimant(a)`: the index of the first memory region, in list order, whose range contains `a` (rule R74). -/
def claimant (devs : List Slot) (a : Addr) : Option Nat :=
  devs.findIdx? fun d => d.claims a

/-- The index of the serial port a host operation names, if it names one (rule R121). -/
def findSerial (devs : List Slot) (name : Name) : Option Nat :=
  devs.findIdx? fun d =>
    d.name == name &&
      match d.device with
      | .serial _ => true
      | _ => false

/-- The index of the block drive a host operation names, if it names one (rule R121). -/
def findDrive (devs : List Slot) (name : Name) : Option Nat :=
  devs.findIdx? fun d =>
    d.name == name &&
      match d.device with
      | .drive _ => true
      | _ => false

/-- Device `i` of the list, as a serial port. -/
def serialAt (devs : List Slot) (i : Nat) : Option SerialPort :=
  match devs[i]? with
  | none => none
  | some d =>
    match d.device with
    | .serial p => some p
    | _ => none

/-- Device `i` of the list, as a timer. -/
def timerAt (devs : List Slot) (i : Nat) : Option Timer :=
  match devs[i]? with
  | none => none
  | some d =>
    match d.device with
    | .timer t => some t
    | _ => none

/-- Device `i` of the list, as a block drive. -/
def driveAt (devs : List Slot) (i : Nat) : Option BlockDrive :=
  match devs[i]? with
  | none => none
  | some d =>
    match d.device with
    | .drive b => some b
    | _ => none

/-- Device `i` of the list, as a memory region. -/
def regionAt (devs : List Slot) (i : Nat) : Option Region :=
  match devs[i]? with
  | none => none
  | some d => d.device.region

/-- The device list with device `i`'s registers replaced; its name stays. -/
def putDevice (devs : List Slot) (i : Nat) (x : Device) : List Slot :=
  devs.modify i fun d => { d with device := x }

/-- The state with device `i`'s registers replaced. -/
def State.putDevice (s : State) (i : Nat) (x : Device) : State :=
  { s with devs := Sys2Proof.Machine.putDevice s.devs i x }

end Sys2Proof.Machine
end

