-- ==== Sys2Proof/Machine/Ops.lean ====
section
/-!
DEFINITION. Ops.lean: the operations every family shares: answering, refusing and faulting (60_exceptions.md rules R310, R312,
R315), driving the engine's interrupt inputs (rule R302), and carrying a device handler's result into the state.
-/

namespace Sys2Proof.Machine

/-- What a step answers. -/
abbrev Result := Host.Outcome State Fault Refusal

/-- The state with `r` as the answer of the host operation. -/
def State.reply (s : State) (r : HostReply) : State :=
  { s with returns := { s.returns with host := some r } }

/-- `refuse E`: the operation is rejected; nothing of the block changes (rule R312; log 11). -/
def State.refuse (s : State) (e : HostError) : State :=
  s.reply (.error e)

/-- `raise F`: the fault is recorded if none is yet, and the host operation in progress is aborted at this point; its partial
effects stay (rule R310). The engine and the CPU's return path see nothing of it (rule R300; log 12). -/
def State.raise (s : State) (f : ModelFault) : State :=
  { s with
    dbg := { s.dbg with fault := s.dbg.fault.or (some f) },
    phase := .idle,
    returns := { s.returns with cpu := none, host := some .aborted } }

/-- A host operation that is refused once a fault is recorded (rule R310); there is no return from a fault (rule R310:
nothing clears it). -/
def State.unlessFaulted (s : State) (t : State) : State :=
  if s.dbg.fault.isSome then s.refuse .faulted else t

/-- A bus transaction that answers byte `v` (rule R100). -/
def State.answerByte (s : State) (v : Byte) : State :=
  { s with returns := { s.returns with cpu := some v } }

/-- A bus transaction that answers nothing (rule R100). -/
def State.answerNothing (s : State) : State :=
  { s with returns := { s.returns with cpu := none } }

/-- `DriveInterrupts(bs)`: `raise_nmi()` when the NMI bit is 1, then `set_interrupt` with the INT bit, in every batch (rules
R302, R304). -/
def State.driveInterrupts (s : State) (bs : BusState) : State :=
  { s with
    eng := { s.eng with
      nmiCalls := if busNmi bs then s.eng.nmiCalls + 1 else s.eng.nmiCalls,
      intLevel := some (busInt bs) } }

/-- What a device handler did: the new registers, the value answered (ABSENT is none), and the model fault it raised. -/
structure Handled (α : Type) where
  dev : α
  value : Option Byte
  fault : Option ModelFault
deriving DecidableEq, Repr

/-- A handler that does not take part: no change, ABSENT (rule R144). -/
def Handled.absent {α : Type} (x : α) : Handled α :=
  { dev := x, value := none, fault := none }

/-- The same result over other data. -/
def Handled.map {α β : Type} (f : α → β) (h : Handled α) : Handled β :=
  { dev := f h.dev, value := h.value, fault := h.fault }

/-- The end of an I/O read whose handlers did `h`: a fault aborts the transaction (rules R310, R315); else the value answers, or
0 when every device was ABSENT (rule R144). -/
def State.finishRead (s : State) (h : Handled (List Slot)) : State :=
  match h.fault with
  | some f => State.raise { s with devs := h.dev } f
  | none => State.answerByte { s with devs := h.dev } (h.value.getD 0#8)

/-- The end of an I/O write whose handlers did `h` (rules R146, R310, R315). -/
def State.finishWrite (s : State) (h : Handled (List Slot)) : State :=
  match h.fault with
  | some f => State.raise { s with devs := h.dev } f
  | none => State.answerNothing { s with devs := h.dev }

/-- A handler of a serial port, applied to a device that is one. -/
def Slot.onSerial (f : SerialPort → Handled SerialPort) (d : Slot) : Option (Handled Slot) :=
  match d.device with
  | .serial p => some ((f p).map fun p' => { d with device := .serial p' })
  | _ => none

/-- A handler of a timer, applied to a device that is one. -/
def Slot.onTimer (f : Timer → Handled Timer) (d : Slot) : Option (Handled Slot) :=
  match d.device with
  | .timer t => some ((f t).map fun t' => { d with device := .timer t' })
  | _ => none

/-- A handler of a block drive, which records the device's name in a fault (rule R314), applied to a device that is one. -/
def Slot.onDrive (f : Name → BlockDrive → Handled BlockDrive) (d : Slot) : Option (Handled Slot) :=
  match d.device with
  | .drive b => some ((f d.name b).map fun b' => { d with device := .drive b' })
  | _ => none

/-- A read of one device's register: the handler runs on device `i` alone (rules R170, R172, R264, R270). -/
def State.readDevice (s : State) (i : Nat) (f : Slot → Option (Handled Slot)) : Result :=
  match s.devs[i]? with
  | none => .fault (.noSuchDevice i)
  | some d =>
    match f d with
    | none => .fault (.noSuchDevice i)
    | some h => .next (s.finishRead (h.map fun d' => s.devs.set i d'))

/-- A write of one device's register: the handler runs on device `i` alone (rules R174, R240, R241, R260 to R272). -/
def State.writeDevice (s : State) (i : Nat) (f : Slot → Option (Handled Slot)) : Result :=
  match s.devs[i]? with
  | none => .fault (.noSuchDevice i)
  | some d =>
    match f d with
    | none => .fault (.noSuchDevice i)
    | some h => .next (s.finishWrite (h.map fun d' => s.devs.set i d'))

end Sys2Proof.Machine
end

