-- ==== Sys2Proof/Machine/Clock.lean ====
section
/-!
DEFINITION. Clock.lean: the interval timer (43_timer.md) and the clock batch with interrupt aggregation (40_bus_dispatcher.md
rules R148, R149).
-/

namespace Sys2Proof.Machine

/-- TMR_COUNT: `count <- v`, running or not (rule R240). -/
def Timer.writeCount (v : Byte) (t : Timer) : Handled Timer :=
  { dev := { t with count := v }, value := none, fault := none }

/-- TMR_CONTROL: `running <- (v != 0)` (rule R241). -/
def Timer.writeControl (v : Byte) (t : Timer) : Handled Timer :=
  { dev := { t with running := runningOf v }, value := none, fault := none }

/-- TMR_COUNT of device `dev` (rule R240). -/
def execTmrCount (dev : Nat) (v : Byte) (s : State) : Result :=
  s.writeDevice dev (Slot.onTimer (Timer.writeCount v))

/-- TMR_CONTROL of device `dev` (rule R241). -/
def execTmrControl (dev : Nat) (v : Byte) (s : State) : Result :=
  s.writeDevice dev (Slot.onTimer (Timer.writeControl v))

/-- One clocked cycle of a timer: a count above 0 falls by one, a count of 0 requests NMI and stays (rule R244; 90_conflicts.md
C7). -/
def Timer.tick (t : Timer) : Timer × Requests :=
  if t.running then
    if t.count = 0#8 then (t, { nmi := true, int := false })
    else ({ t with count := t.count - 1#8 }, Requests.none)
  else (t, Requests.none)

/-- One clocked cycle of a device: only a timer changes or requests anything, and nothing requests INT (rule R149). -/
def Device.tick : Device → Device × Requests
  | .timer t => (.timer t.tick.1, t.tick.2)
  | .rom r => (.rom r, Requests.none)
  | .ram r => (.ram r, Requests.none)
  | .serial p => (.serial p, Requests.none)
  | .drive b => (.drive b, Requests.none)

/-- `c` ticks of a device, with the requests of the last one; `last` are those of the tick before (rule R148). -/
def Device.ticks : Nat → Device → Requests → Device × Requests
  | 0, d, last => (d, last)
  | c + 1, d, _ => Device.ticks c d.tick.1 d.tick.2

/-- Every device ticked `c` times, in list order, and the OR of their last requests (rule R148; 90_conflicts.md C11). -/
def clockAll (c : Nat) : List Slot → List Slot × Requests
  | [] => ([], Requests.none)
  | d :: ds =>
    ({ d with device := (Device.ticks c d.device Requests.none).1 } :: (clockAll c ds).1,
      (Device.ticks c d.device Requests.none).2.or (clockAll c ds).2)

/-- CLOCK: the clock batch of `c` cycles; answers the bus state (rule R148). -/
def execClock (c : Nat) (s : State) : Result :=
  .next { s with
    devs := (clockAll c s.devs).1,
    returns := { s.returns with bus := some (clockAll c s.devs).2.busState } }

end Sys2Proof.Machine
end

