-- ==== Sys2Proof/Machine/Drive.lean ====
section
/-!
DEFINITION. Drive.lean: the block drive (44_block_drive.md).
-/

namespace Sys2Proof.Machine

/-- `LoadSector(s)`: the sector's bytes; zeros without a file; none (FAULT_BD_LBA_RANGE) beyond the last sector (rule R278). -/
def BlockDrive.loadSector (b : BlockDrive) (sector : Nat) : Option Memory :=
  match b.store with
  | none => some []
  | some m =>
    if sector < b.desc.numSectors then
      some (Memory.copyIn [] 0 (fun o => m.read (sector * b.desc.sectorSize + o)) b.desc.sectorSize)
    else none

/-- `StoreSector(s, buf)`: the drive with the sector stored; unchanged without a file; none (FAULT_BD_LBA_RANGE) beyond the last
sector (rule R278). -/
def BlockDrive.storeSector (b : BlockDrive) (sector : Nat) (buf : Memory) : Option BlockDrive :=
  match b.store with
  | none => some b
  | some m =>
    if sector < b.desc.numSectors then
      some { b with store := some (m.copyIn (sector * b.desc.sectorSize) buf.read b.desc.sectorSize) }
    else none

/-- BD_LBA0: `lba_reg[0] <- v` (rule R260). -/
def BlockDrive.writeLba0 (v : Byte) (_ : Name) (b : BlockDrive) : Handled BlockDrive :=
  { dev := { b with lba0 := v }, value := none, fault := none }

/-- BD_LBA1: `lba_reg[1] <- v` (rule R260). -/
def BlockDrive.writeLba1 (v : Byte) (_ : Name) (b : BlockDrive) : Handled BlockDrive :=
  { dev := { b with lba1 := v }, value := none, fault := none }

/-- BD_LBA2: `lba_reg[2] <- v` (rule R260). -/
def BlockDrive.writeLba2 (v : Byte) (_ : Name) (b : BlockDrive) : Handled BlockDrive :=
  { dev := { b with lba2 := v }, value := none, fault := none }

/-- BD_LBA3: `lba_reg[3] <- v`, all 8 bits stored (rules R40, R260). -/
def BlockDrive.writeLba3 (v : Byte) (_ : Name) (b : BlockDrive) : Handled BlockDrive :=
  { dev := { b with lba3 := v }, value := none, fault := none }

/-- BD_STATUS: the `status` byte, in every mode and phase (rule R264). -/
def BlockDrive.readStatus (_ : Name) (b : BlockDrive) : Handled BlockDrive :=
  { dev := b, value := some b.status, fault := none }

/-- BD_CMD READ_SECTOR: the sector is loaded, in every state; on a fault no register changes (rule R266). -/
def BlockDrive.cmdRead (name : Name) (b : BlockDrive) : Handled BlockDrive :=
  match b.loadSector (lbaOf b) with
  | none => { dev := b, value := none, fault := some (.bdLbaRange name (lbaOf b)) }
  | some data =>
    { dev := { b with sectorBuffer := data, bufferOffset := 0, mode := .read, status := dataReady },
      value := none, fault := none }

/-- BD_CMD WRITE_SECTOR: the buffer is cleared, in every state; the LBA is checked only at the flush (rule R268). -/
def BlockDrive.cmdWrite (_ : Name) (b : BlockDrive) : Handled BlockDrive :=
  { dev := { b with sectorBuffer := [], bufferOffset := 0, mode := .write, status := dataReady },
    value := none, fault := none }

/-- BD_CMD with any other byte: nothing changes (rule R269). -/
def BlockDrive.cmdOther (_ : Name) (b : BlockDrive) : Handled BlockDrive :=
  { dev := b, value := none, fault := none }

/-- BD_DATA_RD: the next byte of the sector; the last one sets `status` to CMD_READY and leaves the mode READ; outside its phase
FAULT_BD_PROTOCOL and no change (rules R270, R276). -/
def BlockDrive.dataRead (name : Name) (b : BlockDrive) : Handled BlockDrive :=
  if b.mode = .read ∧ b.bufferOffset < b.desc.sectorSize then
    { dev := { b with
        bufferOffset := b.bufferOffset + 1,
        status := if b.bufferOffset + 1 = b.desc.sectorSize then cmdReady else b.status },
      value := some (b.sectorBuffer.read b.bufferOffset), fault := none }
  else { dev := b, value := none, fault := some (.bdProtocol name .read b.mode b.bufferOffset) }

/-- The drive with `v` stored as the next byte of the sector buffer (rule R272). -/
def BlockDrive.acceptByte (v : Byte) (b : BlockDrive) : BlockDrive :=
  { b with sectorBuffer := b.sectorBuffer.write b.bufferOffset v, bufferOffset := b.bufferOffset + 1 }

/-- The flush after the last byte, to the LBA the registers hold now; a fault leaves the byte stored and `status` and `store` as
they are (rules R272, R274, R315). -/
def BlockDrive.flush (name : Name) (b : BlockDrive) : Handled BlockDrive :=
  match b.storeSector (lbaOf b) b.sectorBuffer with
  | none => { dev := b, value := none, fault := some (.bdLbaRange name (lbaOf b)) }
  | some b' => { dev := { b' with status := cmdReady }, value := none, fault := none }

/-- BD_DATA_WR: the next byte of the sector; the last one flushes it; outside its phase FAULT_BD_PROTOCOL and no change (rules
R272, R276). -/
def BlockDrive.dataWrite (v : Byte) (name : Name) (b : BlockDrive) : Handled BlockDrive :=
  if b.mode = .write ∧ b.bufferOffset < b.desc.sectorSize then
    if b.bufferOffset + 1 = b.desc.sectorSize then (b.acceptByte v).flush name
    else { dev := b.acceptByte v, value := none, fault := none }
  else { dev := b, value := none, fault := some (.bdProtocol name .write b.mode b.bufferOffset) }

/-- BD_CMD: the command is the whole byte (rules R107, R266, R268, R269). -/
def BlockDrive.command (v : Byte) (name : Name) (b : BlockDrive) : Handled BlockDrive :=
  if v = 0x20#8 then b.cmdRead name
  else if v = 0x30#8 then b.cmdWrite name
  else b.cmdOther name

/-- BD_LBA0 of device `dev` (rule R260). -/
def execBdLba0 (dev : Nat) (v : Byte) (s : State) : Result :=
  s.writeDevice dev (Slot.onDrive (BlockDrive.writeLba0 v))

/-- BD_LBA1 of device `dev` (rule R260). -/
def execBdLba1 (dev : Nat) (v : Byte) (s : State) : Result :=
  s.writeDevice dev (Slot.onDrive (BlockDrive.writeLba1 v))

/-- BD_LBA2 of device `dev` (rule R260). -/
def execBdLba2 (dev : Nat) (v : Byte) (s : State) : Result :=
  s.writeDevice dev (Slot.onDrive (BlockDrive.writeLba2 v))

/-- BD_LBA3 of device `dev` (rule R260). -/
def execBdLba3 (dev : Nat) (v : Byte) (s : State) : Result :=
  s.writeDevice dev (Slot.onDrive (BlockDrive.writeLba3 v))

/-- BD_STATUS of device `dev` (rule R264). -/
def execBdStatus (dev : Nat) (s : State) : Result :=
  s.readDevice dev (Slot.onDrive BlockDrive.readStatus)

/-- BD_CMD READ_SECTOR of device `dev` (rule R266). -/
def execBdCmdReadSector (dev : Nat) (s : State) : Result :=
  s.writeDevice dev (Slot.onDrive BlockDrive.cmdRead)

/-- BD_CMD WRITE_SECTOR of device `dev` (rule R268). -/
def execBdCmdWriteSector (dev : Nat) (s : State) : Result :=
  s.writeDevice dev (Slot.onDrive BlockDrive.cmdWrite)

/-- BD_CMD of device `dev` with a byte `v` that is neither 0x20 nor 0x30; whatever the byte, it changes nothing (rule R269). -/
def execBdCmdOther (dev : Nat) (_v : Byte) (s : State) : Result :=
  s.writeDevice dev (Slot.onDrive BlockDrive.cmdOther)

/-- BD_DATA_RD of device `dev` (rule R270). -/
def execBdDataRd (dev : Nat) (s : State) : Result :=
  s.readDevice dev (Slot.onDrive BlockDrive.dataRead)

/-- BD_DATA_WR of device `dev` (rule R272). -/
def execBdDataWr (dev : Nat) (v : Byte) (s : State) : Result :=
  s.writeDevice dev (Slot.onDrive (BlockDrive.dataWrite v))

/-- BD_READ_BYTE: a byte of the backing store, bypassing the register protocol (rule R280). -/
def State.readStoreByte (s : State) (name : Name) (sector offset : Nat) : State :=
  match findDrive s.devs name with
  | none => s.refuse (.badDevice name)
  | some i =>
    match driveAt s.devs i with
    | none => s.refuse (.badDevice name)
    | some b =>
      if b.desc.numSectors ≤ sector ∨ b.desc.sectorSize ≤ offset then s.refuse (.range sector offset)
      else
        match b.store with
        | none => s.reply (.byte 0x00#8)
        | some m => s.reply (.byte (m.read (sector * b.desc.sectorSize + offset)))

/-- BD_READ_BYTE, served even after a fault (rules R280, R310). -/
def execBdReadByte (name : Name) (sector offset : Nat) (s : State) : Result :=
  .next (s.readStoreByte name sector offset)

/-- The host's change of one byte of a drive's backing store, whose size it cannot change (rule R358; log 25). -/
def State.setStoreByte (s : State) (name : Name) (index : Nat) (v : Byte) : State :=
  match findDrive s.devs name with
  | none => s
  | some i =>
    match driveAt s.devs i with
    | none => s
    | some b =>
      match b.store with
      | none => s
      | some m =>
        if index < b.desc.sectorSize * b.desc.numSectors then
          s.putDevice i (.drive { b with store := some (m.write index v) })
        else s

end Sys2Proof.Machine
end

