-- ==== Sys2Proof/Machine/Serial.lean ====
section
/-!
DEFINITION. Serial.lean: the serial port (41_serial_port.md): ring buffers, the CPU-side registers, the host's puts and gets.
-/

namespace Sys2Proof.Machine

/-- `len(r)` (rule R37): the count, or under INDEX_WRAP `(wr - rd) mod C`. -/
def Ring.len (pol : SerialOverflow) (cap : Nat) (r : Ring) : Nat :=
  match pol with
  | .overwriteOldest => r.cnt
  | .dropNewest => r.cnt
  | .indexWrap => (r.wr + (cap - r.rd)) % cap

/-- `empty(r)` (rule R37). -/
def Ring.empty (pol : SerialOverflow) (cap : Nat) (r : Ring) : Bool :=
  r.len pol cap == 0

/-- The unread bytes, oldest first (rule R37). -/
def Ring.unread (pol : SerialOverflow) (cap : Nat) (r : Ring) : List Byte :=
  (List.range (r.len pol cap)).map fun k => r.buf.read ((r.rd + k) % cap)

/-- The byte is stored at the write index, which moves on (rule R176). -/
def Ring.put (cap : Nat) (r : Ring) (v : Byte) : Ring :=
  { r with buf := r.buf.write r.wr v, wr := (r.wr + 1) % cap }

/-- `Push(r, v)` under each SERIAL_OVERFLOW (rule R176; 90_conflicts.md C2). -/
def Ring.push (pol : SerialOverflow) (cap : Nat) (r : Ring) (v : Byte) : Ring :=
  match pol with
  | .overwriteOldest =>
    if r.cnt = cap then { r.put cap v with rd := (r.rd + 1) % cap }
    else { r.put cap v with cnt := r.cnt + 1 }
  | .dropNewest =>
    if r.cnt = cap then r
    else { r.put cap v with cnt := r.cnt + 1 }
  | .indexWrap => r.put cap v

/-- `Pop(r)` of a ring that is not empty: the oldest unread byte, and the ring without it (rule R178). -/
def Ring.pop (pol : SerialOverflow) (cap : Nat) (r : Ring) : Byte × Ring :=
  (r.buf.read r.rd,
    { r with
      rd := (r.rd + 1) % cap,
      cnt := match pol with
        | .overwriteOldest => r.cnt - 1
        | .dropNewest => r.cnt - 1
        | .indexWrap => r.cnt })

/-- A list of bytes pushed in order (rule R180). -/
def Ring.pushAll (pol : SerialOverflow) (cap : Nat) (r : Ring) (bs : List Byte) : Ring :=
  bs.foldl (fun r v => r.push pol cap v) r

/-- `k` bytes popped, oldest first (rule R182). -/
def Ring.popMany (pol : SerialOverflow) (cap : Nat) : Nat → Ring → List Byte × Ring
  | 0, r => ([], r)
  | k + 1, r => ((r.pop pol cap).1 :: (Ring.popMany pol cap k (r.pop pol cap).2).1, (Ring.popMany pol cap k (r.pop pol cap).2).2)

/-- SER_IN: pops the oldest byte of `to_device`; an empty buffer answers 0, which is a value (rule R170). -/
def SerialPort.serIn (pol : SerialOverflow) (p : SerialPort) : Handled SerialPort :=
  if p.toDevice.empty pol p.desc.capacity then { dev := p, value := some 0#8, fault := none }
  else
    { dev := { p with toDevice := (p.toDevice.pop pol p.desc.capacity).2 },
      value := some (p.toDevice.pop pol p.desc.capacity).1, fault := none }

/-- SER_READY: 0x01 when `to_device` is not empty, else 0x00 (rule R172). -/
def SerialPort.serReady (pol : SerialOverflow) (p : SerialPort) : Handled SerialPort :=
  { dev := p, value := some (if p.toDevice.empty pol p.desc.capacity then 0x00#8 else 0x01#8), fault := none }

/-- SER_OUT: pushes the byte onto `from_device` (rule R174). -/
def SerialPort.serOut (pol : SerialOverflow) (v : Byte) (p : SerialPort) : Handled SerialPort :=
  { dev := { p with fromDevice := p.fromDevice.push pol p.desc.capacity v }, value := none, fault := none }

/-- SER_IN of device `dev` (rule R170). -/
def execSerIn (dev : Nat) (s : State) : Result :=
  s.readDevice dev (Slot.onSerial (SerialPort.serIn s.params.overflow))

/-- SER_READY of device `dev` (rule R172). -/
def execSerReady (dev : Nat) (s : State) : Result :=
  s.readDevice dev (Slot.onSerial (SerialPort.serReady s.params.overflow))

/-- SER_OUT of device `dev` (rule R174). -/
def execSerOut (dev : Nat) (v : Byte) (s : State) : Result :=
  s.writeDevice dev (Slot.onSerial (SerialPort.serOut s.params.overflow v))

/-- The state with bytes pushed onto `to_device` of port `i` (rule R180). -/
def State.putsAt (s : State) (i : Nat) (bs : List Byte) : State :=
  match serialAt s.devs i with
  | none => s
  | some p =>
    s.putDevice i (.serial { p with toDevice := p.toDevice.pushAll s.params.overflow p.desc.capacity bs })

/-- SERIAL_PUTS (rule R180): refused when the name is no serial port's or a byte is out of range (rule R121); where both hold the
spec does not say which error is reported (log 13). -/
def State.puts (s : State) (name : Name) (bytes : List Nat) : State :=
  match findSerial s.devs name, badBytes bytes with
  | some i, [] => (s.putsAt i (bytes.map hostByte)).reply .done
  | some _, b :: bs => s.refuse (.badValue (b :: bs))
  | none, [] => s.refuse (.badDevice name)
  | none, b :: bs => s.refuse (if Config.badValueFirst then .badValue (b :: bs) else .badDevice name)

/-- SERIAL_PUTS (rules R180, R310). -/
def execSerialPuts (name : Name) (bytes : List Nat) (s : State) : Result :=
  .next (s.unlessFaulted (s.puts name bytes))

/-- How many bytes a GETS takes of `available` (rule R182, decision D39). -/
def getsCount (count : Option Nat) (available : Nat) : Nat :=
  match count with
  | none => available
  | some k => min k available

/-- SERIAL_GETS (rule R182): the available bytes, at most `count`, oldest first. -/
def State.gets (s : State) (name : Name) (count : Option Nat) : State :=
  match findSerial s.devs name with
  | none => s.refuse (.badDevice name)
  | some i =>
    match serialAt s.devs i with
    | none => s.refuse (.badDevice name)
    | some p =>
      let k := getsCount count (p.fromDevice.len s.params.overflow p.desc.capacity)
      let got := Ring.popMany s.params.overflow p.desc.capacity k p.fromDevice
      (s.putDevice i (.serial { p with fromDevice := got.2 })).reply (.bytes got.1)

/-- SERIAL_GETS (rules R182, R310). -/
def execSerialGets (name : Name) (count : Option Nat) (s : State) : Result :=
  .next (s.unlessFaulted (s.gets name count))

end Sys2Proof.Machine
end

