-- ==== Sys2Proof/Machine/Bus.lean ====
section
/-!
DEFINITION. Bus.lean: the bus dispatcher (40_bus_dispatcher.md): memory and I/O transactions, and the host's memory access.
-/

namespace Sys2Proof.Machine

/-- The offset of an address in a region (rule R140). -/
def Region.offset (r : Region) (a : Addr) : Nat :=
  a.toNat - r.desc.base.toNat

/-- `MemRead(a, 1)`: the claimant's byte, 0 when no region claims the address (rule R140). -/
def memRead (devs : List Slot) (a : Addr) : Byte :=
  match claimant devs a with
  | none => 0x00#8
  | some i =>
    match regionAt devs i with
    | none => 0x00#8
    | some r => r.contents.read (r.offset a)

/-- A region with one byte stored. -/
def Region.put (a : Addr) (v : Byte) (r : Region) : Region :=
  { r with contents := r.contents.write (r.offset a) v }

/-- A write the bus delivers to its claimant: a RAM stores it, a ROM ignores it (rule R142). -/
def Device.busWrite (a : Addr) (v : Byte) : Device → Device
  | .ram r => .ram (r.put a v)
  | .rom r => .rom r
  | .serial p => .serial p
  | .timer t => .timer t
  | .drive b => .drive b

/-- A write the host delivers to its claimant: a ROM stores it only under HOST_WRITE_ROM = STORE (rule R152). -/
def Device.hostWrite (rom : HostWriteRom) (a : Addr) (v : Byte) : Device → Device
  | .ram r => .ram (r.put a v)
  | .rom r =>
    match rom with
    | .ignore => .rom r
    | .store => .rom (r.put a v)
  | .serial p => .serial p
  | .timer t => .timer t
  | .drive b => .drive b

/-- A write goes to the claimant only; it is discarded when there is none (rules R142, R152). -/
def writeClaimant (devs : List Slot) (a : Addr) (f : Device → Device) : List Slot :=
  match claimant devs a with
  | none => devs
  | some i => devs.modify i fun d => { d with device := f d.device }

/-- The state after a write delivered to the claimant of `a`. -/
def State.withWrite (s : State) (a : Addr) (f : Device → Device) : State :=
  { s with devs := writeClaimant s.devs a f }

/-- MEM_RD (rule R140). -/
def execMemRd (a : Addr) (s : State) : Result :=
  .next (s.answerByte (memRead s.devs a))

/-- MEM_WR (rule R142). -/
def execMemWr (a : Addr) (v : Byte) (s : State) : Result :=
  .next (s.withWrite a (Device.busWrite a v)).answerNothing

/-- The read handler of one readable register (rule R144). -/
def Slot.readHandler (params : Params) (d : Slot) : ReadReg → Option (Handled Slot)
  | .serIn => d.onSerial (SerialPort.serIn params.overflow)
  | .serReady => d.onSerial (SerialPort.serReady params.overflow)
  | .bdData => d.onDrive BlockDrive.dataRead
  | .bdStatus => d.onDrive BlockDrive.readStatus

/-- The write handler of one writable register (rule R146). -/
def Slot.writeHandler (params : Params) (v : Byte) (d : Slot) : WriteReg → Option (Handled Slot)
  | .serOut => d.onSerial (SerialPort.serOut params.overflow v)
  | .tmrCount => d.onTimer (Timer.writeCount v)
  | .tmrControl => d.onTimer (Timer.writeControl v)
  | .bdData => d.onDrive (BlockDrive.dataWrite v)
  | .bdLba0 => d.onDrive (BlockDrive.writeLba0 v)
  | .bdLba1 => d.onDrive (BlockDrive.writeLba1 v)
  | .bdLba2 => d.onDrive (BlockDrive.writeLba2 v)
  | .bdLba3 => d.onDrive (BlockDrive.writeLba3 v)
  | .bdCmd => d.onDrive (BlockDrive.command v)

/-- What a device does when it is offered a read of port `p`: ABSENT unless it recognizes the port (rule R144). -/
def Slot.offerRead (params : Params) (p : Port) (d : Slot) : Handled Slot :=
  match d.device.desc.readReg p with
  | none => Handled.absent d
  | some r => (d.readHandler params r).getD (Handled.absent d)

/-- What a device does when it is offered a write of `v` to port `p`: nothing unless it recognizes the port (rule R146). -/
def Slot.offerWrite (params : Params) (p : Port) (v : Byte) (d : Slot) : Handled Slot :=
  match d.device.desc.writeReg p with
  | none => Handled.absent d
  | some r => (d.writeHandler params v r).getD (Handled.absent d)

/-- An access offered to every device in list order. Every one that takes part has its effect, the first value answers, and the
first fault ends the access: devices after it do nothing, those before keep their effects (rules R144, R146, R315). -/
def offerAll (offer : Slot → Handled Slot) : List Slot → Handled (List Slot)
  | [] => Handled.absent []
  | d :: ds =>
    match (offer d).fault with
    | some f => { dev := (offer d).dev :: ds, value := none, fault := some f }
    | none =>
      { dev := (offer d).dev :: (offerAll offer ds).dev,
        value := (offer d).value.or (offerAll offer ds).value,
        fault := (offerAll offer ds).fault }

/-- IO_RD (rule R144; decision D43). -/
def execIoRd (p : Port) (s : State) : Result :=
  .next (s.finishRead (offerAll (Slot.offerRead s.params p) s.devs))

/-- IO_WR (rule R146; 90_conflicts.md C8). -/
def execIoWr (p : Port) (v : Byte) (s : State) : Result :=
  .next (s.finishWrite (offerAll (Slot.offerWrite s.params p v) s.devs))

/-- READ_MEMORY: the bus read's byte, served even after a fault; it ticks nothing (rules R150, R310). -/
def execReadMemory (addr : Nat) (s : State) : Result :=
  match badAddrs [addr] with
  | [] => .next (s.reply (.byte (memRead s.devs (hostAddr addr))))
  | b :: bs => .next (s.refuse (.badValue (b :: bs)))

/-- WRITE_MEMORY (rule R152), of arguments in range (rule R121). -/
def State.hostWrite (s : State) (addr value : Nat) : State :=
  match badAddrs [addr] ++ badBytes [value] with
  | [] =>
    (s.withWrite (hostAddr addr) (Device.hostWrite s.params.hostWriteRom (hostAddr addr) (hostByte value))).reply .done
  | b :: bs => s.refuse (.badValue (b :: bs))

/-- WRITE_MEMORY (rules R152, R310). -/
def execWriteMemory (addr value : Nat) (s : State) : Result :=
  .next (s.unlessFaulted (s.hostWrite addr value))

end Sys2Proof.Machine
end

