-- ==== Sys2Proof/Machine/DebugCtl.lean ====
section
/-!
DEFINITION. DebugCtl.lean: the debug controller (42_debug_controller.md): CONTINUE and STEP, the parts of one loop iteration,
breakpoints, tracepoints and queries.

The loop of rule R210 takes several steps of the model: the engine's transactions, the end of `Engine.step()`, the clock batch
with the checks after it, and the actions of a callback (log 28). `Phase` holds the loop's variables between them.
-/

namespace Sys2Proof.Machine

/-- The start of a CONTINUE that is not refused: in Halted it returns 0 at once; else the state is Running and the engine steps
(rules R201, R210, R229). -/
def State.beginCall (s : State) (max : Option Nat) : State :=
  if s.dbg.runState = .halted then s.reply (.cycles 0)
  else
    { s with
      dbg := { s.dbg with runState := .running },
      phase := .engine { budget := max, total := 0 },
      returns := { s.returns with host := none } }

/-- CONTINUE with a budget: refused after a fault (rule R310) and inside a callback (rule R222). -/
def State.continueWith (s : State) (max : Option Nat) : State :=
  s.unlessFaulted (if s.dbg.inCallback then s.refuse .reentrant else s.beginCall max)

/-- CONTINUE (rule R210). -/
def execContinueRun (max : Option Nat) (s : State) : Result :=
  .next (s.continueWith max)

/-- STEP: a CONTINUE with a budget of one cycle (rule R216). -/
def execStepOne (s : State) : Result :=
  .next (s.continueWith (some 1))

/-- `Engine.step()` returned `c` cycles: less than 1 breaks its contract; else the cycles are accumulated and their clock batch is
due (rules R210, R226). -/
def State.engineReturns (s : State) (call : Call) (c : Nat) (pc : Addr) (halted : Bool) : State :=
  let s := { s with eng := { s.eng with pc := pc, halted := halted } }
  if c < 1 then s.raise (.engineContract c)
  else
    { s with
      dbg := { s.dbg with cyclesTotal := s.dbg.cyclesTotal + c },
      phase := .clock { call with total := call.total + c } c }

/-- The end of a CONTINUE: it returns the cycles it executed, in the given run state (rules R210, R359). -/
def State.endCall (s : State) (call : Call) (r : RunState) : State :=
  { s with
    dbg := { s.dbg with runState := r },
    phase := .idle,
    returns := { s.returns with host := some (.cycles call.total) } }

/-- The budget is given and exhausted (rule R217). -/
def Call.exhausted (call : Call) : Bool :=
  match call.budget with
  | none => false
  | some max => decide (max ≤ call.total)

/-- The stop checks of an iteration: halt, breakpoint, budget, in that order; else the engine steps again (rules R213, R215, R217,
R305). -/
def State.finishIteration (s : State) (call : Call) (pcS : Addr) : State :=
  if s.eng.halted then s.endCall call .halted
  else if (mapGet s.dbg.breakpoints pcS.toNat).isSome then s.endCall call .breakHit
  else if call.exhausted then s.endCall call .running
  else { s with phase := .engine call }

/-- Tracepoint dispatch: the callback starts, with the live state (rule R214). -/
def State.enterCallback (s : State) (call : Call) (pcS : Addr) (cb : Callback) : State :=
  { s with dbg := { s.dbg with inCallback := true }, phase := .callback call pcS cb }

/-- The iteration after its clock batch answered `bs`: the interrupt drive, the one PC sample, the tracepoint, the stop checks
(rules R211, R212). -/
def State.afterBatch (s : State) (call : Call) (bs : BusState) : State :=
  let s := s.driveInterrupts bs
  match mapGet s.dbg.tracepoints s.eng.pc.toNat with
  | some cb => s.enterCallback call s.eng.pc cb
  | none => s.finishIteration call s.eng.pc

/-- The callback returned: the stop checks follow, with the PC sampled before it (rules R212, R214). -/
def State.callbackReturns (s : State) (call : Call) (pcS : Addr) : State :=
  State.finishIteration { s with dbg := { s.dbg with inCallback := false } } call pcS

/-- An engine register read inside a callback: the engine answers; nothing of the block changes (rules R31, R222; log 15). -/
def State.registerRead (s : State) (answer : Nat) : State :=
  s.reply (.register answer)

/-- An engine register write inside a callback: it changes the engine only, whose program counter then answers `pcAfter` (rules
R31, R212, R222; log 15). -/
def State.registerWritten (s : State) (pcAfter : Addr) : State :=
  State.reply { s with eng := { s.eng with pc := pcAfter } } .done

/-- An operation on an address, refused when the address is out of range (rule R121). -/
def State.withAddr (s : State) (addr : Nat) (t : State) : State :=
  match badAddrs [addr] with
  | [] => t
  | b :: bs => s.refuse (.badValue (b :: bs))

/-- SET_BREAKPOINT: the address joins the set (rule R218). -/
def execSetBreakpoint (addr : Nat) (s : State) : Result :=
  .next (s.unlessFaulted (s.withAddr addr
    (State.reply { s with dbg := { s.dbg with breakpoints := mapSet addr () s.dbg.breakpoints } } .done)))

/-- REMOVE_BREAKPOINT: the address leaves the set; the run state stays (rule R219). -/
def execRemoveBreakpoint (addr : Nat) (s : State) : Result :=
  .next (s.unlessFaulted (s.withAddr addr
    (State.reply { s with dbg := { s.dbg with breakpoints := mapDel addr s.dbg.breakpoints } } .done)))

/-- REGISTER_TRACEPOINT: the callback must take exactly one parameter; it replaces any earlier one at the address (rule R220). -/
def execRegisterTracepoint (addr : Nat) (cb : Callback) (s : State) : Result :=
  .next (s.unlessFaulted (s.withAddr addr
    (if cb.arity ≠ 1 then s.refuse (.tracepointArity addr)
     else State.reply { s with dbg := { s.dbg with tracepoints := mapSet addr cb s.dbg.tracepoints } } .done)))

/-- QUERY_HALTED, served even after a fault (rules R224, R310). -/
def execQueryHalted (s : State) : Result :=
  .next (s.reply (.bool (s.dbg.runState == .halted)))

/-- QUERY_BREAK, served even after a fault (rules R225, R310). -/
def execQueryBreak (s : State) : Result :=
  .next (s.reply (.bool (s.dbg.runState == .breakHit)))

end Sys2Proof.Machine
end

