-- ==== Sys2Proof/Machine/Dispatch.lean ====
section
/-! DEFINITION. Dispatch.lean: one arm per operation of the block. -/

namespace Sys2Proof.Machine

def exec (i : Instr) (s : State) : Host.Outcome State Fault Refusal :=
  match i with
  | .memRd a => Sys2Proof.Machine.execMemRd a s
  | .memWr a v => Sys2Proof.Machine.execMemWr a v s
  | .ioRd p => Sys2Proof.Machine.execIoRd p s
  | .ioWr p v => Sys2Proof.Machine.execIoWr p v s
  | .clock c => Sys2Proof.Machine.execClock c s
  | .serIn dev => Sys2Proof.Machine.execSerIn dev s
  | .serReady dev => Sys2Proof.Machine.execSerReady dev s
  | .serOut dev v => Sys2Proof.Machine.execSerOut dev v s
  | .tmrCount dev v => Sys2Proof.Machine.execTmrCount dev v s
  | .tmrControl dev v => Sys2Proof.Machine.execTmrControl dev v s
  | .bdDataRd dev => Sys2Proof.Machine.execBdDataRd dev s
  | .bdDataWr dev v => Sys2Proof.Machine.execBdDataWr dev v s
  | .bdLba0 dev v => Sys2Proof.Machine.execBdLba0 dev v s
  | .bdLba1 dev v => Sys2Proof.Machine.execBdLba1 dev v s
  | .bdLba2 dev v => Sys2Proof.Machine.execBdLba2 dev v s
  | .bdLba3 dev v => Sys2Proof.Machine.execBdLba3 dev v s
  | .bdStatus dev => Sys2Proof.Machine.execBdStatus dev s
  | .bdCmdReadSector dev => Sys2Proof.Machine.execBdCmdReadSector dev s
  | .bdCmdWriteSector dev => Sys2Proof.Machine.execBdCmdWriteSector dev s
  | .bdCmdOther dev v => Sys2Proof.Machine.execBdCmdOther dev v s
  | .continueRun max => Sys2Proof.Machine.execContinueRun max s
  | .stepOne => Sys2Proof.Machine.execStepOne s
  | .setBreakpoint addr => Sys2Proof.Machine.execSetBreakpoint addr s
  | .removeBreakpoint addr => Sys2Proof.Machine.execRemoveBreakpoint addr s
  | .registerTracepoint addr cb => Sys2Proof.Machine.execRegisterTracepoint addr cb s
  | .queryHalted => Sys2Proof.Machine.execQueryHalted s
  | .queryBreak => Sys2Proof.Machine.execQueryBreak s
  | .readMemory addr => Sys2Proof.Machine.execReadMemory addr s
  | .writeMemory addr value => Sys2Proof.Machine.execWriteMemory addr value s
  | .serialPuts name bytes => Sys2Proof.Machine.execSerialPuts name bytes s
  | .serialGets name count => Sys2Proof.Machine.execSerialGets name count s
  | .bdReadByte name sector offset => Sys2Proof.Machine.execBdReadByte name sector offset s

end Sys2Proof.Machine
end

