-- ==== Sys2Proof/Machine/Turn.lean ====
section
/-!
DEFINITION. Turn.lean: the agent whose turn it is acts once (00_scope.md rules R8, R14; 42_debug_controller.md rule R211).

An agent with nothing to do leaves the state as it is: the block runs only inside a host operation (rule R8), and an engine step
or a callback that never returns is a hang (rules R210, R222; log 5).
-/

namespace Sys2Proof.Machine

/-- A presented command: decoded and executed, or refused by name. -/
def issue (c : Command) (s : State) : Host.Outcome State Fault Refusal :=
  match decode s.devices c with
  | .ok i => exec i s
  | .error (.ioWordHighBits w) => .refused (.ioWordHighBits w)
  | .error (.unknownHostCode code) => .refused (.unknownHostCode code)

/-- An action of the host (rules R120, R358). -/
def hostStep (a : HostAct) (s : State) : Host.Outcome State Fault Refusal :=
  match a with
  | .op r => issue (.host r) s
  | .setStore name index v => .next (s.setStoreByte name index v)

/-- An event of the engine inside `Engine.step()` (rules R12, R210). -/
def engineStep (e : EngineEvent) (call : Call) (s : State) : Host.Outcome State Fault Refusal :=
  match e with
  | .txn w => issue (.txn w) s
  | .ret c pc halted => .next (s.engineReturns call c pc halted)

/-- An action of a tracepoint callback (rules R214, R222). -/
def callbackStep (a : CallbackAct) (call : Call) (pcS : Addr) (s : State) : Host.Outcome State Fault Refusal :=
  match a with
  | .host h => hostStep h s
  | .readRegister _ answer => .next (s.registerRead answer)
  | .writeRegister _ _ pcAfter => .next (s.registerWritten pcAfter)
  | .ret => .next (s.callbackReturns call pcS)

/-- The clock batch of an iteration, then the rest of the iteration with the bus state it answered (rules R210, R211). -/
def clockStep (call : Call) (c : Nat) (s : State) : Host.Outcome State Fault Refusal :=
  match issue (.clock c) s with
  | .next t => .next (t.afterBatch call (t.returns.bus.getD 0b00#2))
  | .fault f => .fault f
  | .refused r => .refused r

/-- The agent whose turn it is acts once. -/
def turn (s : State) : Host.Outcome State Fault Refusal :=
  match s.phase with
  | .idle =>
    match s.hostIn with
    | [] => .next s
    | a :: rest => hostStep a { s with hostIn := rest }
  | .engine call =>
    match s.engineIn with
    | [] => .next s
    | e :: rest => engineStep e call { s with engineIn := rest }
  | .clock call c => clockStep call c s
  | .callback call pcS _ =>
    match s.callbackIn with
    | [] => .next s
    | a :: rest => callbackStep a call pcS { s with callbackIn := rest }

end Sys2Proof.Machine
end

