-- ==== Sys2Proof/Machine/Step.lean ====
section
/-! DEFINITION. Step.lean: one step of the machine, and where it fetches. -/

namespace Sys2Proof.Machine

/-- One step: the agent whose turn it is acts once (rules R8, R14). -/
def step (s : State) : Host.Outcome State Fault Refusal :=
  turn s

/-- `s` with the operation whose bits are `w` presented next: a host code with zero arguments to a host whose turn it is, or a
transaction word by the engine inside `Engine.step()` (log 6). -/
def State.withFetchWord (s : State) (nbits w : Nat) : State :=
  if nbits ≤ 8 then
    { s with phase := .idle, hostIn := .op (HostRecord.ofCode (BitVec.ofNat 8 w)) :: s.hostIn }
  else
    { s with phase := .engine { budget := none, total := 0 }, engineIn := .txn (BitVec.ofNat 26 w) :: s.engineIn }

end Sys2Proof.Machine
end

