-- ==== Sys2Proof/Machine/Construct.lean ====
section
/-!
DEFINITION. Construct.lean: construction of an Instance, the block's one reset (70_reset_and_hazards.md rules R340 to R342): a
configuration record as the host gives it, its checks, and the state built from it.
-/

namespace Sys2Proof.Machine

/-- The errors that refuse construction, with what they record (rules R312, R314). -/
inductive ConfigError where
  /-- 0x01 CFG_MISSING_PARAM: device name, if it has one, and parameter. -/
  | missingParam (device : Option Name) (param : String)
  /-- 0x02 CFG_REGION_RANGE. -/
  | regionRange (device : Name)
  /-- 0x03 CFG_IMAGE_SIZE. -/
  | imageSize (device : Name)
  /-- 0x04 CFG_BD_FILE_SIZE. -/
  | bdFileSize (device : Name)
  /-- 0x05 CFG_BD_GEOMETRY. -/
  | bdGeometry (device : Name)
  /-- 0x06 CFG_BD_PORT_RANGE. -/
  | bdPortRange (device : Name)
  /-- 0x07 CFG_SERIAL_PORTS. -/
  | serialPorts (device : Name)
  /-- 0x08 CFG_SERIAL_CAPACITY. -/
  | serialCapacity (device : Name)
  /-- 0x09 CFG_TIMER_PORTS. -/
  | timerPorts (device : Name)
  /-- 0x0A CFG_DUPLICATE_NAME. -/
  | duplicateName (name : Name)
deriving DecidableEq, Repr

/-- The codes of rule R314. -/
def ConfigError.code : ConfigError → Byte
  | .missingParam _ _ => 0x01#8
  | .regionRange _ => 0x02#8
  | .imageSize _ => 0x03#8
  | .bdFileSize _ => 0x04#8
  | .bdGeometry _ => 0x05#8
  | .bdPortRange _ => 0x06#8
  | .serialPorts _ => 0x07#8
  | .serialCapacity _ => 0x08#8
  | .timerPorts _ => 0x09#8
  | .duplicateName _ => 0x0A#8

/-- The codes of rule R314. -/
def HostError.code : HostError → Byte
  | .tracepointArity _ => 0x20#8
  | .badDevice _ => 0x30#8
  | .badValue _ => 0x31#8
  | .range _ _ => 0x32#8
  | .reentrant => 0x33#8
  | .faulted => 0x34#8

/-- The codes of rule R314. -/
def ModelFault.code : ModelFault → Byte
  | .bdProtocol _ _ _ _ => 0x40#8
  | .bdLbaRange _ _ => 0x41#8
  | .engineContract _ => 0x42#8

/-- The device a fault record names, if any (rule R43). -/
def ModelFault.device : ModelFault → Option Name
  | .bdProtocol d _ _ _ => some d
  | .bdLbaRange d _ => some d
  | .engineContract _ => none

/-- A variant's parameters as a configuration record gives them: each may be missing, and numbers may be out of range (rules R10,
R341). -/
inductive RawVariant where
  | rom (base size : Option Nat) (image : Option (List Byte))
  | ram (base size : Option Nat) (image : Option (List Byte))
  | serial (inPort outPort readyPort capacity : Option Nat)
  | timer (countPort controlPort : Option Nat)
  | drive (basePort sectorSize numSectors : Option Nat) (file : Option (List Byte))
deriving DecidableEq, Repr

/-- One device of a configuration record. -/
structure RawDevice where
  name : Option Name
  variant : RawVariant
deriving DecidableEq, Repr

/-- A required parameter below `bound`; missing or out of range is CFG_MISSING_PARAM (rule R341). -/
def requireBelow (device : Option Name) (param : String) (bound : Nat) (v : Option Nat) : Except ConfigError Nat :=
  match v with
  | none => .error (.missingParam device param)
  | some n => if n < bound then .ok n else .error (.missingParam device param)

/-- A required natural number. -/
def requireNat (device : Option Name) (param : String) (v : Option Nat) : Except ConfigError Nat :=
  match v with
  | none => .error (.missingParam device param)
  | some n => .ok n

/-- A required 8-bit port (rule R341). -/
def requirePort (device : Option Name) (param : String) (v : Option Nat) : Except ConfigError Port :=
  (requireBelow device param 0x100 v).map (BitVec.ofNat 8)

/-- A required 16-bit address (rule R341). -/
def requireAddr (device : Option Name) (param : String) (v : Option Nat) : Except ConfigError Addr :=
  (requireBelow device param 0x10000 v).map (BitVec.ofNat 16)

/-- A memory region's descriptor, its parameters checked in the order of rule R10. -/
def readRegion (device : Option Name) (base size : Option Nat) (image : Option (List Byte)) :
    Except ConfigError RegionDesc := do
  let base ← requireAddr device "base" base
  let size ← requireNat device "size" size
  .ok { base := base, size := size, image := image }

/-- A variant's descriptor, its parameters checked in the order of rule R10; a serial port's capacity is 256 unless given. -/
def readVariant (device : Option Name) : RawVariant → Except ConfigError DeviceDesc
  | .rom base size image => (readRegion device base size image).map .rom
  | .ram base size image => (readRegion device base size image).map .ram
  | .serial inPort outPort readyPort capacity => do
    let i ← requirePort device "in_port" inPort
    let o ← requirePort device "out_port" outPort
    let r ← requirePort device "ready_port" readyPort
    .ok (.serial { inPort := i, outPort := o, readyPort := r, capacity := capacity.getD 256 })
  | .timer countPort controlPort => do
    let c ← requirePort device "count_port" countPort
    let k ← requirePort device "control_port" controlPort
    .ok (.timer { countPort := c, controlPort := k })
  | .drive basePort sectorSize numSectors file => do
    let b ← requirePort device "base_port" basePort
    let ss ← requireNat device "sector_size" sectorSize
    let ns ← requireNat device "num_sectors" numSectors
    .ok (.drive { basePort := b, sectorSize := ss, numSectors := ns, file := file })

/-- A device's descriptor: every required parameter is present and well formed (rule R341). -/
def readDevice (d : RawDevice) : Except ConfigError Descriptor :=
  match d.name with
  | none => .error (.missingParam none "name")
  | some name => (readVariant (some name) d.variant).map fun v => { name := name, desc := v }

/-- Every device's descriptor, or the error of the first device that has none. -/
def readDevices : List RawDevice → Except ConfigError (List Descriptor)
  | [] => .ok []
  | d :: ds => do
    let x ← readDevice d
    let xs ← readDevices ds
    .ok (x :: xs)

/-- `size >= 1` and `base + size <= 0x10000` (CFG_REGION_RANGE). -/
def regionRangeBad : DeviceDesc → Bool
  | .rom d => decide (d.size = 0 ∨ 0x10000 < d.base.toNat + d.size)
  | .ram d => decide (d.size = 0 ∨ 0x10000 < d.base.toNat + d.size)
  | _ => false

/-- The image is no longer than its region (CFG_IMAGE_SIZE). -/
def imageSizeBad : DeviceDesc → Bool
  | .rom d => decide (d.size < (d.image.getD []).length)
  | .ram d => decide (d.size < (d.image.getD []).length)
  | _ => false

/-- `sector_size >= 1` and `num_sectors >= 1` (CFG_BD_GEOMETRY). -/
def bdGeometryBad : DeviceDesc → Bool
  | .drive d => decide (d.sectorSize = 0 ∨ d.numSectors = 0)
  | _ => false

/-- A file has exactly `sector_size * num_sectors` bytes (CFG_BD_FILE_SIZE). -/
def bdFileSizeBad : DeviceDesc → Bool
  | .drive d =>
    match d.file with
    | none => false
    | some f => decide (f.length ≠ d.sectorSize * d.numSectors)
  | _ => false

/-- `base_port <= 0xF8` (CFG_BD_PORT_RANGE). -/
def bdPortRangeBad : DeviceDesc → Bool
  | .drive d => decide (0xF8 < d.basePort.toNat)
  | _ => false

/-- `in_port != ready_port` (CFG_SERIAL_PORTS). -/
def serialPortsBad : DeviceDesc → Bool
  | .serial d => decide (d.inPort = d.readyPort)
  | _ => false

/-- `capacity >= 1` (CFG_SERIAL_CAPACITY). -/
def serialCapacityBad : DeviceDesc → Bool
  | .serial d => decide (d.capacity = 0)
  | _ => false

/-- `count_port != control_port` (CFG_TIMER_PORTS). -/
def timerPortsBad : DeviceDesc → Bool
  | .timer d => decide (d.countPort = d.controlPort)
  | _ => false

/-- The error of the first device, in list order, that fails a check. -/
def firstFailing (devs : List Descriptor) (bad : Descriptor → Bool) (err : Name → ConfigError) : Option ConfigError :=
  (devs.find? bad).map fun d => err d.name

/-- Another device of the list has this one's name (CFG_DUPLICATE_NAME). -/
def sharesName (devs : List Descriptor) (d : Descriptor) : Bool :=
  decide (2 ≤ devs.countP fun e => e.name == d.name)

/-- The checks of rule R341 on well-formed descriptors, in the table's order; the first that fails, for the first failing device
in list order, is reported. -/
def configError (devs : List Descriptor) : Option ConfigError :=
  (firstFailing devs (fun d => regionRangeBad d.desc) .regionRange).or
    ((firstFailing devs (fun d => imageSizeBad d.desc) .imageSize).or
      ((firstFailing devs (fun d => bdGeometryBad d.desc) .bdGeometry).or
        ((firstFailing devs (fun d => bdFileSizeBad d.desc) .bdFileSize).or
          ((firstFailing devs (fun d => bdPortRangeBad d.desc) .bdPortRange).or
            ((firstFailing devs (fun d => serialPortsBad d.desc) .serialPorts).or
              ((firstFailing devs (fun d => serialCapacityBad d.desc) .serialCapacity).or
                ((firstFailing devs (fun d => timerPortsBad d.desc) .timerPorts).or
                  (firstFailing devs (sharesName devs) .duplicateName))))))))

/-- Construction (rules R341, R342): refused with the first failing check's error, and then no Instance exists; else the state of
rule R343. -/
def construct (devices : List RawDevice) (params : Params) : Except ConfigError State :=
  match readDevices devices with
  | .error e => .error e
  | .ok devs =>
    match configError devs with
    | some e => .error e
    | none => .ok (State.initial { devices := devs, params := params })

end Sys2Proof.Machine
end

