-- ==== Sys2Proof/Safety.lean ====
section
/-!
DEFINITION. Safety.lean: what a good state is, and the terms claims are stated in: the invariant every step keeps, what an
operation leaves unchanged, and the sequences of operations a claim speaks of.
-/

namespace Sys2Proof.Machine

/-- A byte array of `n` bytes in canonical form. -/
def Memory.Ok (n : Nat) (m : Memory) : Prop :=
  m.wf = true ∧ mapBelow n m = true

/-- A ring buffer of capacity `cap` (rule R36): indices in range, and the count kept under the policies that keep one, where it is
the distance from `rd` to `wr`. -/
def Ring.Ok (pol : SerialOverflow) (cap : Nat) (r : Ring) : Prop :=
  Memory.Ok cap r.buf ∧ r.wr < cap ∧ r.rd < cap ∧
    match pol with
    | .overwriteOldest => r.cnt ≤ cap ∧ r.wr = (r.rd + r.cnt) % cap
    | .dropNewest => r.cnt ≤ cap ∧ r.wr = (r.rd + r.cnt) % cap
    | .indexWrap => r.cnt = 0

/-- The registers of a block drive (rules R40 to R42): DATA_READY while a sector is being transferred, CMD_READY when it is done,
the reset value before the first command. Only a flush that faulted leaves a full write buffer with DATA_READY (rule R315). -/
def BlockDrive.PhaseOk (params : Params) (faulted : Bool) (b : BlockDrive) : Prop :=
  match b.mode with
  | .uninit => b.bufferOffset = 0 ∧ b.status = StatusReset.byte params.statusReset ∧ b.sectorBuffer = []
  | .read =>
    (b.status = dataReady ∧ b.bufferOffset < b.desc.sectorSize) ∨
      (b.status = cmdReady ∧ b.bufferOffset = b.desc.sectorSize)
  | .write =>
    (b.status = dataReady ∧ b.bufferOffset < b.desc.sectorSize) ∨
      (b.status = cmdReady ∧ b.bufferOffset = b.desc.sectorSize) ∨
      (faulted = true ∧ b.status = dataReady ∧ b.bufferOffset = b.desc.sectorSize)

/-- The backing store is there exactly when a file is configured, and has `sector_size * num_sectors` bytes (rule R42). -/
def BlockDrive.StoreOk (b : BlockDrive) : Prop :=
  match b.store with
  | none => b.desc.file = none
  | some m => b.desc.file ≠ none ∧ Memory.Ok (b.desc.sectorSize * b.desc.numSectors) m

/-- A device whose registers hold what its rules allow (rules R33 to R42). -/
def Device.Ok (params : Params) (faulted : Bool) : Device → Prop
  | .rom r => Memory.Ok r.desc.size r.contents
  | .ram r => Memory.Ok r.desc.size r.contents
  | .serial p => Ring.Ok params.overflow p.desc.capacity p.toDevice ∧ Ring.Ok params.overflow p.desc.capacity p.fromDevice
  | .timer _ => True
  | .drive b => b.PhaseOk params faulted ∧ Memory.Ok b.desc.sectorSize b.sectorBuffer ∧ b.StoreOk

/-- A map from 16-bit addresses in canonical form (rule R43). -/
def addrMapOk {α : Type} (m : List (Nat × α)) : Prop :=
  mapRises 0 m = true ∧ mapBelow 0x10000 m = true

/-- The operation in progress and the debug state agree (rules R201, R210, R214, R222, R226, R310). -/
def State.PhaseOk (s : State) : Prop :=
  match s.phase with
  | .idle => s.dbg.inCallback = false
  | .engine call =>
    s.dbg.inCallback = false ∧ s.dbg.runState = .running ∧ s.dbg.fault = none ∧ call.total ≤ s.dbg.cyclesTotal
  | .clock call c =>
    s.dbg.inCallback = false ∧ s.dbg.runState = .running ∧ s.dbg.fault = none ∧ call.total ≤ s.dbg.cyclesTotal ∧
      1 ≤ c ∧ c ≤ call.total
  | .callback call _ cb =>
    s.dbg.inCallback = true ∧ s.dbg.runState = .running ∧ s.dbg.fault = none ∧ call.total ≤ s.dbg.cyclesTotal ∧
      cb.arity = 1

/-- The run state and the rest agree: before the first step nothing has run (rule R200); Halted means the engine reported a halt
and no operation is in progress (rules R213, R229). -/
def State.RunOk (s : State) : Prop :=
  (s.dbg.runState = .undefined → s.phase = .idle ∧ s.dbg.cyclesTotal = 0 ∧ s.eng.nmiCalls = 0 ∧ s.eng.intLevel = none) ∧
    (s.dbg.runState = .halted → s.phase = .idle ∧ s.eng.halted = true)

/-- The invariant of the machine: a configuration that passes construction's checks, registers that hold what their rules allow,
and a debug state, an operation in progress and an engine view that agree. -/
structure State.Inv (s : State) : Prop where
  config : configError s.devices = none
  devices : ∀ d ∈ s.devs, d.device.Ok s.params s.dbg.fault.isSome
  breakpoints : addrMapOk s.dbg.breakpoints
  tracepoints : addrMapOk s.dbg.tracepoints
  arity : ∀ x ∈ s.dbg.tracepoints, x.2.arity = 1
  phase : s.PhaseOk
  run : s.RunOk
  /-- No device requests INT (rules R149, R302). -/
  int : s.eng.intLevel ≠ some true

/-- A run no model fault was recorded in: the premise claims about runs take (rule R310). -/
def State.Unfaulted (s : State) : Prop :=
  s.dbg.fault = none

/-- Address `a` is a breakpoint (rule R43). -/
def State.isBreakpoint (s : State) (a : Nat) : Bool :=
  (mapGet s.dbg.breakpoints a).isSome

/-- The byte a bus read of `a` answers: the model's read of one byte of memory (rule R140). -/
def State.byteAt (s : State) (a : Addr) : Byte :=
  memRead s.devs a

/-- `base <= a < base + size` (rule R73). -/
def Region.covers (r : Region) (a : Addr) : Prop :=
  r.desc.base.toNat ≤ a.toNat ∧ a.toNat < r.desc.base.toNat + r.desc.size

/-- Device `i` is the memory region `r`, covers `a`, and no memory region before it does: it is the claimant of rule R74. -/
def FirstRegion (devs : List Slot) (a : Addr) (i : Nat) (r : Region) : Prop :=
  regionAt devs i = some r ∧ r.covers a ∧ ∀ j, j < i → ∀ q, regionAt devs j = some q → ¬ q.covers a

/-- No memory region covers `a` (rule R74). -/
def Unclaimed (devs : List Slot) (a : Addr) : Prop :=
  ∀ j q, regionAt devs j = some q → ¬ q.covers a

/-- The device is a timer. -/
def isTimer (d : Slot) : Bool :=
  match d.device with
  | .timer _ => true
  | _ => false

/-- What a push does to the bytes waiting in a buffer of capacity `cap`, oldest first (rule R176): at the capacity the oldest is
lost, or the new one, or, where no count is kept, all of them. -/
def queuePush (pol : SerialOverflow) (cap : Nat) (q : List Byte) (v : Byte) : List Byte :=
  match pol with
  | .overwriteOldest => if q.length = cap then (q ++ [v]).drop 1 else q ++ [v]
  | .dropNewest => if q.length = cap then q else q ++ [v]
  | .indexWrap => if q.length + 1 = cap then [] else q ++ [v]

/-- `t` is `s` but for the registers of device `i` and the CPU's return path; every byte of memory reads as before. -/
structure SameOutsideDevice (i : Nat) (s t : State) : Prop where
  others : ∀ j, j ≠ i → t.devs[j]? = s.devs[j]?
  config : t.config = s.config
  memory : ∀ a, t.byteAt a = s.byteAt a
  dbg : t.dbg = s.dbg
  eng : t.eng = s.eng
  phase : t.phase = s.phase
  bus : t.returns.bus = s.returns.bus
  host : t.returns.host = s.returns.host
  hostIn : t.hostIn = s.hostIn
  callbackIn : t.callbackIn = s.callbackIn
  engineIn : t.engineIn = s.engineIn

/-- `t` is `s` but for the debug state, the return paths and the operation in progress: no device, no byte of memory and nothing of
the engine changed. -/
structure SameDevices (s t : State) : Prop where
  devs : t.devs = s.devs
  params : t.params = s.params
  eng : t.eng = s.eng
  cpu : t.returns.cpu = s.returns.cpu
  bus : t.returns.bus = s.returns.bus
  hostIn : t.hostIn = s.hostIn
  callbackIn : t.callbackIn = s.callbackIn
  engineIn : t.engineIn = s.engineIn

/-- `s'` is `s` with one action taken from the queue of the host whose turn it is: between operations, or inside a callback. -/
def TakesHostAct (s s' : State) (a : HostAct) : Prop :=
  (∃ rest, s.phase = .idle ∧ s.hostIn = a :: rest ∧ s' = { s with hostIn := rest }) ∨
    ∃ call pcS cb rest, s.phase = .callback call pcS cb ∧ s.callbackIn = .host a :: rest ∧ s' = { s with callbackIn := rest }

/-- A device record gives every parameter of a descriptor, each in range (rules R10, R341): its name, and its variant's parameters; a
serial port's capacity is 256 unless given. -/
def RawDevice.Gives (x : RawDevice) (d : Descriptor) : Prop :=
  x.name = some d.name ∧
    match d.desc with
    | .rom r => x.variant = .rom (some r.base.toNat) (some r.size) r.image
    | .ram r => x.variant = .ram (some r.base.toNat) (some r.size) r.image
    | .serial p => ∃ capacity, p.capacity = capacity.getD 256 ∧
        x.variant = .serial (some p.inPort.toNat) (some p.outPort.toNat) (some p.readyPort.toNat) capacity
    | .timer t => x.variant = .timer (some t.countPort.toNat) (some t.controlPort.toNat)
    | .drive b => x.variant = .drive (some b.basePort.toNat) (some b.sectorSize) (some b.numSectors) b.file

/-- Bus transactions executed one after the other, as long as each answers a next state; the bytes they answered, in order. -/
def runOps : List Instr → State → Option (List Byte × State)
  | [], s => some ([], s)
  | i :: is, s =>
    match exec i s with
    | .next t =>
      match runOps is t with
      | some (bs, u) => some (t.returns.cpu.toList ++ bs, u)
      | none => none
    | .fault _ => none
    | .refused _ => none

/-- The operations of the CPU port: transactions and what one device does with one (rule R320). -/
def onCpuPort : Instr → Bool
  | .memRd _ => true
  | .memWr _ _ => true
  | .ioRd _ => true
  | .ioWr _ _ => true
  | .clock _ => false
  | .serIn _ => true
  | .serReady _ => true
  | .serOut _ _ => true
  | .tmrCount _ _ => true
  | .tmrControl _ _ => true
  | .bdDataRd _ => true
  | .bdDataWr _ _ => true
  | .bdLba0 _ _ => true
  | .bdLba1 _ _ => true
  | .bdLba2 _ _ => true
  | .bdLba3 _ _ => true
  | .bdStatus _ => true
  | .bdCmdReadSector _ => true
  | .bdCmdWriteSector _ => true
  | .bdCmdOther _ _ => true
  | .continueRun _ => false
  | .stepOne => false
  | .setBreakpoint _ => false
  | .removeBreakpoint _ => false
  | .registerTracepoint _ _ => false
  | .queryHalted => false
  | .queryBreak => false
  | .readMemory _ => false
  | .writeMemory _ _ => false
  | .serialPuts _ _ => false
  | .serialGets _ _ => false
  | .bdReadByte _ _ _ => false

/-- The host operations that are refused once a model fault is recorded: all but the four read-only ones (rule R310). -/
def refusedAfterFault : Instr → Bool
  | .continueRun _ => true
  | .stepOne => true
  | .setBreakpoint _ => true
  | .removeBreakpoint _ => true
  | .registerTracepoint _ _ => true
  | .writeMemory _ _ => true
  | .serialPuts _ _ => true
  | .serialGets _ _ => true
  | .memRd _ => false
  | .memWr _ _ => false
  | .ioRd _ => false
  | .ioWr _ _ => false
  | .clock _ => false
  | .serIn _ => false
  | .serReady _ => false
  | .serOut _ _ => false
  | .tmrCount _ _ => false
  | .tmrControl _ _ => false
  | .bdDataRd _ => false
  | .bdDataWr _ _ => false
  | .bdLba0 _ _ => false
  | .bdLba1 _ _ => false
  | .bdLba2 _ _ => false
  | .bdLba3 _ _ => false
  | .bdStatus _ => false
  | .bdCmdReadSector _ => false
  | .bdCmdWriteSector _ => false
  | .bdCmdOther _ _ => false
  | .queryHalted => false
  | .queryBreak => false
  | .readMemory _ => false
  | .bdReadByte _ _ _ => false

end Sys2Proof.Machine
end

