-- ==== Sys2Proof/Certificates/Slice0/Obligations.lean ====
section
/-!
DEFINITION. Obligations.lean: the statements for the provers, file by file of spec/. A statement about an operation says that it
answers a next state, what that state holds, and what it leaves unchanged.
-/

open Sys2Proof Sys2Proof.Machine

/-! ## 20_memory.md, 40_bus_dispatcher.md: memory transactions -/

/-- MEM_RD answers the byte of the first region that covers the address, 0 when none does, and changes nothing but the return path
(40_bus_dispatcher.md R140; 20_memory.md R73, R74). -/
def Obligations.MemRdAnswersFirstCoveringRegion : Prop :=
  ∀ (s : State) (a : Addr), ∃ t v, exec (.memRd a) s = .next t ∧
    t = { s with returns := { s.returns with cpu := some v } } ∧
    (∀ i r, FirstRegion s.devs a i r → v = r.contents.read (a.toNat - r.desc.base.toNat)) ∧
    (Unclaimed s.devs a → v = 0#8) ∧
    ∀ b, t.byteAt b = s.byteAt b

/-- MEM_WR stores into the first region that covers the address when that is a RAM, and changes nothing when it is a ROM or there
is none; every other byte of memory, shadowed ones among them, stays (40_bus_dispatcher.md R142). -/
def Obligations.MemWrStoresOnlyInFirstCoveringRam : Prop :=
  ∀ (s : State) (a : Addr) (v : Byte), ∃ t, exec (.memWr a v) s = .next t ∧
    (∀ i n r, s.devs[i]? = some { name := n, device := .ram r } → FirstRegion s.devs a i r →
      t = { s with
        devs := s.devs.set i { name := n, device := .ram { r with contents := r.contents.write (a.toNat - r.desc.base.toNat) v } },
        returns := { s.returns with cpu := none } } ∧
      t.byteAt a = v ∧ ∀ b, b ≠ a → t.byteAt b = s.byteAt b) ∧
    (∀ i n r, s.devs[i]? = some { name := n, device := .rom r } → FirstRegion s.devs a i r →
      t = { s with returns := { s.returns with cpu := none } }) ∧
    (Unclaimed s.devs a → t = { s with returns := { s.returns with cpu := none } })

/-- R154: a byte written to an address a RAM claims reads back; a byte a ROM claims reads the same after a write; an unclaimed
address reads 0. -/
def Obligations.MemoryReadAfterWriteLaws : Prop :=
  ∀ (s : State) (a : Addr) (v : Byte),
    (∀ i n r, s.devs[i]? = some { name := n, device := .ram r } → FirstRegion s.devs a i r →
      ∃ t u, exec (.memWr a v) s = .next t ∧ exec (.memRd a) t = .next u ∧ u.returns.cpu = some v) ∧
    (∀ i n r, s.devs[i]? = some { name := n, device := .rom r } → FirstRegion s.devs a i r →
      ∃ t u w, exec (.memRd a) s = .next t ∧ exec (.memWr a v) t = .next u ∧ exec (.memRd a) u = .next w ∧
        w.returns.cpu = t.returns.cpu) ∧
    (Unclaimed s.devs a → ∃ t, exec (.memRd a) s = .next t ∧ t.returns.cpu = some 0#8)

/-- READ_MEMORY of an address in range answers the byte a bus read answers; out of range it is refused with HOST_BAD_VALUE; either
way nothing changes but the host's return path, fault or no fault (40_bus_dispatcher.md R150; 60_exceptions.md R310). -/
def Obligations.ReadMemoryIsTheBusRead : Prop :=
  ∀ (s : State) (addr : Nat),
    (addr ≤ 0xFFFF → ∃ t v, exec (.memRd (BitVec.ofNat 16 addr)) s = .next t ∧ t.returns.cpu = some v ∧
      exec (.readMemory addr) s = .next { s with returns := { s.returns with host := some (.byte v) } }) ∧
    (0xFFFF < addr →
      exec (.readMemory addr) s = .next { s with returns := { s.returns with host := some (.error (.badValue [addr])) } })

/-- WRITE_MEMORY without a recorded fault stores into the first region that covers the address: a RAM always, a ROM only under
HOST_WRITE_ROM = STORE; it ticks nothing and every other byte stays. Arguments out of range are refused (R152, R121). -/
def Obligations.WriteMemoryStoresInFirstCoveringRegion : Prop :=
  ∀ (s : State) (addr value : Nat), s.Unfaulted →
    (addr ≤ 0xFFFF → value ≤ 255 → ∃ t, exec (.writeMemory addr value) s = .next t ∧
      (∀ i n d r, s.devs[i]? = some { name := n, device := d } → FirstRegion s.devs (BitVec.ofNat 16 addr) i r →
        (d = .ram r ∨ s.params.hostWriteRom = .store) →
        t = { s with devs := t.devs, returns := { s.returns with host := some .done } } ∧
        (∀ j, j ≠ i → t.devs[j]? = s.devs[j]?) ∧
        t.byteAt (BitVec.ofNat 16 addr) = BitVec.ofNat 8 value ∧
        ∀ b, b ≠ BitVec.ofNat 16 addr → t.byteAt b = s.byteAt b) ∧
      (∀ i n r, s.devs[i]? = some { name := n, device := .rom r } → FirstRegion s.devs (BitVec.ofNat 16 addr) i r →
        s.params.hostWriteRom = .ignore → t = { s with returns := { s.returns with host := some .done } }) ∧
      (Unclaimed s.devs (BitVec.ofNat 16 addr) → t = { s with returns := { s.returns with host := some .done } })) ∧
    (¬ (addr ≤ 0xFFFF ∧ value ≤ 255) → ∃ args, exec (.writeMemory addr value) s =
      .next { s with returns := { s.returns with host := some (.error (.badValue args)) } })

/-! ## 40_bus_dispatcher.md: I/O transactions -/

/-- IO_RD, when no device's handler faults: every device that recognizes the port performs its read, in place; the answer is the
first value in list order, or 0; a device that does not recognize the port is unchanged and answers nothing (R144). -/
def Obligations.IoRdReachesEveryRecognizingDevice : Prop :=
  ∀ (s : State) (p : Port),
    (∀ d ∈ s.devs, (d.offerRead s.params p).fault = none) →
      (∃ t, exec (.ioRd p) s = .next t ∧
        t = { s with
          devs := s.devs.map fun d => (d.offerRead s.params p).dev,
          returns := { s.returns with
            cpu := some ((s.devs.findSome? fun d => (d.offerRead s.params p).value).getD 0#8) } } ∧
        ∀ b, t.byteAt b = s.byteAt b) ∧
      ∀ d ∈ s.devs, d.device.desc.readReg p = none →
        (d.offerRead s.params p).dev = d ∧ (d.offerRead s.params p).value = none

/-- IO_WR, when no device's handler faults: every device that recognizes the port performs the write, in place; the others are
unchanged (R146). -/
def Obligations.IoWrReachesEveryRecognizingDevice : Prop :=
  ∀ (s : State) (p : Port) (v : Byte),
    (∀ d ∈ s.devs, (d.offerWrite s.params p v).fault = none) →
      (∃ t, exec (.ioWr p v) s = .next t ∧
        t = { s with
          devs := s.devs.map fun d => (d.offerWrite s.params p v).dev,
          returns := { s.returns with cpu := none } } ∧
        ∀ b, t.byteAt b = s.byteAt b) ∧
      ∀ d ∈ s.devs, d.device.desc.writeReg p = none → (d.offerWrite s.params p v).dev = d

/-- R315: the first device in list order whose handler faults ends the transaction: earlier devices keep their effects, later ones
do not act, the fault is recorded (if it is the first) and the host operation aborted. A read handler that faults changes nothing.
A block drive's write handler faults in three cases: out of protocol at the data port, with no change; at the flush after the
last byte is stored, `status` and `store` staying; at a read command beyond the last sector, with no change. -/
def Obligations.FirstFaultingDeviceEndsTheTransaction : Prop :=
  (∀ (s : State) (p : Port) (pre post : List Slot) (d : Slot) (f : ModelFault),
    s.devs = pre ++ d :: post → (∀ x ∈ pre, (x.offerRead s.params p).fault = none) →
    (d.offerRead s.params p).fault = some f →
    exec (.ioRd p) s = .next { s with
      devs := (pre.map fun x => (x.offerRead s.params p).dev) ++ (d.offerRead s.params p).dev :: post,
      dbg := { s.dbg with fault := s.dbg.fault.or (some f) },
      phase := .idle,
      returns := { s.returns with cpu := none, host := some .aborted } }) ∧
  (∀ (s : State) (p : Port) (v : Byte) (pre post : List Slot) (d : Slot) (f : ModelFault),
    s.devs = pre ++ d :: post → (∀ x ∈ pre, (x.offerWrite s.params p v).fault = none) →
    (d.offerWrite s.params p v).fault = some f →
    exec (.ioWr p v) s = .next { s with
      devs := (pre.map fun x => (x.offerWrite s.params p v).dev) ++ (d.offerWrite s.params p v).dev :: post,
      dbg := { s.dbg with fault := s.dbg.fault.or (some f) },
      phase := .idle,
      returns := { s.returns with cpu := none, host := some .aborted } }) ∧
  (∀ (params : Params) (p : Port) (d : Slot) (f : ModelFault),
    (d.offerRead params p).fault = some f → (d.offerRead params p).dev = d) ∧
  (∀ (params : Params) (p : Port) (v : Byte) (n : Name) (b : BlockDrive) (f : ModelFault),
    (Slot.offerWrite params p v { name := n, device := .drive b }).fault = some f →
      if p.toNat = b.desc.basePort.toNat then
        if b.mode = .write ∧ b.bufferOffset < b.desc.sectorSize then
          f = .bdLbaRange n (lbaOf b) ∧ b.store ≠ none ∧ b.desc.numSectors ≤ lbaOf b ∧
            b.bufferOffset + 1 = b.desc.sectorSize ∧
            (Slot.offerWrite params p v { name := n, device := .drive b }).dev =
              { name := n, device := .drive { b with
                  sectorBuffer := b.sectorBuffer.write (b.desc.sectorSize - 1) v, bufferOffset := b.desc.sectorSize } }
        else
          f = .bdProtocol n .write b.mode b.bufferOffset ∧
            (Slot.offerWrite params p v { name := n, device := .drive b }).dev = { name := n, device := .drive b }
      else
        p.toNat = b.desc.basePort.toNat + 7 ∧ v = 0x20#8 ∧ f = .bdLbaRange n (lbaOf b) ∧ b.store ≠ none ∧
          b.desc.numSectors ≤ lbaOf b ∧
          (Slot.offerWrite params p v { name := n, device := .drive b }).dev = { name := n, device := .drive b })

/-- A device that alone recognizes a port is the whole of the transaction there: the row of its register does exactly what IO_RD or
IO_WR does (R110, R144, R146; log 8). -/
def Obligations.SoleDeviceRowIsTheTransaction : Prop :=
  (∀ (s : State) (p : Port) (i : Nat) (r : ReadReg), soleReader s.devices p = some (i, r) →
    exec (readRow i r) s = exec (.ioRd p) s) ∧
  ∀ (s : State) (p : Port) (v : Byte) (i : Nat) (r : WriteReg), soleWriter s.devices p = some (i, r) →
    exec (writeRow i v r) s = exec (.ioWr p v) s

/-- The row of a device's register on an index that is no such device stops by name (the model's choice, log 20). -/
def Obligations.RowOfAnAbsentDeviceStops : Prop :=
  ∀ (s : State) (i : Nat) (v : Byte),
    (serialAt s.devs i = none → ∀ x ∈ [Instr.serIn i, .serReady i, .serOut i v], exec x s = .fault (.noSuchDevice i)) ∧
    (timerAt s.devs i = none → ∀ x ∈ [Instr.tmrCount i v, .tmrControl i v], exec x s = .fault (.noSuchDevice i)) ∧
    (driveAt s.devs i = none →
      ∀ x ∈ [Instr.bdDataRd i, .bdDataWr i v, .bdLba0 i v, .bdLba1 i v, .bdLba2 i v, .bdLba3 i v, .bdStatus i,
        .bdCmdReadSector i, .bdCmdWriteSector i, .bdCmdOther i v], exec x s = .fault (.noSuchDevice i))

/-! ## 40_bus_dispatcher.md, 43_timer.md: the clock batch and the timer -/

/-- A clock batch of `c` cycles takes `c` off every running timer's count, down to 0; its NMI bit is 1 exactly when some running
timer's count was below `c`; its INT bit is 0; nothing else changes (R148, R149, R246). -/
def Obligations.ClockBatchCountsTimersDown : Prop :=
  ∀ (s : State) (c : Nat), ∃ t bs, exec (.clock c) s = .next t ∧
    t = { s with devs := t.devs, returns := { s.returns with bus := some bs } } ∧
    t.devs.length = s.devs.length ∧
    (∀ (i : Nat) (n : Name) (tm : Timer), s.devs[i]? = some { name := n, device := .timer tm } →
      t.devs[i]? = some { name := n, device := .timer { tm with
        count := if tm.running then BitVec.ofNat 8 (tm.count.toNat - c) else tm.count } }) ∧
    (∀ i, timerAt s.devs i = none → t.devs[i]? = s.devs[i]?) ∧
    (bs.getLsbD 0 = true ↔ ∃ i tm, timerAt s.devs i = some tm ∧ tm.running = true ∧ tm.count.toNat + 1 ≤ c) ∧
    bs.getLsbD 1 = false ∧
    ∀ a, t.byteAt a = s.byteAt a

/-- R149: the tick of a device that is no timer changes nothing and requests nothing; no device requests INT, so the INT bit of
every bus state is 0. -/
def Obligations.OnlyTimersTickAndNoneRequestsInt : Prop :=
  (∀ d : Device, (∀ tm, d ≠ .timer tm) → Device.tick d = (d, Requests.none)) ∧
  (∀ d : Device, (Device.tick d).2.int = false) ∧
  ∀ (s t : State) (c : Nat) (bs : BusState), exec (.clock c) s = .next t → t.returns.bus = some bs → bs.getLsbD 1 = false

/-- TMR_COUNT loads the count, running or not; TMR_CONTROL starts the timer on any nonzero byte and stops it on 0; each leaves the
other register and everything else (R240, R241). -/
def Obligations.TimerRegisterWrites : Prop :=
  ∀ (s : State) (dev : Nat) (n : Name) (tm : Timer) (v : Byte), s.devs[dev]? = some { name := n, device := .timer tm } →
    (∃ t, exec (.tmrCount dev v) s = .next t ∧ SameOutsideDevice dev s t ∧ t.returns.cpu = none ∧
      t.devs[dev]? = some { name := n, device := .timer { tm with count := v } }) ∧
    (∃ t, exec (.tmrControl dev v) s = .next t ∧ SameOutsideDevice dev s t ∧ t.returns.cpu = none ∧
      t.devs[dev]? = some { name := n, device := .timer { tm with running := decide (v ≠ 0#8) } })

/-- R248: with `N` written to the count and the timer started, in either order, and no other timer running, a batch of at most `N`
cycles requests no NMI and one of `N + 1` cycles does; tick by tick, the first `N` do not and the next one does. -/
def Obligations.TimerRequestsNmiOnTickNPlusOne : Prop :=
  ∀ (s : State) (dev : Nat) (tm : Timer) (N v : Byte) (order : List Instr), timerAt s.devs dev = some tm → v ≠ 0#8 →
    (∀ i other, i ≠ dev → timerAt s.devs i = some other → other.running = false) →
    (order = [.tmrCount dev N, .tmrControl dev v] ∨ order = [.tmrControl dev v, .tmrCount dev N]) →
    ∃ bytes t, runOps order s = some (bytes, t) ∧
      (∀ c, c ≤ N.toNat → ∃ u bs, exec (.clock c) t = .next u ∧ u.returns.bus = some bs ∧ bs.getLsbD 0 = false) ∧
      (∃ u bs, exec (.clock (N.toNat + 1)) t = .next u ∧ u.returns.bus = some bs ∧ bs.getLsbD 0 = true) ∧
      ∃ u w bs, exec (.clock N.toNat) t = .next u ∧ exec (.clock 1) u = .next w ∧ w.returns.bus = some bs ∧
        bs.getLsbD 0 = true

/-- R242: a timer recognizes no read: an I/O read leaves every timer as it was, and answers what it would answer without the
timers, which is 0 when no device recognizes the port. -/
def Obligations.TimersAnswerNoRead : Prop :=
  ∀ (s : State) (p : Port), ∃ t u, exec (.ioRd p) s = .next t ∧
    exec (.ioRd p) { s with devs := s.devs.filter fun d => !isTimer d } = .next u ∧
    u.returns.cpu = t.returns.cpu ∧
    ((∀ d ∈ s.devs, isTimer d = false → d.device.desc.readReg p = none) → t.returns.cpu = some 0x00#8) ∧
    ∀ i tm, timerAt s.devs i = some tm → timerAt t.devs i = some tm

/-! ## 41_serial_port.md -/

/-- A ring buffer in a state the rules allow is a queue of bytes under every SERIAL_OVERFLOW: a push does to the unread bytes what
that policy says and keeps the ring well formed, a pop takes the oldest (R37, R176, R178). -/
def Obligations.RingIsAByteQueue : Prop :=
  ∀ (pol : SerialOverflow) (cap : Nat) (r : Ring) (v : Byte), r.Ok pol cap →
    (r.push pol cap v).Ok pol cap ∧
    (r.push pol cap v).unread pol cap = queuePush pol cap (r.unread pol cap) v ∧
    (r.empty pol cap = true ↔ r.unread pol cap = []) ∧
    ∀ b rest, r.unread pol cap = b :: rest →
      (r.pop pol cap).1 = b ∧ (r.pop pol cap).2.unread pol cap = rest ∧ (r.pop pol cap).2.Ok pol cap

/-- SER_IN answers the oldest unread byte and removes it, or answers 0 and changes nothing (R170). -/
def Obligations.SerInPopsOldestOrAnswersZero : Prop :=
  ∀ (s : State) (dev : Nat) (n : Name) (p : SerialPort), s.devs[dev]? = some { name := n, device := .serial p } →
    p.toDevice.Ok s.params.overflow p.desc.capacity →
    ∃ t r, exec (.serIn dev) s = .next t ∧ SameOutsideDevice dev s t ∧
      t.devs[dev]? = some { name := n, device := .serial { p with toDevice := r } } ∧
      t.returns.cpu = some ((p.toDevice.unread s.params.overflow p.desc.capacity).headD 0#8) ∧
      r.unread s.params.overflow p.desc.capacity = (p.toDevice.unread s.params.overflow p.desc.capacity).tail ∧
      (p.toDevice.unread s.params.overflow p.desc.capacity = [] → r = p.toDevice)

/-- SER_READY answers 1 when a byte waits for the CPU and 0 when none does, and changes nothing (R172). -/
def Obligations.SerReadyTellsWhetherAByteWaits : Prop :=
  ∀ (s : State) (dev : Nat) (p : SerialPort), serialAt s.devs dev = some p →
    exec (.serReady dev) s = .next { s with returns := { s.returns with
      cpu := some (if p.toDevice.unread s.params.overflow p.desc.capacity = [] then 0x00#8 else 0x01#8) } }

/-- SER_OUT pushes the byte onto `from_device` and leaves `to_device` alone (R174, R176). -/
def Obligations.SerOutPushesTowardsTheHost : Prop :=
  ∀ (s : State) (dev : Nat) (n : Name) (p : SerialPort) (v : Byte), s.devs[dev]? = some { name := n, device := .serial p } →
    p.fromDevice.Ok s.params.overflow p.desc.capacity →
    ∃ t r, exec (.serOut dev v) s = .next t ∧ SameOutsideDevice dev s t ∧ t.returns.cpu = none ∧
      t.devs[dev]? = some { name := n, device := .serial { p with fromDevice := r } } ∧
      r.unread s.params.overflow p.desc.capacity =
        queuePush s.params.overflow p.desc.capacity (p.fromDevice.unread s.params.overflow p.desc.capacity) v

/-- SERIAL_PUTS on a named port pushes its bytes onto `to_device` in order and changes nothing else of the block (R180). -/
def Obligations.SerialPutsPushesInOrder : Prop :=
  ∀ (s : State) (name : Name) (bytes : List Byte) (dev : Nat) (p : SerialPort), s.Unfaulted →
    findSerial s.devs name = some dev → serialAt s.devs dev = some p →
    p.toDevice.Ok s.params.overflow p.desc.capacity →
    ∃ t r, exec (.serialPuts name (bytes.map BitVec.toNat)) s = .next t ∧
      t = { s with devs := t.devs, returns := { s.returns with host := some .done } } ∧
      (∀ j, j ≠ dev → t.devs[j]? = s.devs[j]?) ∧ serialAt t.devs dev = some { p with toDevice := r } ∧
      t.devices = s.devices ∧ (∀ a, t.byteAt a = s.byteAt a) ∧
      r.unread s.params.overflow p.desc.capacity =
        bytes.foldl (queuePush s.params.overflow p.desc.capacity) (p.toDevice.unread s.params.overflow p.desc.capacity)

/-- SERIAL_GETS on a named port answers the oldest bytes of `from_device`, at most `count` of them, and leaves the rest; it changes
nothing else of the block (R182). -/
def Obligations.SerialGetsTakesOldestBytes : Prop :=
  ∀ (s : State) (name : Name) (count : Option Nat) (dev : Nat) (p : SerialPort) (q : List Byte), s.Unfaulted →
    findSerial s.devs name = some dev → serialAt s.devs dev = some p →
    p.fromDevice.Ok s.params.overflow p.desc.capacity → q = p.fromDevice.unread s.params.overflow p.desc.capacity →
    ∃ t r, exec (.serialGets name count) s = .next t ∧
      t = { s with
        devs := t.devs,
        returns := { s.returns with host := some (.bytes (q.take (min (count.getD q.length) q.length))) } } ∧
      (∀ j, j ≠ dev → t.devs[j]? = s.devs[j]?) ∧ serialAt t.devs dev = some { p with fromDevice := r } ∧
      t.devices = s.devices ∧ (∀ a, t.byteAt a = s.byteAt a) ∧
      r.unread s.params.overflow p.desc.capacity = q.drop (min (count.getD q.length) q.length)

/-- R121: puts and gets are refused with HOST_BAD_DEVICE when the name is no serial port's, and puts with HOST_BAD_VALUE when a
byte is above 255; with both wrong, puts is refused with one of the two (log 13). That HOST_BAD_VALUE records every byte above 255,
in order, is the model's choice (log 14). Nothing of the block changes. -/
def Obligations.SerialHostOpsRefuseBadArguments : Prop :=
  ∀ (s : State) (name : Name) (bytes : List Nat) (count : Option Nat), s.Unfaulted →
    (findSerial s.devs name = none →
      exec (.serialGets name count) s =
        .next { s with returns := { s.returns with host := some (.error (.badDevice name)) } } ∧
      ((∀ b ∈ bytes, b ≤ 255) → exec (.serialPuts name bytes) s =
        .next { s with returns := { s.returns with host := some (.error (.badDevice name)) } }) ∧
      ∃ e, exec (.serialPuts name bytes) s = .next { s with returns := { s.returns with host := some (.error e) } } ∧
        (e = .badDevice name ∨ e = .badValue (bytes.filter fun b => decide (255 < b)))) ∧
    (findSerial s.devs name ≠ none → (∃ b ∈ bytes, 255 < b) →
      exec (.serialPuts name bytes) s = .next { s with returns := { s.returns with
        host := some (.error (.badValue (bytes.filter fun b => decide (255 < b)))) } })

/-! ## 44_block_drive.md -/

/-- BD_LBA0 to BD_LBA3 each store the byte in their register and leave the rest; the LBA is the 29-bit little-endian assembly of
the four, the high one masked to 5 bits (R260, R42). -/
def Obligations.LbaRegisterWritesAndAssembly : Prop :=
  (∀ (s : State) (dev : Nat) (n : Name) (b : BlockDrive) (v : Byte), s.devs[dev]? = some { name := n, device := .drive b } →
    ∀ x ∈ [(Instr.bdLba0 dev v, { b with lba0 := v }), (.bdLba1 dev v, { b with lba1 := v }),
      (.bdLba2 dev v, { b with lba2 := v }), (.bdLba3 dev v, { b with lba3 := v })],
      ∃ t, exec x.1 s = .next t ∧ SameOutsideDevice dev s t ∧ t.returns.cpu = none ∧
        t.devs[dev]? = some { name := n, device := .drive x.2 }) ∧
  ∀ b : BlockDrive, lbaOf b =
    b.lba0.toNat + 2 ^ 8 * b.lba1.toNat + 2 ^ 16 * b.lba2.toNat + 2 ^ 24 * (b.lba3.toNat % 2 ^ 5)

/-- BD_STATUS answers the status byte in every mode and phase and changes nothing (R264). BD_CMD_OTHER changes nothing, whatever its
byte (R269). That it does so for 0x20 and 0x30 too, which no well-formed BD_CMD_OTHER has, is the model's choice (log 26). -/
def Obligations.StatusReadAndOtherCommandChangeNothing : Prop :=
  ∀ (s : State) (dev : Nat) (b : BlockDrive) (v : Byte), driveAt s.devs dev = some b →
    exec (.bdStatus dev) s = .next { s with returns := { s.returns with cpu := some b.status } } ∧
    exec (.bdCmdOther dev v) s = .next { s with returns := { s.returns with cpu := none } }

/-- R269: an I/O write to `base+7` of a byte that is neither command changes nothing in the drive, whatever else listens on the
port, and the drive raises no fault. -/
def Obligations.OtherCommandByteLeavesTheDrive : Prop :=
  ∀ (s : State) (p : Port) (v : Byte) (i : Nat) (n : Name) (b : BlockDrive),
    s.devs[i]? = some { name := n, device := .drive b } → p.toNat = b.desc.basePort.toNat + 7 →
    v ≠ 0x20#8 → v ≠ 0x30#8 →
    (Slot.offerWrite s.params p v { name := n, device := .drive b }).fault = none ∧
    ∃ t, exec (.ioWr p v) s = .next t ∧ t.devs[i]? = some { name := n, device := .drive b }

/-- BD_CMD READ_SECTOR, in every mode: without a file the buffer reads zeros, with one it holds the addressed sector; offset 0,
mode READ, status DATA_READY. With a file and an LBA beyond the last sector the fault is recorded and no register of the drive
changes (R266, R278). -/
def Obligations.ReadCommandLoadsTheSector : Prop :=
  ∀ (s : State) (dev : Nat) (n : Name) (b : BlockDrive), s.devs[dev]? = some { name := n, device := .drive b } →
    ((b.store = none ∨ lbaOf b < b.desc.numSectors) →
      ∃ t buf, exec (.bdCmdReadSector dev) s = .next t ∧ SameOutsideDevice dev s t ∧ t.returns.cpu = none ∧
        t.devs[dev]? = some { name := n, device := .drive { b with
          sectorBuffer := buf, bufferOffset := 0, mode := .read, status := 0x08#8 } } ∧
        ∀ o, o < b.desc.sectorSize → buf.read o = match b.store with
          | none => 0#8
          | some m => m.read (lbaOf b * b.desc.sectorSize + o)) ∧
    (b.store ≠ none → b.desc.numSectors ≤ lbaOf b →
      exec (.bdCmdReadSector dev) s = .next { s with
        dbg := { s.dbg with fault := s.dbg.fault.or (some (.bdLbaRange n (lbaOf b))) },
        phase := .idle,
        returns := { s.returns with cpu := none, host := some .aborted } })

/-- BD_CMD WRITE_SECTOR, in every mode and whatever the LBA: the buffer reads zeros, offset 0, mode WRITE, status DATA_READY; the
store stays (R268). -/
def Obligations.WriteCommandClearsTheBuffer : Prop :=
  ∀ (s : State) (dev : Nat) (n : Name) (b : BlockDrive), s.devs[dev]? = some { name := n, device := .drive b } →
    ∃ t buf, exec (.bdCmdWriteSector dev) s = .next t ∧ SameOutsideDevice dev s t ∧ t.returns.cpu = none ∧
      t.devs[dev]? = some { name := n, device := .drive { b with
        sectorBuffer := buf, bufferOffset := 0, mode := .write, status := 0x08#8 } } ∧
      ∀ o, buf.read o = 0#8

/-- BD_DATA_RD: in its phase it answers the next byte of the sector and advances, and the last byte makes the status CMD_READY and
leaves the mode READ; outside its phase the protocol fault is recorded and no register changes (R270, R276). -/
def Obligations.DataReadReturnsTheNextByte : Prop :=
  ∀ (s : State) (dev : Nat) (n : Name) (b : BlockDrive), s.devs[dev]? = some { name := n, device := .drive b } →
    (b.mode = .read ∧ b.bufferOffset < b.desc.sectorSize →
      ∃ t, exec (.bdDataRd dev) s = .next t ∧ SameOutsideDevice dev s t ∧
        t.returns.cpu = some (b.sectorBuffer.read b.bufferOffset) ∧
        t.devs[dev]? = some { name := n, device := .drive { b with
          bufferOffset := b.bufferOffset + 1,
          status := if b.bufferOffset + 1 = b.desc.sectorSize then 0x40#8 else b.status } }) ∧
    (¬ (b.mode = .read ∧ b.bufferOffset < b.desc.sectorSize) →
      exec (.bdDataRd dev) s = .next { s with
        dbg := { s.dbg with fault := s.dbg.fault.or (some (.bdProtocol n .read b.mode b.bufferOffset)) },
        phase := .idle,
        returns := { s.returns with cpu := none, host := some .aborted } })

/-- BD_DATA_WR: in its phase it stores the next byte; the last byte flushes the whole buffer to the sector the LBA registers name
then, leaves every other byte of the store, and makes the status CMD_READY, the mode staying WRITE; without a file the flush is
discarded (R272, R274, R278). -/
def Obligations.DataWriteStoresAndFlushes : Prop :=
  ∀ (s : State) (dev : Nat) (n : Name) (b : BlockDrive) (v : Byte), s.devs[dev]? = some { name := n, device := .drive b } →
    b.mode = .write → b.bufferOffset < b.desc.sectorSize →
    (b.bufferOffset + 1 < b.desc.sectorSize →
      ∃ t, exec (.bdDataWr dev v) s = .next t ∧ SameOutsideDevice dev s t ∧ t.returns.cpu = none ∧
        t.devs[dev]? = some { name := n, device := .drive { b with
          sectorBuffer := b.sectorBuffer.write b.bufferOffset v, bufferOffset := b.bufferOffset + 1 } }) ∧
    (b.bufferOffset + 1 = b.desc.sectorSize → (b.store = none ∨ lbaOf b < b.desc.numSectors) →
      ∃ t st, exec (.bdDataWr dev v) s = .next t ∧ SameOutsideDevice dev s t ∧ t.returns.cpu = none ∧
        t.devs[dev]? = some { name := n, device := .drive { b with
          sectorBuffer := b.sectorBuffer.write b.bufferOffset v, bufferOffset := b.desc.sectorSize,
          status := 0x40#8, store := st } } ∧
        match b.store with
        | none => st = none
        | some m => ∃ m', st = some m' ∧
          (∀ o, o < b.desc.sectorSize →
            m'.read (lbaOf b * b.desc.sectorSize + o) = (b.sectorBuffer.write b.bufferOffset v).read o) ∧
          ∀ k, ¬ (lbaOf b * b.desc.sectorSize ≤ k ∧ k < lbaOf b * b.desc.sectorSize + b.desc.sectorSize) →
            m'.read k = m.read k)

/-- BD_DATA_WR outside its phase records the protocol fault and changes no register of the drive; the last byte with a file and an
LBA beyond the last sector is stored, then the range fault is recorded, status and store staying (R272, R276, R278). -/
def Obligations.DataWriteFaults : Prop :=
  ∀ (s : State) (dev : Nat) (n : Name) (b : BlockDrive) (v : Byte), s.devs[dev]? = some { name := n, device := .drive b } →
    (¬ (b.mode = .write ∧ b.bufferOffset < b.desc.sectorSize) →
      exec (.bdDataWr dev v) s = .next { s with
        dbg := { s.dbg with fault := s.dbg.fault.or (some (.bdProtocol n .write b.mode b.bufferOffset)) },
        phase := .idle,
        returns := { s.returns with cpu := none, host := some .aborted } }) ∧
    (b.mode = .write → b.bufferOffset + 1 = b.desc.sectorSize → b.store ≠ none → b.desc.numSectors ≤ lbaOf b →
      exec (.bdDataWr dev v) s = .next { s with
        devs := s.devs.set dev { name := n, device := .drive { b with
          sectorBuffer := b.sectorBuffer.write b.bufferOffset v, bufferOffset := b.bufferOffset + 1 } },
        dbg := { s.dbg with fault := s.dbg.fault.or (some (.bdLbaRange n (lbaOf b))) },
        phase := .idle,
        returns := { s.returns with cpu := none, host := some .aborted } })

/-- R282: with a file, a sector written byte by byte and read back gives the bytes written, and BD_READ_BYTE answers them too; without
a file, the bytes read back are all 0. The sequence is without other operations in between. -/
def Obligations.BlockDriveRoundTrip : Prop :=
  ∀ (s : State) (dev : Nat) (b : BlockDrive) (l0 l1 l2 l3 : Byte) (x : List Byte),
    driveAt s.devs dev = some b → 0 < b.desc.sectorSize → x.length = b.desc.sectorSize →
    let ops := [.bdLba0 dev l0, .bdLba1 dev l1, .bdLba2 dev l2, .bdLba3 dev l3, .bdCmdWriteSector dev] ++
      x.map (Instr.bdDataWr dev) ++ [.bdCmdReadSector dev] ++ List.replicate b.desc.sectorSize (.bdDataRd dev)
    (b.store = none → ∃ t, runOps ops s = some (List.replicate b.desc.sectorSize 0x00#8, t)) ∧
    ∀ name : Name, findDrive s.devs name = some dev → b.store ≠ none →
      lbaOf { b with lba0 := l0, lba1 := l1, lba2 := l2, lba3 := l3 } < b.desc.numSectors →
      ∃ t, runOps ops s = some (x, t) ∧
        ∀ o, (h : o < x.length) →
          exec (.bdReadByte name (lbaOf { b with lba0 := l0, lba1 := l1, lba2 := l2, lba3 := l3 }) o) t =
            .next { t with returns := { t.returns with host := some (.byte x[o]) } }

/-- BD_READ_BYTE answers the store's byte, 0 without a file; a sector or offset out of range is refused with HOST_RANGE and an
unknown name with HOST_BAD_DEVICE; nothing of the block changes, fault or no fault (R280, R310). -/
def Obligations.BdReadByteReadsTheStore : Prop :=
  ∀ (s : State) (name : Name) (sector offset : Nat),
    (∀ dev b, findDrive s.devs name = some dev → driveAt s.devs dev = some b →
      exec (.bdReadByte name sector offset) s = .next { s with returns := { s.returns with
        host := some (
          if sector < b.desc.numSectors ∧ offset < b.desc.sectorSize then
            .byte (match b.store with
              | none => 0#8
              | some m => m.read (sector * b.desc.sectorSize + offset))
          else .error (.range sector offset)) } }) ∧
    (findDrive s.devs name = none →
      exec (.bdReadByte name sector offset) s =
        .next { s with returns := { s.returns with host := some (.error (.badDevice name)) } })

/-- The host's change of a store byte, between operations or inside a tracepoint callback, is read by the next BD_READ_BYTE and
changes no other byte of the store, no register and no sector buffer already loaded (R222, R358). -/
def Obligations.HostStoreChangeIsSeenByTheNextRead : Prop :=
  ∀ (s s' : State) (name : Name) (index : Nat) (v : Byte) (dev : Nat) (b : BlockDrive) (m : Memory),
    TakesHostAct s s' (.setStore name index v) →
    findDrive s.devs name = some dev → driveAt s.devs dev = some b → b.store = some m →
    index < b.desc.sectorSize * b.desc.numSectors →
    ∃ t m', step s = .next t ∧ t = { s' with devs := t.devs } ∧
      (∀ j, j ≠ dev → t.devs[j]? = s.devs[j]?) ∧ driveAt t.devs dev = some { b with store := some m' } ∧
      m'.read index = v ∧ (∀ k, k ≠ index → m'.read k = m.read k) ∧ (∀ a, t.byteAt a = s.byteAt a) ∧
      exec (.bdReadByte name (index / b.desc.sectorSize) (index % b.desc.sectorSize)) t =
        .next { t with returns := { t.returns with host := some (.byte v) } }

/-! ## 42_debug_controller.md -/

/-- CONTINUE and STEP, without a fault: inside a callback they are refused with HOST_REENTRANT and change nothing; outside one, in
Halted they return 0 and run nothing, and from every other run state the state is Running and the engine steps next, with the
budget given, or 1 for STEP (R201, R210, R216, R222, R229). -/
def Obligations.ContinueAndStepBegin : Prop :=
  ∀ (s : State) (max : Option Nat), s.Unfaulted →
    ∀ x ∈ [(Instr.continueRun max, max), (.stepOne, some 1)],
      (s.dbg.inCallback = false → s.dbg.runState ≠ .halted → exec x.1 s = .next { s with
        dbg := { s.dbg with runState := .running },
        phase := .engine { budget := x.2, total := 0 },
        returns := { s.returns with host := none } }) ∧
      (s.dbg.inCallback = false → s.dbg.runState = .halted → exec x.1 s =
        .next { s with returns := { s.returns with host := some (.cycles 0) } }) ∧
      (s.dbg.inCallback = true → exec x.1 s =
        .next { s with returns := { s.returns with host := some (.error .reentrant) } })

/-- The end of `Engine.step()`: a count of at least 1 is added to the call's total and to `cycles_total` and its clock batch is
due; a count of 0 records the contract fault and aborts the call (R210, R226). -/
def Obligations.EngineReturnCountsCyclesOrFaults : Prop :=
  ∀ (s : State) (call : Call) (c : Nat) (pc : Addr) (h : Bool) (rest : List EngineEvent),
    s.phase = .engine call → s.engineIn = .ret c pc h :: rest →
    (1 ≤ c → step s = .next { s with
      engineIn := rest,
      eng := { s.eng with pc := pc, halted := h },
      dbg := { s.dbg with cyclesTotal := s.dbg.cyclesTotal + c },
      phase := .clock { budget := call.budget, total := call.total + c } c }) ∧
    (c = 0 → step s = .next { s with
      engineIn := rest,
      eng := { s.eng with pc := pc, halted := h },
      dbg := { s.dbg with fault := s.dbg.fault.or (some (.engineContract 0)) },
      phase := .idle,
      returns := { s.returns with cpu := none, host := some .aborted } })

/-- The rest of an iteration: the clock batch ticks the devices, its bus state drives the engine (NMI call when bit 0 is 1, INT
level from bit 1), the PC is sampled once; without a tracepoint there, halt comes before breakpoint, breakpoint before budget, and
if none stops the call the engine steps again (R210 to R213, R215, R217, R302, R305). -/
def Obligations.IterationDrivesThenStopsInOrder : Prop :=
  ∀ (s : State) (call : Call) (c : Nat), s.phase = .clock call c → mapGet s.dbg.tracepoints s.eng.pc.toNat = none →
    ∃ u t bs, exec (.clock c) s = .next u ∧ u.returns.bus = some bs ∧ step s = .next t ∧
      t.devs = u.devs ∧ t.params = s.params ∧
      t.eng = { s.eng with
        nmiCalls := s.eng.nmiCalls + (if bs.getLsbD 0 then 1 else 0), intLevel := some (bs.getLsbD 1) } ∧
      t.hostIn = s.hostIn ∧ t.callbackIn = s.callbackIn ∧ t.engineIn = s.engineIn ∧ t.returns.cpu = s.returns.cpu ∧
      (∀ a, t.byteAt a = s.byteAt a) ∧
      (if s.eng.halted = true then
        t.dbg = { s.dbg with runState := .halted } ∧ t.phase = .idle ∧ t.returns.host = some (.cycles call.total)
      else if s.isBreakpoint s.eng.pc.toNat = true then
        t.dbg = { s.dbg with runState := .breakHit } ∧ t.phase = .idle ∧ t.returns.host = some (.cycles call.total)
      else if ∃ max, call.budget = some max ∧ max ≤ call.total then
        t.dbg = { s.dbg with runState := .running } ∧ t.phase = .idle ∧ t.returns.host = some (.cycles call.total)
      else t.dbg = s.dbg ∧ t.phase = .engine call ∧ t.returns.host = s.returns.host)

/-- A tracepoint at the sampled PC fires after the clock batch and the interrupt drive, halted or not, breakpoint or not, and the
callback then has the turn; its return runs the stop checks with the PC sampled before it and the breakpoints as they then are
(R211, R212, R214, R218, R302). -/
def Obligations.TracepointFiresBeforeTheStopChecks : Prop :=
  (∀ (s : State) (call : Call) (c : Nat) (cb : Callback), s.phase = .clock call c →
    mapGet s.dbg.tracepoints s.eng.pc.toNat = some cb →
    ∃ u t bs, exec (.clock c) s = .next u ∧ u.returns.bus = some bs ∧ step s = .next t ∧
      t.devs = u.devs ∧ t.params = s.params ∧
      t.eng = { s.eng with
        nmiCalls := s.eng.nmiCalls + (if bs.getLsbD 0 then 1 else 0), intLevel := some (bs.getLsbD 1) } ∧
      t.hostIn = s.hostIn ∧ t.callbackIn = s.callbackIn ∧ t.engineIn = s.engineIn ∧
      t.returns.cpu = s.returns.cpu ∧ t.returns.host = s.returns.host ∧ (∀ a, t.byteAt a = s.byteAt a) ∧
      t.dbg = { s.dbg with inCallback := true } ∧ t.phase = .callback call s.eng.pc cb) ∧
  (∀ (s : State) (call : Call) (pcS : Addr) (cb : Callback) (rest : List CallbackAct), s.phase = .callback call pcS cb →
    s.callbackIn = .ret :: rest →
    ∃ t, step s = .next t ∧ t.devs = s.devs ∧ t.params = s.params ∧ t.eng = s.eng ∧
      t.hostIn = s.hostIn ∧ t.callbackIn = rest ∧ t.engineIn = s.engineIn ∧
      t.returns.cpu = s.returns.cpu ∧ t.returns.bus = s.returns.bus ∧ (∀ a, t.byteAt a = s.byteAt a) ∧
      (if s.eng.halted = true then
        t.dbg = { s.dbg with inCallback := false, runState := .halted } ∧ t.phase = .idle ∧
          t.returns.host = some (.cycles call.total)
      else if s.isBreakpoint pcS.toNat = true then
        t.dbg = { s.dbg with inCallback := false, runState := .breakHit } ∧ t.phase = .idle ∧
          t.returns.host = some (.cycles call.total)
      else if ∃ max, call.budget = some max ∧ max ≤ call.total then
        t.dbg = { s.dbg with inCallback := false, runState := .running } ∧ t.phase = .idle ∧
          t.returns.host = some (.cycles call.total)
      else t.dbg = { s.dbg with inCallback := false } ∧ t.phase = .engine call ∧ t.returns.host = s.returns.host))

/-- SET_BREAKPOINT adds the address to the set, REMOVE_BREAKPOINT takes it out; no other address's membership changes, nothing else
does, the run state included; an address out of range is refused (R218, R219). -/
def Obligations.BreakpointSetOperations : Prop :=
  ∀ (s : State) (addr : Nat), s.Unfaulted →
    (addr ≤ 0xFFFF →
      (∃ t, exec (.setBreakpoint addr) s = .next t ∧ SameDevices s t ∧ t.returns.host = some .done ∧ t.phase = s.phase ∧
        t.dbg = { s.dbg with breakpoints := t.dbg.breakpoints } ∧
        ∀ a, t.isBreakpoint a = (s.isBreakpoint a || decide (a = addr))) ∧
      (∃ t, exec (.removeBreakpoint addr) s = .next t ∧ SameDevices s t ∧ t.returns.host = some .done ∧ t.phase = s.phase ∧
        t.dbg = { s.dbg with breakpoints := t.dbg.breakpoints } ∧
        ∀ a, t.isBreakpoint a = (s.isBreakpoint a && decide (a ≠ addr)))) ∧
    (0xFFFF < addr → ∀ x ∈ [Instr.setBreakpoint addr, .removeBreakpoint addr],
      exec x s = .next { s with returns := { s.returns with host := some (.error (.badValue [addr])) } })

/-- REGISTER_TRACEPOINT of a one-parameter callback puts it at its address, replacing any earlier one and leaving every other
address's; any other arity is refused with TRACEPOINT_ARITY, an address out of range with HOST_BAD_VALUE (R220). That the second
error is the one reported when both apply is the model's reading (log 13). -/
def Obligations.RegisterTracepointChecksArity : Prop :=
  ∀ (s : State) (addr : Nat) (cb : Callback), s.Unfaulted →
    (addr ≤ 0xFFFF → cb.arity = 1 →
      ∃ t, exec (.registerTracepoint addr cb) s = .next t ∧ SameDevices s t ∧ t.returns.host = some .done ∧
        t.phase = s.phase ∧ t.dbg = { s.dbg with tracepoints := t.dbg.tracepoints } ∧
        ∀ a, mapGet t.dbg.tracepoints a = if a = addr then some cb else mapGet s.dbg.tracepoints a) ∧
    (addr ≤ 0xFFFF → cb.arity ≠ 1 → exec (.registerTracepoint addr cb) s =
      .next { s with returns := { s.returns with host := some (.error (.tracepointArity addr)) } }) ∧
    (0xFFFF < addr → exec (.registerTracepoint addr cb) s =
      .next { s with returns := { s.returns with host := some (.error (.badValue [addr])) } })

/-- Host operations 0x06 and 0x07 tell whether the run state is Halted, and whether it is Break, and change no state,
fault or no fault (R224; R225). -/
def Obligations.QueriesTellTheRunState : Prop :=
  (∀ r : HostRecord, r.code = 0x06#8 → decodeHost r = .ok .queryHalted) ∧
  (∀ r : HostRecord, r.code = 0x07#8 → decodeHost r = .ok .queryBreak) ∧
  ∀ s : State,
    exec .queryHalted s =
      .next { s with returns := { s.returns with host := some (.bool (decide (s.dbg.runState = .halted))) } } ∧
    exec .queryBreak s =
      .next { s with returns := { s.returns with host := some (.bool (decide (s.dbg.runState = .breakHit))) } }

/-! ## 60_exceptions.md, 00_scope.md, 10_state.md: rules about the whole machine -/

/-- After a model fault every host operation but the four read-only ones is refused with HOST_FAULTED and changes nothing (R310). -/
def Obligations.FaultedMachineRefusesHostOperations : Prop :=
  ∀ (s : State) (i : Instr), s.dbg.fault ≠ none → refusedAfterFault i = true →
    exec i s = .next { s with returns := { s.returns with host := some (.error .faulted) } }

/-- Nothing clears or replaces a recorded fault (R43, R310). -/
def Obligations.RecordedFaultIsKept : Prop :=
  ∀ (s t : State) (f : ModelFault), step s = .next t → s.dbg.fault = some f → t.dbg.fault = some f

/-- R229: from a state of the invariant that is Halted, every step stays Halted, ticks no device's timer and drives no interrupt. -/
def Obligations.HaltedIsFinal : Prop :=
  ∀ s t : State, s.Inv → s.dbg.runState = .halted → step s = .next t →
    t.dbg.runState = .halted ∧ t.eng.nmiCalls = s.eng.nmiCalls ∧ t.eng.intLevel = s.eng.intLevel ∧
      t.dbg.cyclesTotal = s.dbg.cyclesTotal ∧ ∀ i, timerAt t.devs i = timerAt s.devs i

/-- R201: from a state of the invariant, the run state changes only as the table says: to Running when CONTINUE or STEP begins in
Undefined or Break; from Running to Halted when the engine has halted; from Running to Break when it has not and the sampled PC is
a breakpoint. -/
def Obligations.RunStateChangesOnlyByTheTable : Prop :=
  ∀ s t : State, s.Inv → step s = .next t → t.dbg.runState ≠ s.dbg.runState →
    (s.phase = .idle ∧ (s.dbg.runState = .undefined ∨ s.dbg.runState = .breakHit) ∧ t.dbg.runState = .running ∧
      ∃ r rest, s.hostIn = .op r :: rest ∧ (decodeHost r = .ok (.continueRun r.max) ∨ decodeHost r = .ok .stepOne)) ∨
    (s.dbg.runState = .running ∧ t.dbg.runState = .halted ∧ t.eng.halted = true) ∨
    (s.dbg.runState = .running ∧ t.dbg.runState = .breakHit ∧ t.eng.halted = false ∧
      ∃ pcS : Addr, t.isBreakpoint pcS.toNat = true ∧
        (pcS = s.eng.pc ∨ ∃ call cb, s.phase = .callback call pcS cb))

/-- R320: no operation of the CPU port changes a breakpoint, a tracepoint, the run state, `cycles_total`, the engine or the host's
side, and what it answers and does to the devices does not depend on them: two states with the same devices and parameters get
the same answer and the same devices. -/
def Obligations.CpuPortIsIsolatedFromDebugState : Prop :=
  ∀ (i : Instr) (s t : State), onCpuPort i = true → exec i s = .next t →
    (t.dbg = { s.dbg with fault := t.dbg.fault } ∧ t.eng = s.eng ∧ t.hostIn = s.hostIn ∧ t.callbackIn = s.callbackIn ∧
      t.engineIn = s.engineIn) ∧
    ∀ s' : State, s'.devs = s.devs → s'.params = s.params →
      ∃ t', exec i s' = .next t' ∧ t'.devs = t.devs ∧ t'.returns.cpu = t.returns.cpu

/-- R33: a ROM's bytes are the image's, then zeros, at construction; no operation of the CPU port changes a ROM, and WRITE_MEMORY
changes one only under HOST_WRITE_ROM = STORE. -/
def Obligations.RomContentsAreFixedForTheBus : Prop :=
  (∀ (d : RegionDesc) (k : Nat), (Region.reset d).contents.read k = (d.image.getD []).getD k 0#8) ∧
  ∀ (i : Instr) (s t : State), exec i s = .next t →
    (onCpuPort i = true ∨ (∃ a v, i = .writeMemory a v ∧ s.params.hostWriteRom = .ignore)) →
    ∀ (j : Nat) (n : Name) (r : Region), s.devs[j]? = some { name := n, device := .rom r } →
      t.devs[j]? = some { name := n, device := .rom r }

/-- The configuration never changes after construction: no step changes the device list's order, names, variants, ports or
geometry, or a parameter (10_state.md R30; 00_scope.md R10). -/
def Obligations.ConfigurationNeverChanges : Prop :=
  ∀ s t : State, step s = .next t → t.config = s.config

/-- No step ends in a fault: what is decoded always names a device that has the register (log 20). A step ends in a refusal only
for a transaction word or a host code that is no operation (30_encoding.md R101; log 22). -/
def Obligations.StepStopsOnlyOnWhatIsNoOperation : Prop :=
  ∀ s : State,
    (∃ t, step s = .next t) ∨
    (∃ w, step s = .refused (.ioWordHighBits w) ∧ txnHigh w ≠ 0#8 ∧ txnKind w ≠ 0#2 ∧ txnKind w ≠ 1#2) ∨
    ∃ code, step s = .refused (.unknownHostCode code) ∧ (code = 0#8 ∨ 0x0C < code.toNat)

/-- Every step keeps the invariant. -/
def Obligations.EveryStepKeepsTheInvariant : Prop :=
  ∀ s t : State, s.Inv → step s = .next t → t.Inv

/-- The state after reset meets the invariant. -/
def Obligations.ResetMeetsTheInvariant : Prop :=
  State.reset.Inv

/-- Every Instance that construction builds, from any configuration record, meets the invariant (R341, R342). -/
def Obligations.ConstructionMeetsTheInvariant : Prop :=
  ∀ (devices : List RawDevice) (params : Params) (s : State), construct devices params = .ok s → s.Inv

/-! ## 70_reset_and_hazards.md -/

/-- Construction builds an Instance exactly from the records in which every parameter is present and in range and whose
descriptors pass the checks of R341, and what it builds is the reset state of that configuration. -/
def Obligations.ConstructionChecksTheConfiguration : Prop :=
  ∀ (devices : List RawDevice) (params : Params) (s : State), construct devices params = .ok s ↔
    ∃ devs : List Descriptor, List.Forall₂ RawDevice.Gives devices devs ∧
      (∀ d ∈ devs, match d.desc with
        | .rom r => 1 ≤ r.size ∧ r.base.toNat + r.size ≤ 0x10000 ∧ (r.image.getD []).length ≤ r.size
        | .ram r => 1 ≤ r.size ∧ r.base.toNat + r.size ≤ 0x10000 ∧ (r.image.getD []).length ≤ r.size
        | .serial p => p.inPort ≠ p.readyPort ∧ 1 ≤ p.capacity
        | .timer t => t.countPort ≠ t.controlPort
        | .drive b => 1 ≤ b.sectorSize ∧ 1 ≤ b.numSectors ∧ b.basePort.toNat ≤ 0xF8 ∧
            ∀ f, b.file = some f → f.length = b.sectorSize * b.numSectors) ∧
      (devs.map Descriptor.name).Nodup ∧
      s = State.initial { devices := devs, params := params }

/-- R343: what construction builds from a configuration that passed: every register at the value the spec gives, the debug state
empty and Undefined, no bus state, the engine's program counter at ENGINE_RESET_PC, whose default is 0x0000; and no clock batch
there requests an interrupt. -/
def Obligations.ResetValuesAreTheSpecs : Prop :=
  Config.defaultParams.engineResetPc = 0x0000#16 ∧ ∀ c : Config,
    (State.initial c).config = c ∧
    (State.initial c).dbg = Debug.mk .undefined [] [] 0 false none ∧
    (State.initial c).eng.pc = c.params.engineResetPc ∧
    (State.initial c).returns.bus = none ∧
    (∀ n, ∃ t, exec (.clock n) (State.initial c) = .next t ∧ t.returns.bus = some 0b00#2) ∧
    ∀ d ∈ (State.initial c).devs, match d.device with
      | .rom r => ∀ k, r.contents.read k = (r.desc.image.getD []).getD k 0#8
      | .ram r => ∀ k, r.contents.read k = (r.desc.image.getD []).getD k 0#8
      | .serial p => ∀ q ∈ [p.toDevice, p.fromDevice], q.wr = 0 ∧ q.rd = 0 ∧ q.cnt = 0 ∧ ∀ k, q.buf.read k = 0#8
      | .timer t => t.count = 0#8 ∧ t.running = false
      | .drive b => b.lba0 = 0#8 ∧ b.lba1 = 0#8 ∧ b.lba2 = 0#8 ∧ b.lba3 = 0#8 ∧ b.mode = .uninit ∧
          b.status = (match c.params.statusReset with | .clear => 0x00#8 | .ready => 0x40#8) ∧
          b.bufferOffset = 0 ∧ (∀ k, b.sectorBuffer.read k = 0#8) ∧
          match b.desc.file, b.store with
            | none, st => st = none
            | some f, st => ∃ m, st = some m ∧ ∀ k, m.read k = f.getD k 0#8

/-! ## 30_encoding.md: decoding and the step -/

/-- Decode and encode agree: under every device list, every well-formed operation's encoding decodes to it (R100, R107, R110,
R120). -/
def Obligations.DecodeOfEncodeIsTheOperation : Prop :=
  ∀ (devs : List Descriptor) (i : Instr), i.wellFormed devs = true → decode devs (encode devs i) = .ok i

/-- Every transaction word the decoder accepts is the encoding of the well-formed operation it decodes to, but for the data field
of a read, which it ignores (R100, R101; log 9). -/
def Obligations.AcceptedTransactionWordIsAnEncoding : Prop :=
  ∀ (devs : List Descriptor) (w : TxnWord) (i : Instr), decode devs (.txn w) = .ok i →
    i.wellFormed devs = true ∧
    ∃ w', encode devs i = .txn w' ∧ txnKind w' = txnKind w ∧ txnAddr w' = txnAddr w ∧
      (txnKind w = 1#2 ∨ txnKind w = 3#2 → txnData w' = txnData w)

/-- R101: the decoder refuses exactly the I/O words whose bits 23:16 are not 0; every other word has a meaning: presented to the
block, it answers a next state. -/
def Obligations.DecoderRefusesExactlyIoWordsWithHighBits : Prop :=
  ∀ (s : State) (w : TxnWord),
    ((∃ e, decode s.devices (.txn w) = .error e) ↔ (w.getLsbD 25 = true ∧ w.extractLsb' 16 8 ≠ 0#8)) ∧
    (¬ (w.getLsbD 25 = true ∧ w.extractLsb' 16 8 ≠ 0#8) → ∃ t, issue (.txn w) s = .next t)

/-- Which port every device recognizes, reads and writes apart (R110); and which register answers there, where the ports of one
device's registers differ, as construction requires (R104 to R106, R341); and the row each register's operation is. -/
def Obligations.DevicesRecognizeTheirPorts : Prop :=
  (∀ (p : Port),
    (∀ d : SerialDesc, ((DeviceDesc.serial d).readReg p ≠ none ↔ p = d.inPort ∨ p = d.readyPort) ∧
      ((DeviceDesc.serial d).writeReg p ≠ none ↔ p = d.outPort)) ∧
    (∀ d : TimerDesc, (DeviceDesc.timer d).readReg p = none ∧
      ((DeviceDesc.timer d).writeReg p ≠ none ↔ p = d.countPort ∨ p = d.controlPort)) ∧
    (∀ d : DriveDesc,
      ((DeviceDesc.drive d).readReg p ≠ none ↔ ∃ k ∈ [0, 7], p.toNat = d.basePort.toNat + k) ∧
      ((DeviceDesc.drive d).writeReg p ≠ none ↔ ∃ k ∈ [0, 3, 4, 5, 6, 7], p.toNat = d.basePort.toNat + k)) ∧
    ∀ d : RegionDesc, (DeviceDesc.rom d).readReg p = none ∧ (DeviceDesc.ram d).readReg p = none ∧
      (DeviceDesc.rom d).writeReg p = none ∧ (DeviceDesc.ram d).writeReg p = none) ∧
  (∀ (p : Port),
    (∀ d : SerialDesc,
      ((DeviceDesc.serial d).readReg p = some .serIn ↔ p = d.inPort) ∧
      (d.inPort ≠ d.readyPort → ((DeviceDesc.serial d).readReg p = some .serReady ↔ p = d.readyPort)) ∧
      ((DeviceDesc.serial d).writeReg p = some .serOut ↔ p = d.outPort)) ∧
    (∀ d : TimerDesc,
      ((DeviceDesc.timer d).writeReg p = some .tmrCount ↔ p = d.countPort) ∧
      (d.countPort ≠ d.controlPort → ((DeviceDesc.timer d).writeReg p = some .tmrControl ↔ p = d.controlPort))) ∧
    ∀ d : DriveDesc,
      (∀ x ∈ [(ReadReg.bdData, 0), (.bdStatus, 7)],
        ((DeviceDesc.drive d).readReg p = some x.1 ↔ p.toNat = d.basePort.toNat + x.2)) ∧
      ∀ x ∈ [(WriteReg.bdData, 0), (.bdLba0, 3), (.bdLba1, 4), (.bdLba2, 5), (.bdLba3, 6), (.bdCmd, 7)],
        ((DeviceDesc.drive d).writeReg p = some x.1 ↔ p.toNat = d.basePort.toNat + x.2)) ∧
  ∀ (i : Nat) (v : Byte),
    [ReadReg.serIn, .serReady, .bdData, .bdStatus].map (readRow i) =
      [.serIn i, .serReady i, .bdDataRd i, .bdStatus i] ∧
    [WriteReg.serOut, .tmrCount, .tmrControl, .bdData, .bdLba0, .bdLba1, .bdLba2, .bdLba3].map (writeRow i v) =
      [.serOut i v, .tmrCount i v, .tmrControl i v, .bdDataWr i v, .bdLba0 i v, .bdLba1 i v, .bdLba2 i v, .bdLba3 i v] ∧
    writeRow i v .bdCmd =
      if v = 0x20#8 then .bdCmdReadSector i else if v = 0x30#8 then .bdCmdWriteSector i else .bdCmdOther i v

/-- A step runs the decoded operation: the host's record when no call runs, the engine's word inside `Engine.step()`, the callback's
record inside a callback, on the state with that input taken; a due clock batch runs CLOCK and then the rest of the iteration. -/
def Obligations.StepRunsTheDecodedOperation : Prop :=
  (∀ (s : State) (r : HostRecord) (rest : List HostAct) (i : Instr), s.phase = .idle → s.hostIn = .op r :: rest →
    decode s.devices (.host r) = .ok i → step s = exec i { s with hostIn := rest }) ∧
  (∀ (s : State) (call : Call) (w : TxnWord) (rest : List EngineEvent) (i : Instr), s.phase = .engine call →
    s.engineIn = .txn w :: rest → decode s.devices (.txn w) = .ok i → step s = exec i { s with engineIn := rest }) ∧
  (∀ (s : State) (call : Call) (pcS : Addr) (cb : Callback) (r : HostRecord) (rest : List CallbackAct) (i : Instr),
    s.phase = .callback call pcS cb → s.callbackIn = .host (.op r) :: rest →
    decode s.devices (.host r) = .ok i → step s = exec i { s with callbackIn := rest }) ∧
  (∀ (s t : State) (call : Call) (c : Nat), s.phase = .clock call c → exec (.clock c) s = .next t →
    step s = .next (t.afterBatch call (t.returns.bus.getD 0#2)))

/-- Words of the spec's test vectors decode to the operations they stand for, under the reference configuration
(95_test_vectors.md). -/
def Obligations.VectorWordsDecode : Prop :=
  decodeTableWord 32 0x0801000 = some (.memRd 0x8010#16) ∧
  decodeTableWord 32 0x180105A = some (.memWr 0x8010#16 0x5A#8) ∧
  decodeTableWord 32 0x2004200 = some (.ioRd 0x42#8) ∧
  decodeTableWord 32 0x3009901 = some (.ioWr 0x99#8 0x01#8) ∧
  decodeTableWord 32 0x2000100 = some (.serIn 2) ∧
  decodeTableWord 32 0x3001003 = some (.tmrCount 3 0x03#8) ∧
  decodeTableWord 32 0x3002720 = some (.bdCmdReadSector 4) ∧
  decodeTableWord 8 0x01 = some (.continueRun none)

/-! ## 42_debug_controller.md: engine registers inside a callback -/

/-- Inside a tracepoint callback the host's read of an engine register answers what the engine answers, and its write changes, of
all the block holds, only what the engine's program counter answers (the model's reading, log 15); nothing else changes, the
sampled PC of the iteration among it (R31, R212, R222). -/
def Obligations.CallbackRegisterAccessesReachOnlyTheEngine : Prop :=
  ∀ (s : State) (call : Call) (pcS : Addr) (cb : Callback) (register : Name) (value : Nat) (pcAfter : Addr)
    (rest : List CallbackAct), s.phase = .callback call pcS cb →
    (s.callbackIn = .readRegister register value :: rest → step s = .next { s with
      callbackIn := rest, returns := { s.returns with host := some (.register value) } }) ∧
    (s.callbackIn = .writeRegister register value pcAfter :: rest → step s = .next { s with
      callbackIn := rest, eng := { s.eng with pc := pcAfter }, returns := { s.returns with host := some .done } })
end

