-- ==== Sys2Proof/Laws/Memory.lean ====
section
/-!
SUPPORT. Laws/Memory.lean: the finite maps and byte arrays: what a read after each update gives, and that every update keeps the
canonical form.
-/

namespace Sys2Proof.Machine

/-! ## Maps -/

@[simp] theorem mapGet_nil {α : Type} (k : Nat) : mapGet ([] : List (Nat × α)) k = none := rfl

theorem mapGet_mapSet {α : Type} (k j : Nat) (v : α) (m : List (Nat × α)) :
    mapGet (mapSet k v m) j = if k = j then some v else mapGet m j := by
  induction m with
  | nil => simp [mapSet, mapGet]
  | cons c m ih =>
    obtain ⟨k', v'⟩ := c
    simp only [mapSet]
    split
    · simp [mapGet]
    · split
      · subst k; simp only [mapGet]; split <;> rfl
      · simp only [mapGet, ih]
        split <;> split <;> first | rfl | omega

theorem mapGet_mapDel {α : Type} (k j : Nat) (m : List (Nat × α)) :
    mapGet (mapDel k m) j = if k = j then none else mapGet m j := by
  induction m with
  | nil => simp [mapDel]
  | cons c m ih =>
    obtain ⟨k', v'⟩ := c
    by_cases h : k' = k
    · subst h
      have : mapDel k' ((k', v') :: m) = mapDel k' m := by simp [mapDel]
      rw [this, ih]; simp only [mapGet]; split <;> rfl
    · have : mapDel k ((k', v') :: m) = (k', v') :: mapDel k m := by simp [mapDel, h]
      rw [this]; simp only [mapGet, ih]
      split <;> split <;> first | rfl | omega

theorem mapRises_mono {α : Type} {lo lo' : Nat} (h : lo ≤ lo') :
    ∀ {m : List (Nat × α)}, mapRises lo' m = true → mapRises lo m = true
  | [], _ => rfl
  | (k, _) :: m, hm => by
    simp only [mapRises, Bool.and_eq_true, decide_eq_true_eq] at hm ⊢
    exact ⟨by omega, hm.2⟩

theorem mapRises_mapSet {α : Type} {k : Nat} {v : α} {m : List (Nat × α)} {lo : Nat} (hk : lo ≤ k)
    (h : mapRises lo m = true) : mapRises lo (mapSet k v m) = true := by
  induction m generalizing lo with
  | nil => simpa [mapSet, mapRises] using hk
  | cons c m ih =>
    obtain ⟨k', v'⟩ := c
    simp only [mapRises, Bool.and_eq_true, decide_eq_true_eq] at h
    simp only [mapSet]
    split
    · simp only [mapRises, Bool.and_eq_true, decide_eq_true_eq]; exact ⟨hk, by omega, h.2⟩
    · split
      · subst k; simp only [mapRises, Bool.and_eq_true, decide_eq_true_eq]; exact ⟨hk, h.2⟩
      · simp only [mapRises, Bool.and_eq_true, decide_eq_true_eq]
        exact ⟨h.1, ih (by omega) h.2⟩

theorem mapRises_mapDel {α : Type} {k : Nat} {m : List (Nat × α)} {lo : Nat} (h : mapRises lo m = true) :
    mapRises lo (mapDel k m) = true := by
  induction m generalizing lo with
  | nil => rfl
  | cons c m ih =>
    obtain ⟨k', v'⟩ := c
    simp only [mapRises, Bool.and_eq_true, decide_eq_true_eq] at h
    by_cases hk : k' = k
    · have : mapDel k ((k', v') :: m) = mapDel k m := by simp [mapDel, hk]
      rw [this]; exact ih (mapRises_mono (by omega) h.2)
    · have : mapDel k ((k', v') :: m) = (k', v') :: mapDel k m := by simp [mapDel, hk]
      rw [this]; simp only [mapRises, Bool.and_eq_true, decide_eq_true_eq]; exact ⟨h.1, ih h.2⟩

/-- Which cells an updated map has. -/
theorem mem_mapSet {α : Type} {k : Nat} {v : α} {m : List (Nat × α)} {c : Nat × α} (h : c ∈ mapSet k v m) :
    c = (k, v) ∨ c ∈ m := by
  induction m with
  | nil => simpa [mapSet] using h
  | cons d m ih =>
    obtain ⟨k', v'⟩ := d
    simp only [mapSet] at h
    split at h
    · simpa using h
    · split at h
      · rcases List.mem_cons.1 h with h | h
        · exact .inl h
        · exact .inr (List.mem_cons_of_mem _ h)
      · rcases List.mem_cons.1 h with h | h
        · exact .inr (h ▸ List.mem_cons_self)
        · rcases ih h with h | h
          · exact .inl h
          · exact .inr (List.mem_cons_of_mem _ h)

theorem mem_mapDel {α : Type} {k : Nat} {m : List (Nat × α)} {c : Nat × α} (h : c ∈ mapDel k m) : c ∈ m ∧ c.1 ≠ k := by
  simpa [mapDel] using h

theorem mapBelow_mapSet {α : Type} {n k : Nat} {v : α} {m : List (Nat × α)} (hk : k < n) (h : mapBelow n m = true) :
    mapBelow n (mapSet k v m) = true := by
  simp only [mapBelow, List.all_eq_true, decide_eq_true_eq] at h ⊢
  intro c hc
  rcases mem_mapSet hc with rfl | hc
  · exact hk
  · exact h c hc

theorem mapBelow_mapDel {α : Type} {n k : Nat} {m : List (Nat × α)} (h : mapBelow n m = true) :
    mapBelow n (mapDel k m) = true := by
  simp only [mapBelow, List.all_eq_true, decide_eq_true_eq] at h ⊢
  exact fun c hc => h c (mem_mapDel hc).1

/-! ## Byte arrays -/

@[simp] theorem Memory.read_nil (k : Nat) : Memory.read [] k = Memory.unlisted := rfl

/-- A read after a write. -/
theorem Memory.read_write (m : Memory) (k j : Nat) (v : Byte) :
    (m.write k v).read j = if k = j then v else m.read j := by
  unfold Memory.write Memory.read
  by_cases hv : v = Memory.unlisted
  · rw [if_pos hv, mapGet_mapDel]; split
    · rw [hv]; rfl
    · rfl
  · rw [if_neg hv, mapGet_mapSet]; split <;> rfl

@[simp] theorem Memory.read_write_same (m : Memory) (k : Nat) (v : Byte) : (m.write k v).read k = v := by
  simp [Memory.read_write]

theorem Memory.read_write_other (m : Memory) {k j : Nat} (v : Byte) (h : k ≠ j) : (m.write k v).read j = m.read j := by
  simp [Memory.read_write, h]

/-- A read after bytes were copied in. -/
theorem Memory.read_copyIn (m : Memory) (start : Nat) (f : Nat → Byte) (n j : Nat) :
    (m.copyIn start f n).read j = if start ≤ j ∧ j < start + n then f (j - start) else m.read j := by
  induction n with
  | zero => simp only [Memory.copyIn]; rw [if_neg (by omega)]
  | succ n ih =>
    simp only [Memory.copyIn, Memory.read_write, ih]
    by_cases h : start + n = j
    · rw [if_pos h, if_pos (by omega)]; congr 1; omega
    · rw [if_neg h]
      by_cases h' : start ≤ j ∧ j < start + n
      · rw [if_pos h', if_pos (by omega)]
      · rw [if_neg h', if_neg (by omega)]

theorem Memory.read_ofBytes (bs : List Byte) (k : Nat) : (Memory.ofBytes bs).read k = bs.getD k Memory.unlisted := by
  unfold Memory.ofBytes
  rw [Memory.read_copyIn]
  split
  · simp
  · rw [Memory.read_nil, List.getD_eq_default _ _ (by omega)]

/-- Every write keeps the canonical form. -/
theorem Memory.wf_write {m : Memory} (h : m.wf = true) (k : Nat) (v : Byte) : (m.write k v).wf = true := by
  simp only [Memory.wf, Bool.and_eq_true, List.all_eq_true, bne_iff_ne, ne_eq] at h ⊢
  unfold Memory.write
  split
  · exact ⟨mapRises_mapDel h.1, fun c hc => h.2 c (mem_mapDel hc).1⟩
  · rename_i hv
    refine ⟨mapRises_mapSet (Nat.zero_le _) h.1, fun c hc => ?_⟩
    rcases mem_mapSet hc with rfl | hc
    · exact hv
    · exact h.2 c hc

/-- A copy keeps the canonical form. -/
theorem Memory.wf_copyIn {m : Memory} (h : m.wf = true) (start : Nat) (f : Nat → Byte) (n : Nat) :
    (m.copyIn start f n).wf = true := by
  induction n with
  | zero => exact h
  | succ n ih => exact Memory.wf_write ih _ _

theorem Memory.wf_ofBytes (bs : List Byte) : (Memory.ofBytes bs).wf = true :=
  Memory.wf_copyIn rfl _ _ _

/-- An array of `n` bytes stays one under a write inside it. -/
theorem Memory.Ok.write {n : Nat} {m : Memory} (h : m.Ok n) {k : Nat} (hk : k < n) (v : Byte) : (m.write k v).Ok n := by
  refine ⟨Memory.wf_write h.1 k v, ?_⟩
  unfold Memory.write
  split
  · exact mapBelow_mapDel h.2
  · exact mapBelow_mapSet hk h.2

theorem Memory.Ok.nil (n : Nat) : Memory.Ok n [] := ⟨rfl, rfl⟩

/-- An array of `n` bytes stays one under a copy inside it. -/
theorem Memory.Ok.copyIn {n : Nat} {m : Memory} (h : m.Ok n) {start len : Nat} (hl : start + len ≤ n) (f : Nat → Byte) :
    (m.copyIn start f len).Ok n := by
  induction len with
  | zero => exact h
  | succ len ih => exact (ih (by omega)).write (by omega) _

theorem Memory.Ok.ofBytes {n : Nat} {bs : List Byte} (h : bs.length ≤ n) : (Memory.ofBytes bs).Ok n :=
  (Memory.Ok.nil n).copyIn (by omega) _

end Sys2Proof.Machine
end

