-- ==== Sys2Proof/Laws/Arrays.lean ====
section
/-!
SUPPORT. Laws/Arrays.lean: every byte array of a device keeps the canonical form under every operation that writes one, and has it
at construction.
-/

namespace Sys2Proof.Machine

/-- The byte arrays a device holds: contents, ring buffers, sector buffer and backing store (rules R33, R36, R40, R42). -/
def Device.arrays : Device → List Memory
  | .rom r => [r.contents]
  | .ram r => [r.contents]
  | .serial p => [p.toDevice.buf, p.fromDevice.buf]
  | .timer _ => []
  | .drive b => b.sectorBuffer :: b.store.toList

/-- Every byte array of every device is in canonical form. -/
def State.arraysWf (s : State) : Bool :=
  s.devs.all fun d => d.device.arrays.all Memory.wf

/-- Construction gives arrays in canonical form (rule R343). -/
theorem Device.reset_arrays_wf (params : Params) (d : DeviceDesc) : (Device.reset params d).arrays.all Memory.wf = true := by
  cases d with
  | rom d => simp [Device.reset, Region.reset, Device.arrays, Memory.wf_ofBytes]
  | ram d => simp [Device.reset, Region.reset, Device.arrays, Memory.wf_ofBytes]
  | serial d => rfl
  | timer d => rfl
  | drive d =>
    have h : Memory.wf [] = true := rfl
    cases hf : d.file <;> simp [Device.reset, BlockDrive.reset, Device.arrays, Memory.wf_ofBytes, hf, h]

theorem State.initial_arraysWf (c : Config) : (State.initial c).arraysWf = true := by
  simp only [State.arraysWf, State.initial, List.all_map, List.all_eq_true]
  intro d _
  exact Device.reset_arrays_wf c.params d.desc

/-- The memories of the state after reset have the canonical form. -/
theorem State.reset_arraysWf : State.reset.arraysWf = true :=
  State.initial_arraysWf Config.reference

theorem Region.put_wf {r : Region} (h : r.contents.wf = true) (a : Addr) (v : Byte) : (r.put a v).contents.wf = true :=
  Memory.wf_write h _ _

theorem Ring.put_wf {r : Ring} (h : r.buf.wf = true) (cap : Nat) (v : Byte) : (r.put cap v).buf.wf = true :=
  Memory.wf_write h _ _

theorem Ring.push_wf {r : Ring} (h : r.buf.wf = true) (pol : SerialOverflow) (cap : Nat) (v : Byte) :
    (r.push pol cap v).buf.wf = true := by
  unfold Ring.push
  repeat' split
  all_goals first | exact h | exact Ring.put_wf h cap v

theorem BlockDrive.loadSector_wf {b : BlockDrive} {k : Nat} {m : Memory} (h : b.loadSector k = some m) : m.wf = true := by
  unfold BlockDrive.loadSector at h
  split at h
  · cases h; rfl
  · split at h
    · cases h; exact Memory.wf_copyIn (m := []) rfl _ _ _
    · cases h

theorem BlockDrive.storeSector_wf {b b' : BlockDrive} {k : Nat} {buf : Memory} (h : b.storeSector k buf = some b')
    (hs : ∀ m, b.store = some m → m.wf = true) : ∀ m, b'.store = some m → m.wf = true := by
  unfold BlockDrive.storeSector at h
  split at h
  · cases h; exact hs
  · rename_i m hm
    split at h
    · cases h
      intro m' hm'
      cases hm'
      exact Memory.wf_copyIn (hs m hm) _ _ _
    · cases h

theorem BlockDrive.acceptByte_wf {b : BlockDrive} (h : b.sectorBuffer.wf = true) (v : Byte) :
    (b.acceptByte v).sectorBuffer.wf = true :=
  Memory.wf_write h _ _

end Sys2Proof.Machine
end

