-- ==== Sys2Proof/Laws/State.lean ====
section
/-!
SUPPORT. Laws/State.lean: what each update of the state does to each field, one lemma per field per update.
-/

namespace Sys2Proof.Machine

@[simp] theorem State.reply_params (s : State) (r : HostReply) : (s.reply r).params = s.params := rfl
@[simp] theorem State.reply_devs (s : State) (r : HostReply) : (s.reply r).devs = s.devs := rfl
@[simp] theorem State.reply_dbg (s : State) (r : HostReply) : (s.reply r).dbg = s.dbg := rfl
@[simp] theorem State.reply_eng (s : State) (r : HostReply) : (s.reply r).eng = s.eng := rfl
@[simp] theorem State.reply_phase (s : State) (r : HostReply) : (s.reply r).phase = s.phase := rfl
@[simp] theorem State.reply_returns (s : State) (r : HostReply) : (s.reply r).returns = { s.returns with host := some r } := rfl
@[simp] theorem State.reply_hostIn (s : State) (r : HostReply) : (s.reply r).hostIn = s.hostIn := rfl
@[simp] theorem State.reply_callbackIn (s : State) (r : HostReply) : (s.reply r).callbackIn = s.callbackIn := rfl
@[simp] theorem State.reply_engineIn (s : State) (r : HostReply) : (s.reply r).engineIn = s.engineIn := rfl

@[simp] theorem State.refuse_params (s : State) (e : HostError) : (s.refuse e).params = s.params := rfl
@[simp] theorem State.refuse_devs (s : State) (e : HostError) : (s.refuse e).devs = s.devs := rfl
@[simp] theorem State.refuse_dbg (s : State) (e : HostError) : (s.refuse e).dbg = s.dbg := rfl
@[simp] theorem State.refuse_eng (s : State) (e : HostError) : (s.refuse e).eng = s.eng := rfl
@[simp] theorem State.refuse_phase (s : State) (e : HostError) : (s.refuse e).phase = s.phase := rfl
@[simp] theorem State.refuse_returns (s : State) (e : HostError) : (s.refuse e).returns = { s.returns with host := some (.error e) } := rfl
@[simp] theorem State.refuse_hostIn (s : State) (e : HostError) : (s.refuse e).hostIn = s.hostIn := rfl
@[simp] theorem State.refuse_callbackIn (s : State) (e : HostError) : (s.refuse e).callbackIn = s.callbackIn := rfl
@[simp] theorem State.refuse_engineIn (s : State) (e : HostError) : (s.refuse e).engineIn = s.engineIn := rfl

@[simp] theorem State.raise_params (s : State) (f : ModelFault) : (s.raise f).params = s.params := rfl
@[simp] theorem State.raise_devs (s : State) (f : ModelFault) : (s.raise f).devs = s.devs := rfl
@[simp] theorem State.raise_dbg (s : State) (f : ModelFault) : (s.raise f).dbg = { s.dbg with fault := s.dbg.fault.or (some f) } := rfl
@[simp] theorem State.raise_eng (s : State) (f : ModelFault) : (s.raise f).eng = s.eng := rfl
@[simp] theorem State.raise_phase (s : State) (f : ModelFault) : (s.raise f).phase = .idle := rfl
@[simp] theorem State.raise_returns (s : State) (f : ModelFault) : (s.raise f).returns = { s.returns with cpu := none, host := some .aborted } := rfl
@[simp] theorem State.raise_hostIn (s : State) (f : ModelFault) : (s.raise f).hostIn = s.hostIn := rfl
@[simp] theorem State.raise_callbackIn (s : State) (f : ModelFault) : (s.raise f).callbackIn = s.callbackIn := rfl
@[simp] theorem State.raise_engineIn (s : State) (f : ModelFault) : (s.raise f).engineIn = s.engineIn := rfl

@[simp] theorem State.answerByte_params (s : State) (v : Byte) : (s.answerByte v).params = s.params := rfl
@[simp] theorem State.answerByte_devs (s : State) (v : Byte) : (s.answerByte v).devs = s.devs := rfl
@[simp] theorem State.answerByte_dbg (s : State) (v : Byte) : (s.answerByte v).dbg = s.dbg := rfl
@[simp] theorem State.answerByte_eng (s : State) (v : Byte) : (s.answerByte v).eng = s.eng := rfl
@[simp] theorem State.answerByte_phase (s : State) (v : Byte) : (s.answerByte v).phase = s.phase := rfl
@[simp] theorem State.answerByte_returns (s : State) (v : Byte) : (s.answerByte v).returns = { s.returns with cpu := some v } := rfl
@[simp] theorem State.answerByte_hostIn (s : State) (v : Byte) : (s.answerByte v).hostIn = s.hostIn := rfl
@[simp] theorem State.answerByte_callbackIn (s : State) (v : Byte) : (s.answerByte v).callbackIn = s.callbackIn := rfl
@[simp] theorem State.answerByte_engineIn (s : State) (v : Byte) : (s.answerByte v).engineIn = s.engineIn := rfl

@[simp] theorem State.answerNothing_params (s : State) : (s.answerNothing).params = s.params := rfl
@[simp] theorem State.answerNothing_devs (s : State) : (s.answerNothing).devs = s.devs := rfl
@[simp] theorem State.answerNothing_dbg (s : State) : (s.answerNothing).dbg = s.dbg := rfl
@[simp] theorem State.answerNothing_eng (s : State) : (s.answerNothing).eng = s.eng := rfl
@[simp] theorem State.answerNothing_phase (s : State) : (s.answerNothing).phase = s.phase := rfl
@[simp] theorem State.answerNothing_returns (s : State) : (s.answerNothing).returns = { s.returns with cpu := none } := rfl
@[simp] theorem State.answerNothing_hostIn (s : State) : (s.answerNothing).hostIn = s.hostIn := rfl
@[simp] theorem State.answerNothing_callbackIn (s : State) : (s.answerNothing).callbackIn = s.callbackIn := rfl
@[simp] theorem State.answerNothing_engineIn (s : State) : (s.answerNothing).engineIn = s.engineIn := rfl

@[simp] theorem State.driveInterrupts_params (s : State) (bs : BusState) : (s.driveInterrupts bs).params = s.params := rfl
@[simp] theorem State.driveInterrupts_devs (s : State) (bs : BusState) : (s.driveInterrupts bs).devs = s.devs := rfl
@[simp] theorem State.driveInterrupts_dbg (s : State) (bs : BusState) : (s.driveInterrupts bs).dbg = s.dbg := rfl
@[simp] theorem State.driveInterrupts_eng (s : State) (bs : BusState) : (s.driveInterrupts bs).eng = { s.eng with nmiCalls := if busNmi bs then s.eng.nmiCalls + 1 else s.eng.nmiCalls, intLevel := some (busInt bs) } := rfl
@[simp] theorem State.driveInterrupts_phase (s : State) (bs : BusState) : (s.driveInterrupts bs).phase = s.phase := rfl
@[simp] theorem State.driveInterrupts_returns (s : State) (bs : BusState) : (s.driveInterrupts bs).returns = s.returns := rfl
@[simp] theorem State.driveInterrupts_hostIn (s : State) (bs : BusState) : (s.driveInterrupts bs).hostIn = s.hostIn := rfl
@[simp] theorem State.driveInterrupts_callbackIn (s : State) (bs : BusState) : (s.driveInterrupts bs).callbackIn = s.callbackIn := rfl
@[simp] theorem State.driveInterrupts_engineIn (s : State) (bs : BusState) : (s.driveInterrupts bs).engineIn = s.engineIn := rfl

@[simp] theorem State.putDevice_params (s : State) (i : Nat) (x : Device) : (s.putDevice i x).params = s.params := rfl
@[simp] theorem State.putDevice_devs (s : State) (i : Nat) (x : Device) : (s.putDevice i x).devs = Sys2Proof.Machine.putDevice s.devs i x := rfl
@[simp] theorem State.putDevice_dbg (s : State) (i : Nat) (x : Device) : (s.putDevice i x).dbg = s.dbg := rfl
@[simp] theorem State.putDevice_eng (s : State) (i : Nat) (x : Device) : (s.putDevice i x).eng = s.eng := rfl
@[simp] theorem State.putDevice_phase (s : State) (i : Nat) (x : Device) : (s.putDevice i x).phase = s.phase := rfl
@[simp] theorem State.putDevice_returns (s : State) (i : Nat) (x : Device) : (s.putDevice i x).returns = s.returns := rfl
@[simp] theorem State.putDevice_hostIn (s : State) (i : Nat) (x : Device) : (s.putDevice i x).hostIn = s.hostIn := rfl
@[simp] theorem State.putDevice_callbackIn (s : State) (i : Nat) (x : Device) : (s.putDevice i x).callbackIn = s.callbackIn := rfl
@[simp] theorem State.putDevice_engineIn (s : State) (i : Nat) (x : Device) : (s.putDevice i x).engineIn = s.engineIn := rfl

@[simp] theorem State.withWrite_params (s : State) (a : Addr) (f : Device → Device) : (s.withWrite a f).params = s.params := rfl
@[simp] theorem State.withWrite_devs (s : State) (a : Addr) (f : Device → Device) : (s.withWrite a f).devs = writeClaimant s.devs a f := rfl
@[simp] theorem State.withWrite_dbg (s : State) (a : Addr) (f : Device → Device) : (s.withWrite a f).dbg = s.dbg := rfl
@[simp] theorem State.withWrite_eng (s : State) (a : Addr) (f : Device → Device) : (s.withWrite a f).eng = s.eng := rfl
@[simp] theorem State.withWrite_phase (s : State) (a : Addr) (f : Device → Device) : (s.withWrite a f).phase = s.phase := rfl
@[simp] theorem State.withWrite_returns (s : State) (a : Addr) (f : Device → Device) : (s.withWrite a f).returns = s.returns := rfl
@[simp] theorem State.withWrite_hostIn (s : State) (a : Addr) (f : Device → Device) : (s.withWrite a f).hostIn = s.hostIn := rfl
@[simp] theorem State.withWrite_callbackIn (s : State) (a : Addr) (f : Device → Device) : (s.withWrite a f).callbackIn = s.callbackIn := rfl
@[simp] theorem State.withWrite_engineIn (s : State) (a : Addr) (f : Device → Device) : (s.withWrite a f).engineIn = s.engineIn := rfl

@[simp] theorem State.endCall_params (s : State) (call : Call) (r : RunState) : (s.endCall call r).params = s.params := rfl
@[simp] theorem State.endCall_devs (s : State) (call : Call) (r : RunState) : (s.endCall call r).devs = s.devs := rfl
@[simp] theorem State.endCall_dbg (s : State) (call : Call) (r : RunState) : (s.endCall call r).dbg = { s.dbg with runState := r } := rfl
@[simp] theorem State.endCall_eng (s : State) (call : Call) (r : RunState) : (s.endCall call r).eng = s.eng := rfl
@[simp] theorem State.endCall_phase (s : State) (call : Call) (r : RunState) : (s.endCall call r).phase = .idle := rfl
@[simp] theorem State.endCall_returns (s : State) (call : Call) (r : RunState) : (s.endCall call r).returns = { s.returns with host := some (.cycles call.total) } := rfl
@[simp] theorem State.endCall_hostIn (s : State) (call : Call) (r : RunState) : (s.endCall call r).hostIn = s.hostIn := rfl
@[simp] theorem State.endCall_callbackIn (s : State) (call : Call) (r : RunState) : (s.endCall call r).callbackIn = s.callbackIn := rfl
@[simp] theorem State.endCall_engineIn (s : State) (call : Call) (r : RunState) : (s.endCall call r).engineIn = s.engineIn := rfl

@[simp] theorem State.enterCallback_params (s : State) (call : Call) (pcS : Addr) (cb : Callback) : (s.enterCallback call pcS cb).params = s.params := rfl
@[simp] theorem State.enterCallback_devs (s : State) (call : Call) (pcS : Addr) (cb : Callback) : (s.enterCallback call pcS cb).devs = s.devs := rfl
@[simp] theorem State.enterCallback_dbg (s : State) (call : Call) (pcS : Addr) (cb : Callback) : (s.enterCallback call pcS cb).dbg = { s.dbg with inCallback := true } := rfl
@[simp] theorem State.enterCallback_eng (s : State) (call : Call) (pcS : Addr) (cb : Callback) : (s.enterCallback call pcS cb).eng = s.eng := rfl
@[simp] theorem State.enterCallback_phase (s : State) (call : Call) (pcS : Addr) (cb : Callback) : (s.enterCallback call pcS cb).phase = .callback call pcS cb := rfl
@[simp] theorem State.enterCallback_returns (s : State) (call : Call) (pcS : Addr) (cb : Callback) : (s.enterCallback call pcS cb).returns = s.returns := rfl
@[simp] theorem State.enterCallback_hostIn (s : State) (call : Call) (pcS : Addr) (cb : Callback) : (s.enterCallback call pcS cb).hostIn = s.hostIn := rfl
@[simp] theorem State.enterCallback_callbackIn (s : State) (call : Call) (pcS : Addr) (cb : Callback) : (s.enterCallback call pcS cb).callbackIn = s.callbackIn := rfl
@[simp] theorem State.enterCallback_engineIn (s : State) (call : Call) (pcS : Addr) (cb : Callback) : (s.enterCallback call pcS cb).engineIn = s.engineIn := rfl

@[simp] theorem State.registerRead_params (s : State) (answer : Nat) : (s.registerRead answer).params = s.params := rfl
@[simp] theorem State.registerRead_devs (s : State) (answer : Nat) : (s.registerRead answer).devs = s.devs := rfl
@[simp] theorem State.registerRead_dbg (s : State) (answer : Nat) : (s.registerRead answer).dbg = s.dbg := rfl
@[simp] theorem State.registerRead_eng (s : State) (answer : Nat) : (s.registerRead answer).eng = s.eng := rfl
@[simp] theorem State.registerRead_phase (s : State) (answer : Nat) : (s.registerRead answer).phase = s.phase := rfl
@[simp] theorem State.registerRead_returns (s : State) (answer : Nat) : (s.registerRead answer).returns = { s.returns with host := some (.register answer) } := rfl
@[simp] theorem State.registerRead_hostIn (s : State) (answer : Nat) : (s.registerRead answer).hostIn = s.hostIn := rfl
@[simp] theorem State.registerRead_callbackIn (s : State) (answer : Nat) : (s.registerRead answer).callbackIn = s.callbackIn := rfl
@[simp] theorem State.registerRead_engineIn (s : State) (answer : Nat) : (s.registerRead answer).engineIn = s.engineIn := rfl

@[simp] theorem State.registerWritten_params (s : State) (pcAfter : Addr) : (s.registerWritten pcAfter).params = s.params := rfl
@[simp] theorem State.registerWritten_devs (s : State) (pcAfter : Addr) : (s.registerWritten pcAfter).devs = s.devs := rfl
@[simp] theorem State.registerWritten_dbg (s : State) (pcAfter : Addr) : (s.registerWritten pcAfter).dbg = s.dbg := rfl
@[simp] theorem State.registerWritten_eng (s : State) (pcAfter : Addr) : (s.registerWritten pcAfter).eng = { s.eng with pc := pcAfter } := rfl
@[simp] theorem State.registerWritten_phase (s : State) (pcAfter : Addr) : (s.registerWritten pcAfter).phase = s.phase := rfl
@[simp] theorem State.registerWritten_returns (s : State) (pcAfter : Addr) : (s.registerWritten pcAfter).returns = { s.returns with host := some .done } := rfl
@[simp] theorem State.registerWritten_hostIn (s : State) (pcAfter : Addr) : (s.registerWritten pcAfter).hostIn = s.hostIn := rfl
@[simp] theorem State.registerWritten_callbackIn (s : State) (pcAfter : Addr) : (s.registerWritten pcAfter).callbackIn = s.callbackIn := rfl
@[simp] theorem State.registerWritten_engineIn (s : State) (pcAfter : Addr) : (s.registerWritten pcAfter).engineIn = s.engineIn := rfl

end Sys2Proof.Machine
end

