-- ==== Sys2Proof/Laws/Devices.lean ====
section
/-!
SUPPORT. Laws/Devices.lean: the device list: who claims an address, what memory reads depend on, and what a device handler keeps.
-/

namespace Sys2Proof.Machine

/-! ## Claiming an address -/

theorem Region.inRange_iff (r : Region) (a : Addr) : r.inRange a = true ↔ r.covers a := by
  simp [Region.inRange, Region.covers]

theorem Slot.claims_iff (d : Slot) (a : Addr) : d.claims a = true ↔ ∃ r, d.device.region = some r ∧ r.covers a := by
  unfold Slot.claims
  cases h : d.device.region with
  | none => simp
  | some r => simp [Region.inRange_iff]

theorem regionAt_eq_some_iff {devs : List Slot} {i : Nat} {r : Region} :
    regionAt devs i = some r ↔ ∃ d, devs[i]? = some d ∧ d.device.region = some r := by
  unfold regionAt
  cases devs[i]? <;> simp

/-- The claimant is the first region that covers the address. -/
theorem claimant_eq_some_iff {devs : List Slot} {a : Addr} {i : Nat} :
    claimant devs a = some i ↔ ∃ r, FirstRegion devs a i r := by
  unfold claimant FirstRegion
  rw [List.findIdx?_eq_some_iff_getElem]
  constructor
  · rintro ⟨h, hc, hj⟩
    obtain ⟨r, hr, hcov⟩ := (Slot.claims_iff _ _).1 hc
    refine ⟨r, regionAt_eq_some_iff.2 ⟨_, List.getElem?_eq_getElem h, hr⟩, hcov, fun j hji q hq hcq => ?_⟩
    obtain ⟨d, hd, hdq⟩ := regionAt_eq_some_iff.1 hq
    have hlt : j < devs.length := by omega
    rw [List.getElem?_eq_getElem hlt] at hd
    exact hj j hji ((Slot.claims_iff _ _).2 ⟨q, by rw [Option.some.inj hd]; exact hdq, hcq⟩)
  · rintro ⟨r, hr, hcov, hj⟩
    obtain ⟨d, hd, hdr⟩ := regionAt_eq_some_iff.1 hr
    obtain ⟨h, rfl⟩ := List.getElem?_eq_some_iff.1 hd
    refine ⟨h, (Slot.claims_iff _ _).2 ⟨r, hdr, hcov⟩, fun j hji hc => ?_⟩
    obtain ⟨q, hq, hcq⟩ := (Slot.claims_iff _ _).1 hc
    exact hj j hji q (regionAt_eq_some_iff.2 ⟨_, List.getElem?_eq_getElem (by omega), hq⟩) hcq

/-- No claimant means no region covers the address. -/
theorem claimant_eq_none_iff {devs : List Slot} {a : Addr} : claimant devs a = none ↔ Unclaimed devs a := by
  unfold claimant Unclaimed
  rw [List.findIdx?_eq_none_iff]
  constructor
  · intro h j q hq hcq
    obtain ⟨d, hd, hdq⟩ := regionAt_eq_some_iff.1 hq
    have := h d (List.mem_of_getElem? hd)
    exact absurd ((Slot.claims_iff _ _).2 ⟨q, hdq, hcq⟩) (by simp [this])
  · intro h d hd
    rw [Bool.eq_false_iff]
    intro hc
    obtain ⟨r, hr, hcov⟩ := (Slot.claims_iff _ _).1 hc
    obtain ⟨j, hj⟩ := List.getElem?_of_mem hd
    exact h j r (regionAt_eq_some_iff.2 ⟨d, hj, hr⟩) hcov

theorem FirstRegion.claimant_eq {devs : List Slot} {a : Addr} {i : Nat} {r : Region} (h : FirstRegion devs a i r) :
    claimant devs a = some i :=
  claimant_eq_some_iff.2 ⟨r, h⟩

theorem Unclaimed.claimant_eq {devs : List Slot} {a : Addr} (h : Unclaimed devs a) : claimant devs a = none :=
  claimant_eq_none_iff.2 h

/-- A read of a claimed address. -/
theorem FirstRegion.memRead_eq {devs : List Slot} {a : Addr} {i : Nat} {r : Region} (h : FirstRegion devs a i r) :
    memRead devs a = r.contents.read (a.toNat - r.desc.base.toNat) := by
  simp [memRead, h.claimant_eq, h.1, Region.offset]

/-- A read of an unclaimed address. -/
theorem Unclaimed.memRead_eq {devs : List Slot} {a : Addr} (h : Unclaimed devs a) : memRead devs a = 0#8 := by
  simp [memRead, h.claimant_eq]

/-! ## What a memory read depends on -/

theorem regionAt_eq_getElem? (devs : List Slot) (i : Nat) :
    regionAt devs i = (devs.map fun d => d.device.region)[i]?.join := by
  unfold regionAt
  rw [List.getElem?_map]
  cases devs[i]? <;> rfl

theorem claimant_eq_findIdx? (devs : List Slot) (a : Addr) :
    claimant devs a =
      (devs.map fun d => d.device.region).findIdx? fun r => match r with
        | none => false
        | some r => r.inRange a := by
  unfold claimant
  rw [List.findIdx?_map]
  rfl

/-- A memory read depends only on the regions of the list. -/
theorem memRead_congr {devs devs' : List Slot}
    (h : (devs'.map fun d => d.device.region) = devs.map fun d => d.device.region) (a : Addr) :
    memRead devs' a = memRead devs a := by
  unfold memRead
  rw [claimant_eq_findIdx?, claimant_eq_findIdx?, h]
  split
  · rfl
  · rw [regionAt_eq_getElem?, regionAt_eq_getElem?, h]

theorem map_region_set {devs : List Slot} {i : Nat} {d d' : Slot} (h : devs[i]? = some d)
    (hr : d'.device.region = d.device.region) :
    ((devs.set i d').map fun d => d.device.region) = devs.map fun d => d.device.region := by
  obtain ⟨hi, rfl⟩ := List.getElem?_eq_some_iff.1 h
  apply List.ext_getElem?
  intro j
  simp only [List.getElem?_map, List.getElem?_set]
  split
  · subst j; simp [hi, hr]
  · rfl

theorem map_descriptor_set {devs : List Slot} {i : Nat} {d d' : Slot} (h : devs[i]? = some d)
    (hr : d'.descriptor = d.descriptor) :
    (devs.set i d').map Slot.descriptor = devs.map Slot.descriptor := by
  obtain ⟨hi, rfl⟩ := List.getElem?_eq_some_iff.1 h
  apply List.ext_getElem?
  intro j
  simp only [List.getElem?_map, List.getElem?_set]
  split
  · subst j; simp [hi, hr]
  · rfl

/-- Replacing a device at its index, as a `set`. -/
theorem modify_eq_set {devs : List Slot} {i : Nat} {d : Slot} (h : devs[i]? = some d) (f : Slot → Slot) :
    devs.modify i f = devs.set i (f d) := by
  obtain ⟨hi, rfl⟩ := List.getElem?_eq_some_iff.1 h
  apply List.ext_getElem?
  intro j
  rw [List.getElem?_modify, List.getElem?_set]
  split
  · subst j; simp [hi]
  · simp

theorem putDevice_eq_set {devs : List Slot} {i : Nat} {d : Slot} (h : devs[i]? = some d) (x : Device) :
    putDevice devs i x = devs.set i { d with device := x } :=
  modify_eq_set h _

/-! ## Devices by index -/

theorem serialAt_eq_some_iff {devs : List Slot} {i : Nat} {p : SerialPort} :
    serialAt devs i = some p ↔ ∃ n, devs[i]? = some { name := n, device := .serial p } := by
  unfold serialAt
  cases h : devs[i]? with
  | none => simp
  | some d => obtain ⟨n, x⟩ := d; cases x <;> simp

theorem timerAt_eq_some_iff {devs : List Slot} {i : Nat} {t : Timer} :
    timerAt devs i = some t ↔ ∃ n, devs[i]? = some { name := n, device := .timer t } := by
  unfold timerAt
  cases h : devs[i]? with
  | none => simp
  | some d => obtain ⟨n, x⟩ := d; cases x <;> simp

theorem driveAt_eq_some_iff {devs : List Slot} {i : Nat} {b : BlockDrive} :
    driveAt devs i = some b ↔ ∃ n, devs[i]? = some { name := n, device := .drive b } := by
  unfold driveAt
  cases h : devs[i]? with
  | none => simp
  | some d => obtain ⟨n, x⟩ := d; cases x <;> simp

/-! ## What a handler keeps -/

/-- A handler's result on a device keeps its name, its descriptor and, if it is a memory region, its bytes. -/
def Handled.Keeps (d : Slot) (h : Handled Slot) : Prop :=
  h.dev.descriptor = d.descriptor ∧ h.dev.device.region = d.device.region

theorem Handled.keeps_absent (d : Slot) : (Handled.absent d).Keeps d := ⟨rfl, rfl⟩

theorem Slot.onSerial_keeps {f : SerialPort → Handled SerialPort} (hf : ∀ p, (f p).dev.desc = p.desc) {d : Slot}
    {h : Handled Slot} (hd : d.onSerial f = some h) : h.Keeps d := by
  unfold Slot.onSerial at hd
  split at hd
  · rename_i p hp
    cases hd
    simp [Handled.Keeps, Handled.map, Slot.descriptor, Device.desc, Device.region, hp, hf]
  · cases hd

theorem Slot.onTimer_keeps {f : Timer → Handled Timer} (hf : ∀ t, (f t).dev.desc = t.desc) {d : Slot}
    {h : Handled Slot} (hd : d.onTimer f = some h) : h.Keeps d := by
  unfold Slot.onTimer at hd
  split at hd
  · rename_i t ht
    cases hd
    simp [Handled.Keeps, Handled.map, Slot.descriptor, Device.desc, Device.region, ht, hf]
  · cases hd

theorem Slot.onDrive_keeps {f : Name → BlockDrive → Handled BlockDrive} (hf : ∀ n b, (f n b).dev.desc = b.desc) {d : Slot}
    {h : Handled Slot} (hd : d.onDrive f = some h) : h.Keeps d := by
  unfold Slot.onDrive at hd
  split at hd
  · rename_i b hb
    cases hd
    simp [Handled.Keeps, Handled.map, Slot.descriptor, Device.desc, Device.region, hb, hf]
  · cases hd

theorem SerialPort.serIn_desc (pol : SerialOverflow) (p : SerialPort) : (p.serIn pol).dev.desc = p.desc := by
  unfold SerialPort.serIn; split <;> rfl

theorem BlockDrive.cmdRead_desc (n : Name) (b : BlockDrive) : (b.cmdRead n).dev.desc = b.desc := by
  unfold BlockDrive.cmdRead; split <;> rfl

theorem BlockDrive.storeSector_desc {b b' : BlockDrive} {k : Nat} {buf : Memory} (h : b.storeSector k buf = some b') :
    b'.desc = b.desc := by
  unfold BlockDrive.storeSector at h
  split at h
  · cases h; rfl
  · split at h
    · cases h; rfl
    · cases h

theorem BlockDrive.flush_desc (n : Name) (b : BlockDrive) : (b.flush n).dev.desc = b.desc := by
  unfold BlockDrive.flush
  split
  · rfl
  · rename_i b' h
    have := BlockDrive.storeSector_desc h
    exact this

theorem BlockDrive.dataRead_desc (n : Name) (b : BlockDrive) : (b.dataRead n).dev.desc = b.desc := by
  unfold BlockDrive.dataRead; split <;> rfl

theorem BlockDrive.dataWrite_desc (v : Byte) (n : Name) (b : BlockDrive) : (b.dataWrite v n).dev.desc = b.desc := by
  unfold BlockDrive.dataWrite
  split
  · split
    · rw [BlockDrive.flush_desc]; rfl
    · rfl
  · rfl

theorem BlockDrive.command_desc (v : Byte) (n : Name) (b : BlockDrive) : (b.command v n).dev.desc = b.desc := by
  unfold BlockDrive.command
  split
  · exact BlockDrive.cmdRead_desc n b
  · split <;> rfl

theorem Slot.readHandler_keeps {params : Params} {d : Slot} {r : ReadReg} {h : Handled Slot}
    (hd : d.readHandler params r = some h) : h.Keeps d := by
  cases r with
  | serIn => exact Slot.onSerial_keeps (SerialPort.serIn_desc _) hd
  | serReady => exact Slot.onSerial_keeps (fun _ => rfl) hd
  | bdData => exact Slot.onDrive_keeps BlockDrive.dataRead_desc hd
  | bdStatus => exact Slot.onDrive_keeps (fun _ _ => rfl) hd

theorem Slot.writeHandler_keeps {params : Params} {v : Byte} {d : Slot} {r : WriteReg} {h : Handled Slot}
    (hd : d.writeHandler params v r = some h) : h.Keeps d := by
  cases r with
  | serOut => exact Slot.onSerial_keeps (fun _ => rfl) hd
  | tmrCount => exact Slot.onTimer_keeps (fun _ => rfl) hd
  | tmrControl => exact Slot.onTimer_keeps (fun _ => rfl) hd
  | bdData => exact Slot.onDrive_keeps (BlockDrive.dataWrite_desc v) hd
  | bdLba0 => exact Slot.onDrive_keeps (fun _ _ => rfl) hd
  | bdLba1 => exact Slot.onDrive_keeps (fun _ _ => rfl) hd
  | bdLba2 => exact Slot.onDrive_keeps (fun _ _ => rfl) hd
  | bdLba3 => exact Slot.onDrive_keeps (fun _ _ => rfl) hd
  | bdCmd => exact Slot.onDrive_keeps (BlockDrive.command_desc v) hd

/-- A device offered a read keeps its configuration entry and its memory bytes. -/
theorem Slot.offerRead_keeps (params : Params) (p : Port) (d : Slot) : (d.offerRead params p).Keeps d := by
  unfold Slot.offerRead
  split
  · exact Handled.keeps_absent d
  · cases h : d.readHandler params _ with
    | none => exact Handled.keeps_absent d
    | some x => exact Slot.readHandler_keeps h

/-- A device offered a write keeps its configuration entry and its memory bytes. -/
theorem Slot.offerWrite_keeps (params : Params) (p : Port) (v : Byte) (d : Slot) : (d.offerWrite params p v).Keeps d := by
  unfold Slot.offerWrite
  split
  · exact Handled.keeps_absent d
  · cases h : d.writeHandler params v _ with
    | none => exact Handled.keeps_absent d
    | some x => exact Slot.writeHandler_keeps h

end Sys2Proof.Machine
end

