-- ==== Sys2Proof/Laws/Clock.lean ====
section
/-!
SUPPORT. Laws/Clock.lean: what ticks and clock batches do, in closed form.
-/

namespace Sys2Proof.Machine

/-- Ticks of a device that is no timer (rule R149). -/
theorem Device.ticks_of_not_timer {d : Device} (h : ∀ tm, d ≠ .timer tm) :
    ∀ c last, Device.ticks c d last = (d, if c = 0 then last else Requests.none)
  | 0, _ => rfl
  | c + 1, last => by
    have e : d.tick = (d, Requests.none) := by cases d <;> first | rfl | exact absurd rfl (h _)
    simp only [Device.ticks, e]; rw [Device.ticks_of_not_timer h]; simp

/-- A timer after `c` ticks (rule R244). -/
def Timer.after (tm : Timer) (c : Nat) : Timer :=
  { tm with count := if tm.running then BitVec.ofNat 8 (tm.count.toNat - c) else tm.count }

/-- `c` ticks of a timer, and the request of the last one (rules R244, R246). -/
theorem Device.ticks_timer (tm : Timer) : ∀ c last, Device.ticks c (.timer tm) last =
    (.timer (Timer.after tm c),
      if c = 0 then last else { nmi := tm.running && decide (tm.count.toNat + 1 ≤ c), int := false }) := by
  intro c
  induction c generalizing tm with
  | zero => intro last; simp [Device.ticks, Timer.after]
  | succ c ih =>
    intro last
    simp only [Device.ticks]
    have : Device.tick (.timer tm) = (.timer tm.tick.1, tm.tick.2) := rfl
    rw [this]; simp only
    rw [ih]
    obtain ⟨d, n, r⟩ := tm
    cases r
    · simp [Timer.tick, Timer.after]; intro _; rfl
    · by_cases hn : n = 0#8
      · subst hn; simp [Timer.tick, Timer.after]; omega
      · have hpos : 0 < n.toNat := by
          rcases Nat.eq_zero_or_pos n.toNat with h | h
          · exact absurd (BitVec.eq_of_toNat_eq (by simpa using h)) hn
          · exact h
        have h1 : (n - 1#8).toNat = n.toNat - 1 := by
          rw [BitVec.toNat_sub]; simp; have := n.isLt; omega
        simp [Timer.tick, Timer.after, hn, h1]
        have : n.toNat - 1 - c = n.toNat - (c+1) := by omega
        refine ⟨by rw [this], ?_⟩
        by_cases hc : c = 0
        · subst hc; simp [Requests.none]; omega
        · simp [hc]; omega

/-- The devices after a clock batch, one by one. -/
theorem clockAll_fst (c) :
    ∀ devs, (clockAll c devs).1 = devs.map fun d => { d with device := (Device.ticks c d.device Requests.none).1 }
  | [] => rfl
  | d :: ds => by simp [clockAll, clockAll_fst c ds]

/-- Some device's last tick requests NMI. -/
theorem clockAll_nmi (c) : ∀ devs, (clockAll c devs).2.nmi = devs.any fun d => (Device.ticks c d.device Requests.none).2.nmi
  | [] => rfl
  | d :: ds => by simp [clockAll, clockAll_nmi c ds, Requests.or]

theorem Device.tick_int (d : Device) : d.tick.2.int = false := by
  cases d <;> simp [Device.tick, Requests.none, Timer.tick]
  repeat' split
  all_goals rfl

theorem Device.ticks_int : ∀ c (d : Device) last, last.int = false → (Device.ticks c d last).2.int = false
  | 0, _, _, h => h
  | c + 1, d, _, _ => Device.ticks_int c d.tick.1 d.tick.2 (Device.tick_int d)

theorem clockAll_int (c) : ∀ devs, (clockAll c devs).2.int = false
  | [] => rfl
  | d :: ds => by simp [clockAll, clockAll_int c ds, Requests.or, Device.ticks_int c d.device Requests.none rfl]

/-- The two bits of a bus state (rule R116). -/
theorem Requests.busState_bits (x : Requests) : x.busState.getLsbD 0 = x.nmi ∧ x.busState.getLsbD 1 = x.int := by
  obtain ⟨a, b⟩ := x; cases a <;> cases b <;> decide

/-- A clock batch leaves memory alone. -/
theorem clockAll_region (c devs) : ((clockAll c devs).1.map fun d => d.device.region) = devs.map fun d => d.device.region := by
  rw [clockAll_fst, List.map_map]
  apply List.map_congr_left
  intro d _
  by_cases h : ∃ tm, d.device = .timer tm
  · obtain ⟨tm, h⟩ := h; simp [h, Device.ticks_timer, Device.region]
  · simp only [Function.comp]; rw [Device.ticks_of_not_timer (fun tm e => h ⟨tm, e⟩)]

/-- A batch requests NMI exactly when it is longer than some running timer's count (rule R246). -/
theorem clockAll_nmi_iff (c devs) :
    (clockAll c devs).2.nmi = true ↔ ∃ i tm, timerAt devs i = some tm ∧ tm.running = true ∧ tm.count.toNat + 1 ≤ c := by
  rw [clockAll_nmi, List.any_eq_true]
  constructor
  · rintro ⟨d, hd, h⟩
    by_cases hh : ∃ tm, d.device = .timer tm
    · obtain ⟨tm, e⟩ := hh
      obtain ⟨i, hi⟩ := List.getElem?_of_mem hd
      rw [e, Device.ticks_timer] at h
      refine ⟨i, tm, timerAt_eq_some_iff.2 ⟨d.name, ?_⟩, ?_⟩
      · rw [hi, ← e]
      · by_cases hc : c = 0
        · simp [hc, Requests.none] at h
        · simp [hc] at h; exact h
    · rw [Device.ticks_of_not_timer (fun tm e => hh ⟨tm, e⟩)] at h
      simp [Requests.none] at h
  · rintro ⟨i, tm, hi, hr, hc⟩
    obtain ⟨n, hn⟩ := timerAt_eq_some_iff.1 hi
    refine ⟨_, List.mem_of_getElem? hn, ?_⟩
    simp only [Device.ticks_timer]
    have : c ≠ 0 := by omega
    simp [this, hr]; omega

theorem timerAt_set {devs : List Slot} {i j : Nat} {d n tm} (h : devs[i]? = some d) :
    timerAt (devs.set i { name := n, device := .timer tm }) j = if i = j then some tm else timerAt devs j := by
  obtain ⟨hi, _⟩ := List.getElem?_eq_some_iff.1 h
  unfold timerAt
  rw [List.getElem?_set]
  by_cases e : i = j
  · subst j; simp [hi]
  · simp [e]

end Sys2Proof.Machine
end

