-- ==== Sys2Proof/Laws/Construct.lean ====
section
/-!
SUPPORT. Laws/Construct.lean: what reading a configuration record and constructing from it can do.
-/

namespace Sys2Proof.Machine

theorem map_ok_iff {ε α β : Type} {f : α → β} {x : Except ε α} {b : β} :
    x.map f = .ok b ↔ ∃ a, x = .ok a ∧ f a = b := by
  cases x <;> simp [Except.map]

theorem bind_ok_iff {ε α β : Type} {x : Except ε α} {f : α → Except ε β} {b : β} :
    (x >>= f) = .ok b ↔ ∃ a, x = .ok a ∧ f a = .ok b := by
  cases x <;> simp [bind, Except.bind]

theorem requireNat_ok_iff {device : Option Name} {param : String} {v : Option Nat} {n : Nat} :
    requireNat device param v = .ok n ↔ v = some n := by
  cases v <;> simp [requireNat]

theorem requireBelow_ok_iff {device : Option Name} {param : String} {bound : Nat} {v : Option Nat} {n : Nat} :
    requireBelow device param bound v = .ok n ↔ v = some n ∧ n < bound := by
  cases v with
  | none => simp [requireBelow]
  | some m =>
    by_cases h : m < bound <;> simp [requireBelow, h]
    · rintro rfl; exact h
    · rintro rfl; exact Nat.le_of_not_lt h

/-- A number below `2 ^ w` is what the bit vector of it holds. -/
theorem below_ofNat_iff {w : Nat} {v : Option Nat} {x : BitVec w} :
    (∃ n, (v = some n ∧ n < 2 ^ w) ∧ BitVec.ofNat w n = x) ↔ v = some x.toNat := by
  constructor
  · rintro ⟨n, ⟨rfl, hn⟩, rfl⟩
    simp [Nat.mod_eq_of_lt hn]
  · rintro rfl
    exact ⟨x.toNat, ⟨rfl, x.isLt⟩, by simp⟩

/-- A port is read when it is given and 8 bits (rule R341). -/
theorem requirePort_ok_iff {device : Option Name} {param : String} {v : Option Nat} {p : Port} :
    requirePort device param v = .ok p ↔ v = some p.toNat := by
  simp only [requirePort, map_ok_iff, requireBelow_ok_iff]
  exact below_ofNat_iff (w := 8)

/-- An address is read when it is given and 16 bits (rule R341). -/
theorem requireAddr_ok_iff {device : Option Name} {param : String} {v : Option Nat} {a : Addr} :
    requireAddr device param v = .ok a ↔ v = some a.toNat := by
  simp only [requireAddr, map_ok_iff, requireBelow_ok_iff]
  exact below_ofNat_iff (w := 16)

theorem readRegion_ok_iff {device : Option Name} {base size : Option Nat} {image : Option (List Byte)} {r : RegionDesc} :
    readRegion device base size image = .ok r ↔ base = some r.base.toNat ∧ size = some r.size ∧ image = r.image := by
  simp only [readRegion, bind_ok_iff, requireAddr_ok_iff, requireNat_ok_iff]
  constructor
  · rintro ⟨b, hb, n, hn, h⟩
    cases h
    exact ⟨hb, hn, rfl⟩
  · rintro ⟨hb, hn, rfl⟩
    exact ⟨_, hb, _, hn, rfl⟩

/-- A device is read exactly when its record gives every parameter in range (rule R341). -/
theorem readDevice_ok_iff {x : RawDevice} {d : Descriptor} : readDevice x = .ok d ↔ x.Gives d := by
  obtain ⟨name, variant⟩ := x
  obtain ⟨dname, desc⟩ := d
  cases name with
  | none => simp [readDevice, RawDevice.Gives]
  | some name =>
    simp only [readDevice, map_ok_iff, RawDevice.Gives, Option.some.injEq, Descriptor.mk.injEq]
    cases variant with
    | rom base size image =>
      simp only [readVariant, map_ok_iff, readRegion_ok_iff]
      cases desc <;> simp
      exact ⟨fun h => ⟨h.2, h.1⟩, fun h => ⟨h.2, h.1⟩⟩
    | ram base size image =>
      simp only [readVariant, map_ok_iff, readRegion_ok_iff]
      cases desc <;> simp
      exact ⟨fun h => ⟨h.2, h.1⟩, fun h => ⟨h.2, h.1⟩⟩
    | serial i o r c =>
      simp only [readVariant, bind_ok_iff, requirePort_ok_iff]
      constructor
      · rintro ⟨_, ⟨_, rfl, _, rfl, _, rfl, h⟩, rfl, rfl⟩
        cases h
        exact ⟨rfl, c, rfl, rfl⟩
      · rintro ⟨rfl, h⟩
        cases desc <;> simp at h
        obtain ⟨hc, rfl, rfl, rfl⟩ := h
        exact ⟨_, ⟨_, rfl, _, rfl, _, rfl, rfl⟩, rfl, by rw [← hc]⟩
    | timer c k =>
      simp only [readVariant, bind_ok_iff, requirePort_ok_iff]
      constructor
      · rintro ⟨_, ⟨_, rfl, _, rfl, h⟩, rfl, rfl⟩
        cases h
        exact ⟨rfl, rfl⟩
      · rintro ⟨rfl, h⟩
        cases desc <;> simp at h
        obtain ⟨rfl, rfl⟩ := h
        exact ⟨_, ⟨_, rfl, _, rfl, rfl⟩, rfl, rfl⟩
    | drive b ss ns f =>
      simp only [readVariant, bind_ok_iff, requirePort_ok_iff, requireNat_ok_iff]
      constructor
      · rintro ⟨_, ⟨_, rfl, _, rfl, _, rfl, h⟩, rfl, rfl⟩
        cases h
        exact ⟨rfl, rfl⟩
      · rintro ⟨rfl, h⟩
        cases desc <;> simp at h
        obtain ⟨rfl, rfl, rfl, rfl⟩ := h
        exact ⟨_, ⟨_, rfl, _, rfl, _, rfl, rfl⟩, rfl, rfl⟩

/-- A list of records is read device by device, in order. -/
theorem readDevices_ok_iff : ∀ {devices : List RawDevice} {devs : List Descriptor},
    readDevices devices = .ok devs ↔ List.Forall₂ RawDevice.Gives devices devs
  | [], devs => by
    simp only [readDevices, Except.ok.injEq, List.forall₂_nil_left_iff]
    exact eq_comm
  | x :: xs, devs => by
    simp only [readDevices, bind_ok_iff, readDevice_ok_iff, readDevices_ok_iff, List.forall₂_cons_left_iff]
    constructor
    · rintro ⟨d, hd, ds, hds, h⟩
      cases h
      exact ⟨d, ds, hd, hds, rfl⟩
    · rintro ⟨d, ds, hd, hds, rfl⟩
      exact ⟨d, hd, ds, hds, rfl⟩

/-- Construction builds from the descriptors it reads when no check fails (rules R341, R342). -/
theorem construct_ok_iff {devices : List RawDevice} {params : Params} {s : State} :
    construct devices params = .ok s ↔
      ∃ devs, readDevices devices = .ok devs ∧ configError devs = none ∧
        s = State.initial { devices := devs, params := params } := by
  unfold construct
  cases readDevices devices with
  | error e => simp
  | ok devs => cases h : configError devs <;> simp [h, eq_comm]

end Sys2Proof.Machine
end

