-- ==== Sys2Proof/Laws/Decode.lean ====
section
/-!
SUPPORT. Laws/Decode.lean: what the decoder can answer, said once.
-/

namespace Sys2Proof

/-- What a decoded host record is (rule R120). -/
theorem decodeHost_ok {r : HostRecord} {i : Instr} (h : decodeHost r = .ok i) :
    (r.code = 0x01#8 ∧ i = .continueRun r.max) ∨
    (r.code = 0x02#8 ∧ i = .stepOne) ∨
    (r.code = 0x03#8 ∧ i = .setBreakpoint r.addr) ∨
    (r.code = 0x04#8 ∧ i = .removeBreakpoint r.addr) ∨
    (r.code = 0x05#8 ∧ i = .registerTracepoint r.addr r.callback) ∨
    (r.code = 0x06#8 ∧ i = .queryHalted) ∨
    (r.code = 0x07#8 ∧ i = .queryBreak) ∨
    (r.code = 0x08#8 ∧ i = .readMemory r.addr) ∨
    (r.code = 0x09#8 ∧ i = .writeMemory r.addr r.value) ∨
    (r.code = 0x0A#8 ∧ i = .serialPuts r.name r.bytes) ∨
    (r.code = 0x0B#8 ∧ i = .serialGets r.name r.count) ∨
    (r.code = 0x0C#8 ∧ i = .bdReadByte r.name r.sector r.offset) := by
  unfold decodeHost at h
  by_cases h1 : r.code = 0x01#8
  · rw [if_pos h1] at h; cases h; simp [h1]
  rw [if_neg h1] at h
  by_cases h2 : r.code = 0x02#8
  · rw [if_pos h2] at h; cases h; simp [h2]
  rw [if_neg h2] at h
  by_cases h3 : r.code = 0x03#8
  · rw [if_pos h3] at h; cases h; simp [h3]
  rw [if_neg h3] at h
  by_cases h4 : r.code = 0x04#8
  · rw [if_pos h4] at h; cases h; simp [h4]
  rw [if_neg h4] at h
  by_cases h5 : r.code = 0x05#8
  · rw [if_pos h5] at h; cases h; simp [h5]
  rw [if_neg h5] at h
  by_cases h6 : r.code = 0x06#8
  · rw [if_pos h6] at h; cases h; simp [h6]
  rw [if_neg h6] at h
  by_cases h7 : r.code = 0x07#8
  · rw [if_pos h7] at h; cases h; simp [h7]
  rw [if_neg h7] at h
  by_cases h8 : r.code = 0x08#8
  · rw [if_pos h8] at h; cases h; simp [h8]
  rw [if_neg h8] at h
  by_cases h9 : r.code = 0x09#8
  · rw [if_pos h9] at h; cases h; simp [h9]
  rw [if_neg h9] at h
  by_cases h10 : r.code = 0x0A#8
  · rw [if_pos h10] at h; cases h; simp [h10]
  rw [if_neg h10] at h
  by_cases h11 : r.code = 0x0B#8
  · rw [if_pos h11] at h; cases h; simp [h11]
  rw [if_neg h11] at h
  by_cases h12 : r.code = 0x0C#8
  · rw [if_pos h12] at h; cases h; simp [h12]
  rw [if_neg h12] at h
  cases h

/-- What an undecodable host record is (rule R120). -/
theorem decodeHost_error {r : HostRecord} {e : DecodeError} (h : decodeHost r = .error e) :
    e = .unknownHostCode r.code ∧ (r.code = 0x00#8 ∨ 0x0C < r.code.toNat) := by
  unfold decodeHost at h
  by_cases h1 : r.code = 0x01#8
  · rw [if_pos h1] at h; cases h
  rw [if_neg h1] at h
  by_cases h2 : r.code = 0x02#8
  · rw [if_pos h2] at h; cases h
  rw [if_neg h2] at h
  by_cases h3 : r.code = 0x03#8
  · rw [if_pos h3] at h; cases h
  rw [if_neg h3] at h
  by_cases h4 : r.code = 0x04#8
  · rw [if_pos h4] at h; cases h
  rw [if_neg h4] at h
  by_cases h5 : r.code = 0x05#8
  · rw [if_pos h5] at h; cases h
  rw [if_neg h5] at h
  by_cases h6 : r.code = 0x06#8
  · rw [if_pos h6] at h; cases h
  rw [if_neg h6] at h
  by_cases h7 : r.code = 0x07#8
  · rw [if_pos h7] at h; cases h
  rw [if_neg h7] at h
  by_cases h8 : r.code = 0x08#8
  · rw [if_pos h8] at h; cases h
  rw [if_neg h8] at h
  by_cases h9 : r.code = 0x09#8
  · rw [if_pos h9] at h; cases h
  rw [if_neg h9] at h
  by_cases h10 : r.code = 0x0A#8
  · rw [if_pos h10] at h; cases h
  rw [if_neg h10] at h
  by_cases h11 : r.code = 0x0B#8
  · rw [if_pos h11] at h; cases h
  rw [if_neg h11] at h
  by_cases h12 : r.code = 0x0C#8
  · rw [if_pos h12] at h; cases h
  rw [if_neg h12] at h
  cases h
  refine ⟨rfl, ?_⟩
  bv_omega

/-- What a decoded transaction word is (rules R100, R101). -/
theorem decodeTxn_ok {devs : List Descriptor} {w : TxnWord} {i : Instr} (h : decodeTxn devs w = .ok i) :
    (txnKind w = 0b00#2 ∧ i = .memRd (txnAddr w)) ∨
    (txnKind w = 0b01#2 ∧ i = .memWr (txnAddr w) (txnData w)) ∨
    (txnKind w = 0b10#2 ∧ txnHigh w = 0#8 ∧ i = decodeIoRead devs (txnPort w)) ∨
    (txnKind w = 0b11#2 ∧ txnHigh w = 0#8 ∧ i = decodeIoWrite devs (txnPort w) (txnData w)) := by
  unfold decodeTxn at h
  by_cases h0 : txnKind w = 0b00#2
  · rw [if_pos h0] at h; cases h; exact .inl ⟨h0, rfl⟩
  rw [if_neg h0] at h
  by_cases h1 : txnKind w = 0b01#2
  · rw [if_pos h1] at h; cases h; exact .inr (.inl ⟨h1, rfl⟩)
  rw [if_neg h1] at h
  by_cases hz : txnHigh w = 0#8
  · rw [if_neg (by simpa using hz)] at h
    by_cases h2 : txnKind w = 0b10#2
    · rw [if_pos h2] at h; cases h; exact .inr (.inr (.inl ⟨h2, hz, rfl⟩))
    rw [if_neg h2] at h; cases h
    exact .inr (.inr (.inr ⟨by bv_omega, hz, rfl⟩))
  · rw [if_pos hz] at h; cases h

/-- What an undecodable transaction word is (rule R101). -/
theorem decodeTxn_error {devs : List Descriptor} {w : TxnWord} {e : DecodeError} (h : decodeTxn devs w = .error e) :
    e = .ioWordHighBits w ∧ txnKind w ≠ 0b00#2 ∧ txnKind w ≠ 0b01#2 ∧ txnHigh w ≠ 0#8 := by
  unfold decodeTxn at h
  by_cases h0 : txnKind w = 0b00#2
  · rw [if_pos h0] at h; cases h
  rw [if_neg h0] at h
  by_cases h1 : txnKind w = 0b01#2
  · rw [if_pos h1] at h; cases h
  rw [if_neg h1] at h
  by_cases hz : txnHigh w = 0#8
  · rw [if_neg (by simpa using hz)] at h
    by_cases h2 : txnKind w = 0b10#2
    · rw [if_pos h2] at h; cases h
    · rw [if_neg h2] at h; cases h
  · rw [if_pos hz] at h; cases h; exact ⟨rfl, h0, h1, hz⟩

/-! ## Words and their fields -/

theorem txnWord_toNat (k : BitVec 2) (a : Addr) (d : Byte) :
    (txnWord k a d).toNat = k.toNat * 2 ^ 24 + a.toNat * 2 ^ 8 + d.toNat := by
  have ha := a.isLt
  have hd := d.isLt
  unfold txnWord
  simp only [BitVec.toNat_append]
  rw [← Nat.shiftLeft_add_eq_or_of_lt hd, ← Nat.shiftLeft_add_eq_or_of_lt]
  · simp only [Nat.shiftLeft_eq]; omega
  · simp only [Nat.shiftLeft_eq]; omega

/-- A word built from its fields has them (rule R100). -/
theorem txnWord_fields (k : BitVec 2) (a : Addr) (d : Byte) :
    txnKind (txnWord k a d) = k ∧ txnAddr (txnWord k a d) = a ∧ txnData (txnWord k a d) = d := by
  have ha := a.isLt
  have hd := d.isLt
  have hk := k.isLt
  refine ⟨?_, ?_, ?_⟩ <;> apply BitVec.eq_of_toNat_eq <;>
    simp only [txnKind, txnAddr, txnData, BitVec.extractLsb'_toNat, txnWord_toNat, Nat.shiftRight_eq_div_pow] <;> omega

/-- An I/O word built from its fields has them, and 0 in bits 23:16 (rule R100). -/
theorem ioWord_fields (k : BitVec 2) (p : Port) (d : Byte) :
    txnKind (ioWord k p d) = k ∧ txnHigh (ioWord k p d) = 0#8 ∧ txnPort (ioWord k p d) = p ∧ txnData (ioWord k p d) = d := by
  have hp := p.isLt
  have hd := d.isLt
  have hk := k.isLt
  have e : ((0#8 ++ p : BitVec 16)).toNat = p.toNat := by rw [BitVec.toNat_append]; simp
  refine ⟨?_, ?_, ?_, ?_⟩ <;> apply BitVec.eq_of_toNat_eq <;>
    simp only [ioWord, txnKind, txnHigh, txnPort, txnData, BitVec.extractLsb'_toNat, txnWord_toNat,
      Nat.shiftRight_eq_div_pow, e, BitVec.toNat_ofNat] <;> omega

end Sys2Proof
end

