-- ==== Sys2Proof/Laws/Ops.lean ====
section
/-!
SUPPORT. Laws/Ops.lean: for each shared operation, once, everything it can do.
-/

namespace Sys2Proof.Machine

/-! ## Ends of transactions -/

theorem State.finishRead_of_value {s : State} {h : Handled (List Slot)} (hf : h.fault = none) :
    s.finishRead h = { s with devs := h.dev, returns := { s.returns with cpu := some (h.value.getD 0#8) } } := by
  simp [State.finishRead, hf, State.answerByte]

theorem State.finishRead_of_fault {s : State} {h : Handled (List Slot)} {f : ModelFault} (hf : h.fault = some f) :
    s.finishRead h =
      { s with
        devs := h.dev, dbg := { s.dbg with fault := s.dbg.fault.or (some f) }, phase := .idle,
        returns := { s.returns with cpu := none, host := some .aborted } } := by
  simp [State.finishRead, hf, State.raise]

theorem State.finishWrite_of_done {s : State} {h : Handled (List Slot)} (hf : h.fault = none) :
    s.finishWrite h = { s with devs := h.dev, returns := { s.returns with cpu := none } } := by
  simp [State.finishWrite, hf, State.answerNothing]

theorem State.finishWrite_of_fault {s : State} {h : Handled (List Slot)} {f : ModelFault} (hf : h.fault = some f) :
    s.finishWrite h =
      { s with
        devs := h.dev, dbg := { s.dbg with fault := s.dbg.fault.or (some f) }, phase := .idle,
        returns := { s.returns with cpu := none, host := some .aborted } } := by
  simp [State.finishWrite, hf, State.raise]

/-! ## One device's row -/

/-- If the row of a readable register answers a next state, the device was there and its handler ran on it. -/
theorem State.readDevice_next {s t : State} {i : Nat} {f : Slot → Option (Handled Slot)} (h : s.readDevice i f = .next t) :
    ∃ d x, s.devs[i]? = some d ∧ f d = some x ∧ t = s.finishRead (x.map fun d' => s.devs.set i d') := by
  unfold State.readDevice at h
  split at h
  · cases h
  · split at h
    · cases h
    · cases h; exact ⟨_, _, ‹_›, ‹_›, rfl⟩

/-- If the row of a writable register answers a next state, the device was there and its handler ran on it. -/
theorem State.writeDevice_next {s t : State} {i : Nat} {f : Slot → Option (Handled Slot)} (h : s.writeDevice i f = .next t) :
    ∃ d x, s.devs[i]? = some d ∧ f d = some x ∧ t = s.finishWrite (x.map fun d' => s.devs.set i d') := by
  unfold State.writeDevice at h
  split at h
  · cases h
  · split at h
    · cases h
    · cases h; exact ⟨_, _, ‹_›, ‹_›, rfl⟩

theorem State.readDevice_eq {s : State} {i : Nat} {f : Slot → Option (Handled Slot)} {d : Slot} {x : Handled Slot}
    (hd : s.devs[i]? = some d) (hx : f d = some x) :
    s.readDevice i f = .next (s.finishRead (x.map fun d' => s.devs.set i d')) := by
  simp [State.readDevice, hd, hx]

theorem State.writeDevice_eq {s : State} {i : Nat} {f : Slot → Option (Handled Slot)} {d : Slot} {x : Handled Slot}
    (hd : s.devs[i]? = some d) (hx : f d = some x) :
    s.writeDevice i f = .next (s.finishWrite (x.map fun d' => s.devs.set i d')) := by
  simp [State.writeDevice, hd, hx]

/-- Replacing one device by one with the same configuration entry and memory bytes, and answering on the CPU's return path. -/
theorem SameOutsideDevice.of_set {s : State} {i : Nat} {d d' : Slot} {v : Option Byte} (hd : s.devs[i]? = some d)
    (hk : d'.descriptor = d.descriptor) (hr : d'.device.region = d.device.region) :
    SameOutsideDevice i s { s with devs := s.devs.set i d', returns := { s.returns with cpu := v } } where
  others j hj := List.getElem?_set_ne (fun h => hj h.symm)
  config := by simp [State.config, State.devices, map_descriptor_set hd hk]
  memory a := memRead_congr (map_region_set hd hr) a
  dbg := rfl
  eng := rfl
  phase := rfl
  bus := rfl
  host := rfl
  hostIn := rfl
  callbackIn := rfl
  engineIn := rfl

/-! ## Offering an access to every device -/

/-- When no handler faults, every device's handler has run, and the first value answers. -/
theorem offerAll_of_no_fault {offer : Slot → Handled Slot} :
    ∀ {devs : List Slot}, (∀ d ∈ devs, (offer d).fault = none) →
      offerAll offer devs =
        { dev := devs.map fun d => (offer d).dev, value := devs.findSome? fun d => (offer d).value, fault := none }
  | [], _ => rfl
  | d :: ds, h => by
    have hd := h d List.mem_cons_self
    have ih := offerAll_of_no_fault (devs := ds) fun x hx => h x (List.mem_cons_of_mem _ hx)
    simp only [offerAll, hd, ih, List.map_cons, List.findSome?_cons]
    cases (offer d).value <;> rfl

/-- The first handler that faults ends the access. -/
theorem offerAll_of_fault {offer : Slot → Handled Slot} {d : Slot} {post : List Slot} {f : ModelFault}
    (hd : (offer d).fault = some f) :
    ∀ {pre : List Slot}, (∀ x ∈ pre, (offer x).fault = none) →
      (offerAll offer (pre ++ d :: post)).dev = (pre.map fun x => (offer x).dev) ++ (offer d).dev :: post ∧
      (offerAll offer (pre ++ d :: post)).fault = some f
  | [], _ => by simp [offerAll, hd]
  | x :: pre, h => by
    have hx := h x List.mem_cons_self
    have ih := offerAll_of_fault hd (post := post) (pre := pre) fun y hy => h y (List.mem_cons_of_mem _ hy)
    simp only [List.cons_append, offerAll, hx, ih, List.map_cons]
    exact ⟨trivial, trivial⟩

/-- Either no device's handler faults, or a first one does. -/
theorem offer_fault_cases (offer : Slot → Handled Slot) :
    ∀ devs : List Slot, (∀ d ∈ devs, (offer d).fault = none) ∨
      ∃ pre d post f, devs = pre ++ d :: post ∧ (∀ x ∈ pre, (offer x).fault = none) ∧ (offer d).fault = some f
  | [] => .inl (by simp)
  | d :: ds => by
    cases hd : (offer d).fault with
    | some f => exact .inr ⟨[], d, ds, f, rfl, by simp, hd⟩
    | none =>
      rcases offer_fault_cases offer ds with h | ⟨pre, e, post, f, rfl, hp, he⟩
      · left; intro x hx
        rcases List.mem_cons.1 hx with rfl | hx
        · exact hd
        · exact h x hx
      · refine .inr ⟨d :: pre, e, post, f, rfl, ?_, he⟩
        intro x hx
        rcases List.mem_cons.1 hx with rfl | hx
        · exact hd
        · exact hp x hx

/-- What is true of every device's own step from an access is true of the list, device by device. -/
theorem offerAll_dev_getElem? {offer : Slot → Handled Slot} :
    ∀ {devs : List Slot} {i : Nat} {d : Slot}, devs[i]? = some d →
      (offerAll offer devs).dev[i]? = some (offer d).dev ∨ (offerAll offer devs).dev[i]? = some d
  | [], _, _, h => by simp at h
  | x :: xs, i, d, h => by
    cases hx : (offer x).fault with
    | some f =>
      cases i with
      | zero => simp at h; subst h; left; simp [offerAll, hx]
      | succ i => simp at h; right; simp [offerAll, hx, h]
    | none =>
      cases i with
      | zero => simp at h; subst h; left; simp [offerAll, hx]
      | succ i =>
        simp at h
        have ih := offerAll_dev_getElem? (offer := offer) h
        simpa [offerAll, hx] using ih

theorem offerAll_dev_length (offer : Slot → Handled Slot) :
    ∀ devs : List Slot, (offerAll offer devs).dev.length = devs.length
  | [] => rfl
  | d :: ds => by
    have ih := offerAll_dev_length offer ds
    simp only [offerAll]; split <;> simp [ih]

/-- An access through handlers that keep every device's configuration entry keeps the list's. -/
theorem offerAll_map_descriptor {offer : Slot → Handled Slot} (hk : ∀ d, (offer d).Keeps d) (devs : List Slot) :
    (offerAll offer devs).dev.map Slot.descriptor = devs.map Slot.descriptor := by
  apply List.ext_getElem?
  intro i
  simp only [List.getElem?_map]
  cases h : devs[i]? with
  | none =>
    rw [List.getElem?_eq_none_iff.2]
    rw [offerAll_dev_length]; exact List.getElem?_eq_none_iff.1 h
  | some d =>
    rcases offerAll_dev_getElem? (offer := offer) h with h' | h' <;> simp [h', (hk d).1]

/-- An access through handlers that keep every memory region keeps memory. -/
theorem offerAll_map_region {offer : Slot → Handled Slot} (hk : ∀ d, (offer d).Keeps d) (devs : List Slot) :
    ((offerAll offer devs).dev.map fun d => d.device.region) = devs.map fun d => d.device.region := by
  apply List.ext_getElem?
  intro i
  simp only [List.getElem?_map]
  cases h : devs[i]? with
  | none =>
    rw [List.getElem?_eq_none_iff.2]
    rw [offerAll_dev_length]; exact List.getElem?_eq_none_iff.1 h
  | some d =>
    rcases offerAll_dev_getElem? (offer := offer) h with h' | h' <;> simp [h', (hk d).2]

/-! ## Writes to the claimant -/

theorem writeClaimant_unclaimed {devs : List Slot} {a : Addr} (h : Unclaimed devs a) (f : Device → Device) :
    writeClaimant devs a f = devs := by
  simp [writeClaimant, h.claimant_eq]

theorem writeClaimant_first {devs : List Slot} {a : Addr} {i : Nat} {r : Region} {d : Slot} (h : FirstRegion devs a i r)
    (hd : devs[i]? = some d) (f : Device → Device) :
    writeClaimant devs a f = devs.set i { d with device := f d.device } := by
  simp only [writeClaimant, h.claimant_eq]
  exact modify_eq_set hd _

/-! ## Memory after a write to the claimant -/

/-- Setting an element to itself. -/
theorem set_getElem?_self {α : Type} {l : List α} {i : Nat} {d : α} (h : l[i]? = some d) : l.set i d = l := by
  obtain ⟨hi, rfl⟩ := List.getElem?_eq_some_iff.1 h
  simp

theorem regionAt_set {devs : List Slot} {i j : Nat} {d d' : Slot} (h : devs[i]? = some d) :
    regionAt (devs.set i d') j = if i = j then d'.device.region else regionAt devs j := by
  obtain ⟨hi, _⟩ := List.getElem?_eq_some_iff.1 h
  unfold regionAt
  rw [List.getElem?_set]
  by_cases e : i = j
  · subst j; simp [hi]
  · simp [e]

/-- Every memory read after a byte is stored in the first region that covers its address (rules R142, R152). -/
theorem memRead_put {devs : List Slot} {a : Addr} {i : Nat} {r : Region} {d d' : Slot} (h : FirstRegion devs a i r)
    (hd : devs[i]? = some d) {v} (hr' : d'.device.region = some (r.put a v)) (b : Addr) :
    memRead (devs.set i d') b = if b = a then v else memRead devs b := by
  have hdr : d.device.region = some r := by
    obtain ⟨d0, h0, h1⟩ := regionAt_eq_some_iff.1 h.1
    rw [hd] at h0; cases h0; exact h1
  have hclaim : claimant (devs.set i d') b = claimant devs b := by
    rw [claimant_eq_findIdx?, claimant_eq_findIdx?]
    have : ∀ f : Option Region → Bool, f (some (r.put a v)) = f (some r) →
      ((devs.set i d').map fun d => d.device.region).findIdx? f = (devs.map fun d => d.device.region).findIdx? f := by
      intro f hf
      have e : ((devs.set i d').map fun d => d.device.region).map f = (devs.map fun d => d.device.region).map f := by
        apply List.ext_getElem?
        intro j
        simp only [List.getElem?_map, List.getElem?_set]
        obtain ⟨hi, _⟩ := List.getElem?_eq_some_iff.1 hd
        split
        · subst j; simp [hi, hr', hf]
          rw [List.getElem?_eq_getElem hi] at hd
          cases hd; rw [hdr]
        · rfl
      have e2 : ∀ l : List (Option Region), l.findIdx? f = (l.map f).findIdx? id := by
        intro l; rw [List.findIdx?_map]; rfl
      rw [e2, e2, e]
    exact this _ rfl
  unfold memRead
  rw [hclaim]
  cases hc : claimant devs b with
  | none =>
    have : b ≠ a := by rintro rfl; rw [h.claimant_eq] at hc; cases hc
    simp [this]
  | some j =>
    simp only
    rw [regionAt_set hd]
    by_cases hij : i = j
    · subst j
      rw [if_pos rfl, hr', h.1]
      obtain ⟨q, hq⟩ := claimant_eq_some_iff.1 hc
      have : q = r := Option.some.inj (hq.1.symm.trans h.1)
      subst this
      simp only [Region.put, Region.offset, Memory.read_write]
      have hb := hq.2.1; have ha := h.2.1
      unfold Region.covers at hb ha
      by_cases hba : b = a
      · subst hba; simp
      · rw [if_neg hba, if_neg]
        intro e
        apply hba; apply BitVec.eq_of_toNat_eq; omega
    · rw [if_neg hij]
      have : b ≠ a := by rintro rfl; rw [h.claimant_eq] at hc; cases hc; exact hij rfl
      simp [this]

/-! ## Host operations -/

theorem State.unlessFaulted_of_none {s t : State} (h : s.dbg.fault = none) : s.unlessFaulted t = t := by
  simp [State.unlessFaulted, h]

theorem State.unlessFaulted_of_some {s t : State} (h : s.dbg.fault ≠ none) : s.unlessFaulted t = s.refuse .faulted := by
  have : s.dbg.fault.isSome = true := Option.isSome_iff_ne_none.2 h
  simp [State.unlessFaulted, this]

/-- What a host operation that checks for a fault does. -/
theorem State.unlessFaulted_cases (s t : State) :
    (s.dbg.fault = none ∧ s.unlessFaulted t = t) ∨ (s.dbg.fault ≠ none ∧ s.unlessFaulted t = s.refuse .faulted) := by
  by_cases h : s.dbg.fault = none
  · exact .inl ⟨h, State.unlessFaulted_of_none h⟩
  · exact .inr ⟨h, State.unlessFaulted_of_some h⟩

theorem badAddrs_single (a : Nat) : badAddrs [a] = if 0xFFFF < a then [a] else [] := by
  by_cases h : 0xFFFF < a <;> simp [badAddrs, h]

theorem badBytes_single (v : Nat) : badBytes [v] = if 255 < v then [v] else [] := by
  by_cases h : 255 < v <;> simp [badBytes, h]

theorem State.withAddr_eq (s t : State) (a : Nat) :
    s.withAddr a t = if 0xFFFF < a then s.refuse (.badValue [a]) else t := by
  unfold State.withAddr
  rw [badAddrs_single]
  by_cases h : 0xFFFF < a <;> simp [h]

/-! ## The debug controller -/

/-- What the start of a CONTINUE can do. -/
theorem State.beginCall_cases (s : State) (max : Option Nat) :
    (s.dbg.runState = .halted ∧ s.beginCall max = s.reply (.cycles 0)) ∨
    (s.dbg.runState ≠ .halted ∧ s.beginCall max =
      { s with
        dbg := { s.dbg with runState := .running }, phase := .engine { budget := max, total := 0 },
        returns := { s.returns with host := none } }) := by
  unfold State.beginCall
  split
  · exact .inl ⟨‹_›, rfl⟩
  · exact .inr ⟨‹_›, rfl⟩

/-- What a CONTINUE or STEP can do. -/
theorem State.continueWith_cases (s : State) (max : Option Nat) :
    (s.dbg.fault ≠ none ∧ s.continueWith max = s.refuse .faulted) ∨
    (s.dbg.fault = none ∧ s.dbg.inCallback = true ∧ s.continueWith max = s.refuse .reentrant) ∨
    (s.dbg.fault = none ∧ s.dbg.inCallback = false ∧ s.continueWith max = s.beginCall max) := by
  unfold State.continueWith
  rcases s.unlessFaulted_cases (if s.dbg.inCallback then s.refuse .reentrant else s.beginCall max) with ⟨h, e⟩ | ⟨h, e⟩
  · cases hc : s.dbg.inCallback
    · exact .inr (.inr ⟨h, rfl, by simpa [hc] using e⟩)
    · exact .inr (.inl ⟨h, rfl, by simpa [hc] using e⟩)
  · exact .inl ⟨h, e⟩

/-- What the stop checks can do. -/
theorem State.finishIteration_cases (s : State) (call : Call) (pcS : Addr) :
    (s.eng.halted = true ∧ s.finishIteration call pcS = s.endCall call .halted) ∨
    (s.eng.halted = false ∧ s.isBreakpoint pcS.toNat = true ∧ s.finishIteration call pcS = s.endCall call .breakHit) ∨
    (s.eng.halted = false ∧ s.isBreakpoint pcS.toNat = false ∧ call.exhausted = true ∧
      s.finishIteration call pcS = s.endCall call .running) ∨
    (s.eng.halted = false ∧ s.isBreakpoint pcS.toNat = false ∧ call.exhausted = false ∧
      s.finishIteration call pcS = { s with phase := .engine call }) := by
  unfold State.finishIteration State.isBreakpoint
  cases s.eng.halted <;> cases (mapGet s.dbg.breakpoints pcS.toNat).isSome <;> cases call.exhausted <;> simp

theorem Call.exhausted_iff (call : Call) : call.exhausted = true ↔ ∃ max, call.budget = some max ∧ max ≤ call.total := by
  unfold Call.exhausted
  cases call.budget <;> simp

/-- What the rest of an iteration can do after its clock batch. -/
theorem State.afterBatch_cases (s : State) (call : Call) (bs : BusState) :
    (∃ cb, mapGet s.dbg.tracepoints s.eng.pc.toNat = some cb ∧
      s.afterBatch call bs = (s.driveInterrupts bs).enterCallback call s.eng.pc cb) ∨
    (mapGet s.dbg.tracepoints s.eng.pc.toNat = none ∧
      s.afterBatch call bs = (s.driveInterrupts bs).finishIteration call s.eng.pc) := by
  unfold State.afterBatch
  cases h : mapGet s.dbg.tracepoints s.eng.pc.toNat with
  | some cb => left; refine ⟨cb, rfl, ?_⟩; simp [h]
  | none => right; refine ⟨rfl, ?_⟩; simp [h]

/-- What the end of `Engine.step()` can do. -/
theorem State.engineReturns_cases (s : State) (call : Call) (c : Nat) (pc : Addr) (h : Bool) :
    (c = 0 ∧ s.engineReturns call c pc h =
      State.raise { s with eng := { s.eng with pc := pc, halted := h } } (.engineContract 0)) ∨
    (1 ≤ c ∧ s.engineReturns call c pc h =
      { s with
        eng := { s.eng with pc := pc, halted := h },
        dbg := { s.dbg with cyclesTotal := s.dbg.cyclesTotal + c },
        phase := .clock { call with total := call.total + c } c }) := by
  unfold State.engineReturns
  by_cases hc : c < 1
  · left; have : c = 0 := by omega
    subst this; exact ⟨rfl, by simp⟩
  · right; exact ⟨by omega, by simp [hc]⟩

/-! ## The step -/

/-- What a step of an idle machine does with the host's next action. -/
theorem step_idle {s : State} (h : s.phase = .idle) :
    step s = match s.hostIn with
      | [] => .next s
      | a :: rest => hostStep a { s with hostIn := rest } := by
  cases hq : s.hostIn <;> simp [step, turn, h, hq]

theorem step_engine {s : State} {call : Call} (h : s.phase = .engine call) :
    step s = match s.engineIn with
      | [] => .next s
      | e :: rest => engineStep e call { s with engineIn := rest } := by
  cases hq : s.engineIn <;> simp [step, turn, h, hq]

theorem step_clock {s : State} {call : Call} {c : Nat} (h : s.phase = .clock call c) : step s = clockStep call c s := by
  simp [step, turn, h]

theorem step_callback {s : State} {call : Call} {pcS : Addr} {cb : Callback} (h : s.phase = .callback call pcS cb) :
    step s = match s.callbackIn with
      | [] => .next s
      | a :: rest => callbackStep a call pcS { s with callbackIn := rest } := by
  cases hq : s.callbackIn <;> simp [step, turn, h, hq]

theorem issue_ok {c : Command} {s : State} {i : Instr} (h : decode s.devices c = .ok i) : issue c s = exec i s := by
  simp [issue, h]

/-- The clock batch always answers, with its bus state. -/
theorem clockStep_eq (call : Call) (c : Nat) (s : State) :
    clockStep call c s = .next (State.afterBatch
      { s with
        devs := (clockAll c s.devs).1,
        returns := { s.returns with bus := some (clockAll c s.devs).2.busState } }
      call (clockAll c s.devs).2.busState) := rfl

end Sys2Proof.Machine
end

