-- ==== Sys2Proof/Laws/PerInstr.lean ====
section
/-!
SUPPORT. Laws/PerInstr.lean: one statement about every operation as syntax: the command the encoder gives it carries the bits its
row of opcode_table.json fixes.
-/

namespace Sys2Proof.Laws.EncodedAsRow

/-- The fixed bits of a row of opcode_table.json: a transaction word with a mask and a match, a host code, or no word at all. -/
inductive Row where
  | word (mask pattern : TxnWord)
  | host (code : BitVec 8)
  | control
deriving DecidableEq, Repr

/-- The row of each operation, as the table has it. -/
def rowOf : Instr → Row
  | .memRd _ => .word 0x3000000#26 0x0000000#26
  | .memWr _ _ => .word 0x3000000#26 0x1000000#26
  | .ioRd _ => .word 0x3FF0000#26 0x2000000#26
  | .ioWr _ _ => .word 0x3FF0000#26 0x3000000#26
  | .clock _ => .control
  | .serIn _ => .word 0x3FF0000#26 0x2000000#26
  | .serReady _ => .word 0x3FF0000#26 0x2000000#26
  | .serOut _ _ => .word 0x3FF0000#26 0x3000000#26
  | .tmrCount _ _ => .word 0x3FF0000#26 0x3000000#26
  | .tmrControl _ _ => .word 0x3FF0000#26 0x3000000#26
  | .bdDataRd _ => .word 0x3FF0000#26 0x2000000#26
  | .bdDataWr _ _ => .word 0x3FF0000#26 0x3000000#26
  | .bdLba0 _ _ => .word 0x3FF0000#26 0x3000000#26
  | .bdLba1 _ _ => .word 0x3FF0000#26 0x3000000#26
  | .bdLba2 _ _ => .word 0x3FF0000#26 0x3000000#26
  | .bdLba3 _ _ => .word 0x3FF0000#26 0x3000000#26
  | .bdStatus _ => .word 0x3FF0000#26 0x2000000#26
  | .bdCmdReadSector _ => .word 0x3FF00FF#26 0x3000020#26
  | .bdCmdWriteSector _ => .word 0x3FF00FF#26 0x3000030#26
  | .bdCmdOther _ _ => .word 0x3FF0000#26 0x3000000#26
  | .continueRun _ => .host 0x01#8
  | .stepOne => .host 0x02#8
  | .setBreakpoint _ => .host 0x03#8
  | .removeBreakpoint _ => .host 0x04#8
  | .registerTracepoint _ _ => .host 0x05#8
  | .queryHalted => .host 0x06#8
  | .queryBreak => .host 0x07#8
  | .readMemory _ => .host 0x08#8
  | .writeMemory _ _ => .host 0x09#8
  | .serialPuts _ _ => .host 0x0A#8
  | .serialGets _ _ => .host 0x0B#8
  | .bdReadByte _ _ _ => .host 0x0C#8

/-- A command carries a row's fixed bits. -/
def fits : Command → Row → Prop
  | .txn w, .word mask pattern => w &&& mask = pattern
  | .host r, .host code => r.code = code
  | .clock _, .control => True
  | _, _ => False

/-- Under every device list, the encoding of the operation carries its row's fixed bits. -/
def Statement (i : Instr) : Prop :=
  ∀ devs : List Descriptor, fits (encode devs i) (rowOf i)

/-- Words are masked field by field. -/
theorem txnWord_and (k m : BitVec 2) (a b : Addr) (d e : Byte) :
    txnWord k a d &&& txnWord m b e = txnWord (k &&& m) (a &&& b) (d &&& e) := by
  unfold txnWord
  exact BitVec.and_append.trans (by rw [BitVec.and_append])

/-- The kind bits of a transaction word. -/
theorem txnWord_and_kind (k : BitVec 2) (a : Addr) (d : Byte) : txnWord k a d &&& 0x3000000#26 = txnWord k 0#16 0#8 := by
  have h := txnWord_and k 3#2 a 0#16 d 0#8
  rw [show txnWord 3#2 0#16 0#8 = 0x3000000#26 from rfl] at h
  rw [h, show (3#2 : BitVec 2) = BitVec.allOnes 2 from rfl, BitVec.and_allOnes, BitVec.and_zero, BitVec.and_zero]

/-- The kind bits of an I/O word, and its bits 23:16. -/
theorem ioWord_and_kind (k : BitVec 2) (p : Port) (d : Byte) : ioWord k p d &&& 0x3FF0000#26 = txnWord k 0#16 0#8 := by
  have h := txnWord_and k 3#2 (0#8 ++ p) (0xFF#8 ++ 0#8) d 0#8
  rw [show txnWord 3#2 (0xFF#8 ++ 0#8) 0#8 = 0x3FF0000#26 from rfl] at h
  unfold ioWord
  rw [h, show (3#2 : BitVec 2) = BitVec.allOnes 2 from rfl, BitVec.and_allOnes, BitVec.and_zero, BitVec.and_append, BitVec.and_zero]
  rfl

/-- The same with the data byte. -/
theorem ioWord_and_data (k : BitVec 2) (p : Port) (d : Byte) : ioWord k p d &&& 0x3FF00FF#26 = txnWord k 0#16 d := by
  have h := txnWord_and k 3#2 (0#8 ++ p) (0xFF#8 ++ 0#8) d 0xFF#8
  rw [show txnWord 3#2 (0xFF#8 ++ 0#8) 0xFF#8 = 0x3FF00FF#26 from rfl] at h
  unfold ioWord
  rw [h, show (3#2 : BitVec 2) = BitVec.allOnes 2 from rfl, BitVec.and_allOnes,
    show (0xFF#8 : BitVec 8) = BitVec.allOnes 8 from rfl,
    BitVec.and_allOnes, BitVec.and_append, BitVec.and_zero]
  rfl

theorem memRd (a : Addr) : Statement (.memRd a) := fun _ => (txnWord_and_kind _ _ _).trans rfl

theorem memWr (a : Addr) (v : Byte) : Statement (.memWr a v) := fun _ => (txnWord_and_kind _ _ _).trans rfl

theorem ioRd (p : Port) : Statement (.ioRd p) := fun _ => (ioWord_and_kind _ _ _).trans rfl

theorem ioWr (p : Port) (v : Byte) : Statement (.ioWr p v) := fun _ => (ioWord_and_kind _ _ _).trans rfl

theorem clock (c : Nat) : Statement (.clock c) := fun _ => trivial

theorem serIn (i : Nat) : Statement (.serIn i) := fun _ => (ioWord_and_kind _ _ _).trans rfl

theorem serReady (i : Nat) : Statement (.serReady i) := fun _ => (ioWord_and_kind _ _ _).trans rfl

theorem serOut (i : Nat) (v : Byte) : Statement (.serOut i v) := fun _ => (ioWord_and_kind _ _ _).trans rfl

theorem tmrCount (i : Nat) (v : Byte) : Statement (.tmrCount i v) := fun _ => (ioWord_and_kind _ _ _).trans rfl

theorem tmrControl (i : Nat) (v : Byte) : Statement (.tmrControl i v) := fun _ => (ioWord_and_kind _ _ _).trans rfl

theorem bdDataRd (i : Nat) : Statement (.bdDataRd i) := fun _ => (ioWord_and_kind _ _ _).trans rfl

theorem bdDataWr (i : Nat) (v : Byte) : Statement (.bdDataWr i v) := fun _ => (ioWord_and_kind _ _ _).trans rfl

theorem bdLba0 (i : Nat) (v : Byte) : Statement (.bdLba0 i v) := fun _ => (ioWord_and_kind _ _ _).trans rfl

theorem bdLba1 (i : Nat) (v : Byte) : Statement (.bdLba1 i v) := fun _ => (ioWord_and_kind _ _ _).trans rfl

theorem bdLba2 (i : Nat) (v : Byte) : Statement (.bdLba2 i v) := fun _ => (ioWord_and_kind _ _ _).trans rfl

theorem bdLba3 (i : Nat) (v : Byte) : Statement (.bdLba3 i v) := fun _ => (ioWord_and_kind _ _ _).trans rfl

theorem bdStatus (i : Nat) : Statement (.bdStatus i) := fun _ => (ioWord_and_kind _ _ _).trans rfl

theorem bdCmdReadSector (i : Nat) : Statement (.bdCmdReadSector i) := fun _ => (ioWord_and_data _ _ _).trans rfl

theorem bdCmdWriteSector (i : Nat) : Statement (.bdCmdWriteSector i) := fun _ => (ioWord_and_data _ _ _).trans rfl

theorem bdCmdOther (i : Nat) (v : Byte) : Statement (.bdCmdOther i v) := fun _ => (ioWord_and_kind _ _ _).trans rfl

theorem continueRun (m : Option Nat) : Statement (.continueRun m) := fun _ => rfl

theorem stepOne : Statement .stepOne := fun _ => rfl

theorem setBreakpoint (a : Nat) : Statement (.setBreakpoint a) := fun _ => rfl

theorem removeBreakpoint (a : Nat) : Statement (.removeBreakpoint a) := fun _ => rfl

theorem registerTracepoint (a : Nat) (cb : Callback) : Statement (.registerTracepoint a cb) := fun _ => rfl

theorem queryHalted : Statement .queryHalted := fun _ => rfl

theorem queryBreak : Statement .queryBreak := fun _ => rfl

theorem readMemory (a : Nat) : Statement (.readMemory a) := fun _ => rfl

theorem writeMemory (a v : Nat) : Statement (.writeMemory a v) := fun _ => rfl

theorem serialPuts (n : Name) (bs : List Nat) : Statement (.serialPuts n bs) := fun _ => rfl

theorem serialGets (n : Name) (c : Option Nat) : Statement (.serialGets n c) := fun _ => rfl

theorem bdReadByte (n : Name) (s o : Nat) : Statement (.bdReadByte n s o) := fun _ => rfl

end Sys2Proof.Laws.EncodedAsRow
end

