-- ==== Sys2Proof/Laws/Ports.lean ====
section
/-!
SUPPORT. Laws/Ports.lean: the port map, and accesses that one device alone takes part in.
-/

namespace Sys2Proof.Machine

theorem sole_eq {α} {l : List α} {x} (h : sole l = some x) : l = [x] := by
  unfold sole at h; split at h <;> simp_all

theorem readersFrom_eq_nil {p : Port} : ∀ {k devs}, readersFrom p k devs = [] → ∀ d ∈ devs, d.desc.readReg p = none
  | _, [], _, d, hd => by simp at hd
  | k, d :: ds, h, x, hx => by
    simp only [readersFrom] at h
    split at h
    · rcases List.mem_cons.1 hx with rfl | hx
      · assumption
      · exact readersFrom_eq_nil h x hx
    · cases h

/-- What it means that one device alone recognizes a read (rule R110). -/
theorem readersFrom_eq_singleton {p : Port} {i r} : ∀ {k devs}, readersFrom p k devs = [(i, r)] →
    ∃ pre d post, devs = pre ++ d :: post ∧ k + pre.length = i ∧ d.desc.readReg p = some r ∧
      (∀ x ∈ pre, x.desc.readReg p = none) ∧ ∀ x ∈ post, x.desc.readReg p = none
  | _, [], h => by simp [readersFrom] at h
  | k, d :: ds, h => by
    simp only [readersFrom] at h
    split at h
    · rename_i hd
      obtain ⟨pre, d', post, rfl, hk, hr, h1, h2⟩ := readersFrom_eq_singleton h
      refine ⟨d :: pre, d', post, rfl, by simp; omega, hr, ?_, h2⟩
      intro x hx; rcases List.mem_cons.1 hx with rfl | hx
      · exact hd
      · exact h1 x hx
    · rename_i r' hd
      simp only [List.cons.injEq, Prod.mk.injEq] at h
      obtain ⟨⟨rfl, rfl⟩, h⟩ := h
      exact ⟨[], d, ds, rfl, rfl, hd, by simp, readersFrom_eq_nil h⟩

theorem writersFrom_eq_nil {p : Port} : ∀ {k devs}, writersFrom p k devs = [] → ∀ d ∈ devs, d.desc.writeReg p = none
  | _, [], _, d, hd => by simp at hd
  | k, d :: ds, h, x, hx => by
    simp only [writersFrom] at h
    split at h
    · rcases List.mem_cons.1 hx with rfl | hx
      · assumption
      · exact writersFrom_eq_nil h x hx
    · cases h

/-- What it means that one device alone recognizes a write (rule R110). -/
theorem writersFrom_eq_singleton {p : Port} {i r} : ∀ {k devs}, writersFrom p k devs = [(i, r)] →
    ∃ pre d post, devs = pre ++ d :: post ∧ k + pre.length = i ∧ d.desc.writeReg p = some r ∧
      (∀ x ∈ pre, x.desc.writeReg p = none) ∧ ∀ x ∈ post, x.desc.writeReg p = none
  | _, [], h => by simp [writersFrom] at h
  | k, d :: ds, h => by
    simp only [writersFrom] at h
    split at h
    · rename_i hd
      obtain ⟨pre, d', post, rfl, hk, hr, h1, h2⟩ := writersFrom_eq_singleton h
      refine ⟨d :: pre, d', post, rfl, by simp; omega, hr, ?_, h2⟩
      intro x hx; rcases List.mem_cons.1 hx with rfl | hx
      · exact hd
      · exact h1 x hx
    · rename_i r' hd
      simp only [List.cons.injEq, Prod.mk.injEq] at h
      obtain ⟨⟨rfl, rfl⟩, h⟩ := h
      exact ⟨[], d, ds, rfl, rfl, hd, by simp, writersFrom_eq_nil h⟩

theorem offerAll_of_absent {offer : Slot → Handled Slot} :
    ∀ {ds}, (∀ d ∈ ds, offer d = Handled.absent d) → offerAll offer ds = Handled.absent ds
  | [], _ => rfl
  | d :: ds, h => by
    simp [offerAll, h d (by simp), offerAll_of_absent (fun x hx => h x (List.mem_cons_of_mem _ hx)), Handled.absent]

theorem offerAll_append_of_absent {offer : Slot → Handled Slot} {rest} : ∀ {pre}, (∀ d ∈ pre, offer d = Handled.absent d) →
    offerAll offer (pre ++ rest) =
      { dev := pre ++ (offerAll offer rest).dev, value := (offerAll offer rest).value, fault := (offerAll offer rest).fault }
  | [], _ => rfl
  | d :: ds, h => by
    simp [offerAll, h d (by simp), offerAll_append_of_absent (fun x hx => h x (List.mem_cons_of_mem _ hx)), Handled.absent]

/-- An access that only one device takes part in is that device's. -/
theorem offerAll_sole {offer : Slot → Handled Slot} {pre d post} (h : ∀ d ∈ pre, offer d = Handled.absent d)
    (h' : ∀ d ∈ post, offer d = Handled.absent d) :
   (offerAll offer (pre ++ d :: post)).dev = pre ++ (offer d).dev :: post ∧
      (offerAll offer (pre ++ d :: post)).fault = (offer d).fault ∧
   ((offer d).fault = none → (offerAll offer (pre ++ d :: post)).value = (offer d).value) := by
  rw [offerAll_append_of_absent h]
  simp only [offerAll, offerAll_of_absent h', Handled.absent]
  cases hf : (offer d).fault <;> simp

/-- The row of a readable register runs its read handler. -/
theorem exec_readRow (s : State) (i r) : exec (readRow i r) s = s.readDevice i (fun d => d.readHandler s.params r) := by
  cases r <;> rfl

theorem onDrive_congr {f g : Name → BlockDrive → Handled BlockDrive} (h : ∀ n b, f n b = g n b) (d : Slot) :
    d.onDrive f = d.onDrive g := by
  have : f = g := by funext n b; exact h n b
  rw [this]

/-- The row of a writable register runs its write handler. -/
theorem exec_writeRow (s : State) (i v r) : exec (writeRow i v r) s = s.writeDevice i (fun d => d.writeHandler s.params v r) := by
  cases r
  case bdCmd =>
    have key : ∀ f : Name → BlockDrive → Handled BlockDrive, (∀ n b, f n b = BlockDrive.command v n b) →
        s.writeDevice i (Slot.onDrive f) = s.writeDevice i (fun d => d.writeHandler s.params v .bdCmd) := by
      intro f hf
      have : Slot.onDrive f = fun d => d.writeHandler s.params v .bdCmd := by
        funext d; exact onDrive_congr hf d
      rw [this]
    simp only [writeRow]
    split
    · exact key _ (fun n b => by simp_all [BlockDrive.command])
    · split
      · exact key _ (fun n b => by simp_all [BlockDrive.command])
      · exact key _ (fun n b => by simp_all [BlockDrive.command])
  all_goals rfl

/-- A device that recognizes a read has the handler. -/
theorem Slot.readHandler_isSome {params} {d : Slot} {p r} (h : d.device.desc.readReg p = some r) :
    ∃ x, d.readHandler params r = some x := by
  obtain ⟨n, d⟩ := d
  cases d <;> simp only [Device.desc, DeviceDesc.readReg] at h
  all_goals first
   | cases h
   | (split at h
      · cases h; exact ⟨_, rfl⟩
      · split at h
        · cases h; exact ⟨_, rfl⟩
        · cases h)

/-- A device that recognizes a write has the handler. -/
theorem Slot.writeHandler_isSome {params v} {d : Slot} {p r} (h : d.device.desc.writeReg p = some r) :
    ∃ x, d.writeHandler params v r = some x := by
  obtain ⟨n, d⟩ := d
  cases d <;> simp only [Device.desc, DeviceDesc.writeReg] at h
  case serial => split at h <;> cases h; exact ⟨_, rfl⟩
  case timer =>
    split at h
    · cases h; exact ⟨_, rfl⟩
    · split at h <;> cases h; exact ⟨_, rfl⟩
  case drive =>
    repeat' split at h
    all_goals cases h
    all_goals exact ⟨_, rfl⟩
  all_goals cases h

end Sys2Proof.Machine
end

