-- ==== Sys2Proof/Laws/Serial.lean ====
section
/-!
SUPPORT. Laws/Serial.lean: index arithmetic modulo a capacity, and the unread bytes of a ring buffer.
-/

namespace Sys2Proof.Machine

theorem succ_mod_of_lt {a c : Nat} (h : a < c) : (a + 1) % c = if a + 1 = c then 0 else a + 1 := by
  split
  · rename_i e; rw [e, Nat.mod_self]
  · exact Nat.mod_eq_of_lt (by omega)

theorem add_mod_of_lt {a k c : Nat} (h : a < c) (hk : k ≤ c) : (a + k) % c = if a + k < c then a + k else a + k - c := by
  split
  · exact Nat.mod_eq_of_lt ‹_›
  · rw [Nat.mod_eq_sub_mod (by omega), Nat.mod_eq_of_lt (by omega)]

/-- The length of the unread bytes. -/
theorem Ring.unread_length {pol : SerialOverflow} {cap : Nat} {r : Ring} : (r.unread pol cap).length = r.len pol cap := by
  simp [Ring.unread]

/-- The unread bytes, one by one. -/
theorem Ring.unread_eq_iff {pol cap} {r : Ring} {l : List Byte} :
    r.unread pol cap = l ↔ r.len pol cap = l.length ∧ ∀ k, (h : k < l.length) → r.buf.read ((r.rd + k) % cap) = l[k] := by
  unfold Ring.unread
  constructor
  · rintro rfl; simp
  · rintro ⟨h1, h2⟩
    apply List.ext_getElem
    · simp [h1]
    · intro i h h'; simp [h2 i h']

/-- Under every policy the write index is the length past the read index (rules R36, R37). -/
theorem Ring.Ok.wr_eq {pol cap} {r : Ring} (h : r.Ok pol cap) :
    r.wr = (r.rd + r.len pol cap) % cap ∧ r.len pol cap ≤ cap ∧ (pol = .indexWrap → r.len pol cap < cap) := by
  obtain ⟨hm, hw, hr, hc⟩ := h
  cases pol
  · exact ⟨hc.2, hc.1, by simp⟩
  · exact ⟨hc.2, hc.1, by simp⟩
  · have : r.len .indexWrap cap = if r.rd ≤ r.wr then r.wr - r.rd else r.wr + cap - r.rd := by
      have hd : r.len .indexWrap cap = (r.wr + (cap - r.rd)) % cap := rfl
      rw [hd, add_mod_of_lt hw (by omega)]
      by_cases h1 : r.rd ≤ r.wr
      · rw [if_neg (by omega), if_pos h1]; omega
      · rw [if_pos (by omega), if_neg h1]; omega
    rw [this]
    refine ⟨?_, by split <;> omega, fun _ => by split <;> omega⟩
    split
    · rw [Nat.mod_eq_of_lt (by omega)]; omega
    · rw [add_mod_of_lt hr (by omega)]; split <;> omega

end Sys2Proof.Machine
end

