-- ==== Sys2Proof/Laws/Step.lean ====
section
/-!
SUPPORT. Laws/Step.lean: everything one step of the machine can do, said once.
-/

namespace Sys2Proof.Machine

/-- A transaction word decodes to an operation of the CPU port (rule R320). -/
theorem decodeTxn_port {devs : List Descriptor} {w : TxnWord} {i : Instr} (h : decodeTxn devs w = .ok i) :
    onCpuPort i = true := by
  rcases decodeTxn_ok h with ⟨-, rfl⟩ | ⟨-, rfl⟩ | ⟨-, -, rfl⟩ | ⟨-, -, rfl⟩
  · rfl
  · rfl
  · unfold decodeIoRead
    split
    · rename_i r _; cases r <;> rfl
    · rfl
  · unfold decodeIoWrite
    split
    · rename_i r _
      cases r <;> first | rfl | (simp only [writeRow]; split; rfl; split <;> rfl)
    · rfl

/-- A host record decodes to no operation of the CPU port (rule R320). -/
theorem decodeHost_port {r : HostRecord} {i : Instr} (h : decodeHost r = .ok i) : onCpuPort i = false := by
  rcases decodeHost_ok h with h | h | h | h | h | h | h | h | h | h | h | h <;> rw [h.2] <;> rfl

/-- A presented command that answers a next state was decoded and executed. -/
theorem issue_next {c : Command} {s t : State} (h : issue c s = .next t) :
    ∃ i, decode s.devices c = .ok i ∧ exec i s = .next t := by
  unfold issue at h
  split at h
  · exact ⟨_, ‹_›, h⟩
  · cases h
  · cases h

/-- What a step that answers `t` did. -/
inductive StepKind (s t : State) : Prop where
  /-- The agent whose turn it is had nothing to do. -/
  | stay (h : t = s)
  /-- A host operation ran. -/
  | host (i : Instr) (s' : State) (r : HostRecord) (hs : TakesHostAct s s' (.op r)) (hd : decodeHost r = .ok i)
      (h : exec i s' = .next t)
  /-- The host changed a byte of a backing store. -/
  | store (s' : State) (n : Name) (k : Nat) (v : Byte) (hs : TakesHostAct s s' (.setStore n k v)) (h : t = s'.setStoreByte n k v)
  /-- The engine issued a transaction. -/
  | txn (i : Instr) (call : Call) (w : TxnWord) (rest : List EngineEvent) (hp : s.phase = .engine call)
      (hs : s.engineIn = .txn w :: rest) (hd : decodeTxn s.devices w = .ok i) (h : exec i { s with engineIn := rest } = .next t)
  /-- `Engine.step()` returned. -/
  | ret (call : Call) (c : Nat) (pc : Addr) (halted : Bool) (rest : List EngineEvent) (hp : s.phase = .engine call)
      (hs : s.engineIn = .ret c pc halted :: rest) (h : t = State.engineReturns { s with engineIn := rest } call c pc halted)
  /-- The clock batch ran, and the iteration after it. -/
  | clock (call : Call) (c : Nat) (hp : s.phase = .clock call c)
      (h : t = State.afterBatch
        { s with devs := (clockAll c s.devs).1, returns := { s.returns with bus := some (clockAll c s.devs).2.busState } }
        call (clockAll c s.devs).2.busState)
  /-- The callback read or wrote a register of the engine. -/
  | register (call : Call) (pcS : Addr) (cb : Callback) (rest : List CallbackAct) (pc : Addr) (reply : HostReply)
      (hp : s.phase = .callback call pcS cb)
      (h : t = State.reply { s with callbackIn := rest, eng := { s.eng with pc := pc } } reply)
  /-- The callback returned. -/
  | callbackRet (call : Call) (pcS : Addr) (cb : Callback) (rest : List CallbackAct) (hp : s.phase = .callback call pcS cb)
      (hs : s.callbackIn = .ret :: rest) (h : t = State.callbackReturns { s with callbackIn := rest } call pcS)

/-- Every step that answers a next state is one of those. -/
theorem step_kind {s t : State} (h : step s = .next t) : StepKind s t := by
  cases hp : s.phase with
  | idle =>
    rw [step_idle hp] at h
    split at h
    · cases h; exact .stay rfl
    · rename_i a rest hin
      cases a with
      | op r =>
        obtain ⟨i, hd, he⟩ := issue_next h
        exact .host i _ r (.inl ⟨rest, hp, hin, rfl⟩) hd he
      | setStore n k v =>
        cases h; exact .store _ n k v (.inl ⟨rest, hp, hin, rfl⟩) rfl
  | engine call =>
    rw [step_engine hp] at h
    split at h
    · cases h; exact .stay rfl
    · rename_i e rest hin
      cases e with
      | txn w =>
        obtain ⟨i, hd, he⟩ := issue_next h
        exact .txn i call w rest hp hin hd he
      | ret c pc hl => cases h; exact .ret call c pc hl rest hp hin rfl
  | clock call c =>
    rw [step_clock hp, clockStep_eq] at h; cases h; exact .clock call c hp rfl
  | callback call pcS cb =>
    rw [step_callback hp] at h
    split at h
    · cases h; exact .stay rfl
    · rename_i a rest hin
      cases a with
      | host a =>
        cases a with
        | op r =>
          obtain ⟨i, hd, he⟩ := issue_next h
          exact .host i _ r (.inr ⟨call, pcS, cb, rest, hp, hin, rfl⟩) hd he
        | setStore n k v =>
          cases h; exact .store _ n k v (.inr ⟨call, pcS, cb, rest, hp, hin, rfl⟩) rfl
      | readRegister x a => cases h; exact .register call pcS cb rest s.eng.pc _ hp rfl
      | writeRegister x a pc => cases h; exact .register call pcS cb rest pc _ hp rfl
      | ret => cases h; exact .callbackRet call pcS cb rest hp hin rfl

end Sys2Proof.Machine
end

