-- ==== Sys2Proof/Tests/Slice0.lean ====
section
/-!
SUPPORT. Tests/Slice0.lean: the model's own tests. Words are written out from 30_encoding.md rule R100; expected values are those of
the vectors of 95_test_vectors.md, whose number each test names, or are worked from the rule it names.
-/

namespace Sys2Proof.Machine.Tests

/-- The state a result holds. -/
def nextOf : Result → Option State
  | .next t => some t
  | .fault _ => none
  | .refused _ => none

/-- The byte a transaction answered. -/
def cpuOf (r : Result) : Option (Option Byte) :=
  (nextOf r).map fun t => t.returns.cpu

/-- What a host operation answered. -/
def hostOf (r : Result) : Option HostReply :=
  (nextOf r).bind fun t => t.returns.host

/-- The bus state a clock batch answered. -/
def busOf (r : Result) : Option BusState :=
  (nextOf r).bind fun t => t.returns.bus

/-- The registers of the devices afterwards. -/
def devicesOf (r : Result) : Option (List Device) :=
  (nextOf r).map fun t => t.devs.map fun d => d.device

/-- The model fault recorded afterwards. -/
def faultOf (r : Result) : Option ModelFault :=
  (nextOf r).bind fun t => t.dbg.fault

/-- A fresh state with these devices, under the default parameters. -/
def withDevices (ds : List Slot) : State :=
  { State.initial { devices := [], params := Config.defaultParams } with devs := ds }

/-- A fresh state with the one device `d`. -/
def one (d : Device) : State :=
  withDevices [⟨"d", d⟩]

/-- A memory region with these contents. -/
def region (base : Addr) (size : Nat) (contents : Memory) : Region :=
  { desc := ⟨base, size, none⟩, contents := contents }

/-- A ring holding these bytes from index 0. -/
def ring (bs : List Byte) : Ring :=
  { buf := Memory.ofBytes bs, wr := bs.length, rd := 0, cnt := bs.length }

/-- A serial port at ports 1, 2, 3. -/
def port (cap : Nat) (toDevice fromDevice : Ring) : SerialPort :=
  { desc := ⟨0x01#8, 0x02#8, 0x03#8, cap⟩, toDevice := toDevice, fromDevice := fromDevice }

/-- A timer at ports 0x10, 0x11. -/
def timer (count : Byte) (running : Bool) : Timer :=
  { desc := ⟨0x10#8, 0x11#8⟩, count := count, running := running }

/-- The drive of 95_test_vectors.md §2.5: four sectors of four bytes, holding 1 to 16. -/
def drive : BlockDrive :=
  BlockDrive.reset Config.defaultParams ⟨0x20#8, 4, 4,
    some [1#8, 2#8, 3#8, 4#8, 5#8, 6#8, 7#8, 8#8, 9#8, 10#8, 11#8, 12#8, 13#8, 14#8, 15#8, 16#8]⟩

/-- The same drive without a file. -/
def emptyDrive : BlockDrive :=
  BlockDrive.reset Config.defaultParams ⟨0x20#8, 4, 4, none⟩

/-! ## Decoding: a word of every row, written from the encoding; the last bits are kind, bits 23:16, bits 15:8, data -/

theorem test_decode_memRd : decodeTableWord 32 0b00_10000000_00010000_00000000 = some (.memRd 0x8010#16) := by decide
theorem test_decode_memWr : decodeTableWord 32 0b01_10000000_00010000_01011010 = some (.memWr 0x8010#16 0x5A#8) := by decide
theorem test_decode_ioRd : decodeTableWord 32 0b10_00000000_01000010_00000000 = some (.ioRd 0x42#8) := by decide
theorem test_decode_ioWr : decodeTableWord 32 0b11_00000000_10011001_00000001 = some (.ioWr 0x99#8 0x01#8) := by decide
theorem test_decode_clock : (decode [] (.clock 5)).toOption = some (.clock 5) := by decide
theorem test_decode_serIn : decodeTableWord 32 0b10_00000000_00000001_00000000 = some (.serIn 2) := by decide
theorem test_decode_serReady : decodeTableWord 32 0b10_00000000_00000011_00000000 = some (.serReady 2) := by decide
theorem test_decode_serOut : decodeTableWord 32 0b11_00000000_00000010_00100001 = some (.serOut 2 0x21#8) := by decide
theorem test_decode_tmrCount : decodeTableWord 32 0b11_00000000_00010000_00000011 = some (.tmrCount 3 0x03#8) := by decide
theorem test_decode_tmrControl : decodeTableWord 32 0b11_00000000_00010001_10000000 = some (.tmrControl 3 0x80#8) := by decide
theorem test_decode_bdDataRd : decodeTableWord 32 0b10_00000000_00100000_00000000 = some (.bdDataRd 4) := by decide
theorem test_decode_bdDataWr : decodeTableWord 32 0b11_00000000_00100000_11011110 = some (.bdDataWr 4 0xDE#8) := by decide
theorem test_decode_bdLba0 : decodeTableWord 32 0b11_00000000_00100011_00110100 = some (.bdLba0 4 0x34#8) := by decide
theorem test_decode_bdLba1 : decodeTableWord 32 0b11_00000000_00100100_00010010 = some (.bdLba1 4 0x12#8) := by decide
theorem test_decode_bdLba2 : decodeTableWord 32 0b11_00000000_00100101_00000000 = some (.bdLba2 4 0x00#8) := by decide
theorem test_decode_bdLba3 : decodeTableWord 32 0b11_00000000_00100110_11100000 = some (.bdLba3 4 0xE0#8) := by decide
theorem test_decode_bdStatus : decodeTableWord 32 0b10_00000000_00100111_00000000 = some (.bdStatus 4) := by decide
theorem test_decode_readSector : decodeTableWord 32 0b11_00000000_00100111_00100000 = some (.bdCmdReadSector 4) := by decide
theorem test_decode_writeSector : decodeTableWord 32 0b11_00000000_00100111_00110000 = some (.bdCmdWriteSector 4) := by decide
theorem test_decode_cmdOther : decodeTableWord 32 0b11_00000000_00100111_11101100 = some (.bdCmdOther 4 0xEC#8) := by decide
theorem test_decode_continue : decodeTableWord 8 0b00000001 = some (.continueRun none) := by decide
theorem test_decode_step : decodeTableWord 8 0b00000010 = some .stepOne := by decide
theorem test_decode_setBreakpoint : decodeTableWord 8 0b00000011 = some (.setBreakpoint 0) := by decide
theorem test_decode_removeBreakpoint : decodeTableWord 8 0b00000100 = some (.removeBreakpoint 0) := by decide
theorem test_decode_registerTracepoint : decodeTableWord 8 0b00000101 = some (.registerTracepoint 0 ⟨0, 0⟩) := by decide
theorem test_decode_queryHalted : decodeTableWord 8 0b00000110 = some .queryHalted := by decide
theorem test_decode_queryBreak : decodeTableWord 8 0b00000111 = some .queryBreak := by decide
theorem test_decode_readMemory : decodeTableWord 8 0b00001000 = some (.readMemory 0) := by decide
theorem test_decode_writeMemory : decodeTableWord 8 0b00001001 = some (.writeMemory 0 0) := by decide
theorem test_decode_serialPuts : decodeTableWord 8 0b00001010 = some (.serialPuts "" []) := by decide
theorem test_decode_serialGets : decodeTableWord 8 0b00001011 = some (.serialGets "" none) := by decide
theorem test_decode_bdReadByte : decodeTableWord 8 0b00001100 = some (.bdReadByte "" 0 0) := by decide

/-- Rule R101: an I/O word with a bit of 23:16 set is no operation. -/
theorem test_decode_ioWord_high_bit : decodeTableWord 32 0b10_10000000_01000010_00000000 = none := by decide

/-- A port two devices share is no single device's row (V-BUS-8; log 8). -/
theorem test_decode_shared_port :
    decodeIoRead [⟨"A", .serial ⟨0x10#8, 0x11#8, 0x12#8, 256⟩⟩, ⟨"B", .serial ⟨0x10#8, 0x13#8, 0x14#8, 256⟩⟩] 0x10#8 =
      .ioRd 0x10#8 := by decide

/-! ## Well-formedness: an ill-formed operation for each check -/

theorem test_wf_ioRd_of_one_device : Instr.wellFormed Config.reference.devices (.ioRd 0x01#8) = false := by decide
theorem test_wf_ioWr_of_one_device : Instr.wellFormed Config.reference.devices (.ioWr 0x10#8 0#8) = false := by decide
theorem test_wf_serial_rows :
    ∀ i ∈ [Instr.serIn 3, .serReady 5, .serOut 4 0#8], i.wellFormed Config.reference.devices = false := by decide
theorem test_wf_timer_rows :
    ∀ i ∈ [Instr.tmrCount 2 0#8, .tmrControl 5 0#8], i.wellFormed Config.reference.devices = false := by decide
theorem test_wf_drive_rows :
    ∀ i ∈ [Instr.bdDataRd 2, .bdDataWr 3 0#8, .bdLba0 0 0#8, .bdLba1 1 0#8, .bdLba2 2 0#8, .bdLba3 5 0#8, .bdStatus 3,
      .bdCmdReadSector 2, .bdCmdWriteSector 2, .bdCmdOther 2 0#8], i.wellFormed Config.reference.devices = false := by decide
theorem test_wf_other_command_is_other :
    ∀ v ∈ [0x20#8, 0x30#8], Instr.wellFormed Config.reference.devices (.bdCmdOther 4 v) = false := by decide
theorem test_wf_address_range :
    ∀ i ∈ [Instr.setBreakpoint 0x10000, .removeBreakpoint 0x10000, .registerTracepoint 0x10000 ⟨0, 1⟩, .readMemory 0x10000,
      .writeMemory 0x10000 0], i.wellFormed Config.reference.devices = false := by decide
theorem test_wf_byte_range :
    ∀ i ∈ [Instr.writeMemory 0 256, .serialPuts "ser" [256]], i.wellFormed Config.reference.devices = false := by decide
theorem test_wf_names :
    ∀ i ∈ [Instr.serialPuts "bd" [], .serialGets "nosuch" none, .bdReadByte "ser" 0 0],
      i.wellFormed Config.reference.devices = false := by decide

/-- A well-formed operation of every row, at the ends of its operands' ranges. -/
def wellFormedOps : List Instr :=
  [.memRd 0xFFFF#16, .memWr 0xFFFF#16 0xFF#8, .ioRd 0xFF#8, .ioWr 0xFF#8 0xFF#8, .clock 0,
    .serIn 2, .serReady 2, .serOut 2 0xFF#8, .tmrCount 3 0xFF#8, .tmrControl 3 0xFF#8, .bdDataRd 4, .bdDataWr 4 0xFF#8,
    .bdLba0 4 0xFF#8, .bdLba1 4 0xFF#8, .bdLba2 4 0xFF#8, .bdLba3 4 0xFF#8, .bdStatus 4, .bdCmdReadSector 4,
    .bdCmdWriteSector 4, .bdCmdOther 4 0x21#8, .continueRun none, .continueRun (some 0), .stepOne, .setBreakpoint 0xFFFF,
    .removeBreakpoint 0xFFFF, .registerTracepoint 0xFFFF ⟨7, 1⟩, .queryHalted, .queryBreak, .readMemory 0xFFFF,
    .writeMemory 0xFFFF 255, .serialPuts "ser" [0, 255], .serialGets "ser" (some 0), .bdReadByte "bd" 9 9]

theorem test_wf_accepts : ∀ i ∈ wellFormedOps, i.wellFormed Config.reference.devices = true := by decide

/-! ## Bus dispatcher -/

/-- V-BUS-1. -/
theorem test_memRd_ram : cpuOf (exec (.memRd 0x8005#16) (one (.ram (region 0x8000#16 0x100 [(5, 0x3C#8)])))) =
    some (some 0x3C#8) := by decide
/-- V-BUS-2, at the address after the last. -/
theorem test_memRd_after_last : cpuOf (exec (.memRd 0x8100#16) (one (.ram (region 0x8000#16 0x100 [(0xFF, 1#8)])))) =
    some (some 0x00#8) := by decide
/-- V-BUS-3: the last byte of a RAM. -/
theorem test_memWr_last : devicesOf (exec (.memWr 0x80FF#16 1#8) (one (.ram (region 0x8000#16 0x100 [])))) =
    some [.ram (region 0x8000#16 0x100 [(0xFF, 1#8)])] := by decide
/-- V-BUS-4: an earlier ROM shadows the RAM. -/
theorem test_memWr_shadowed :
    devicesOf (exec (.memWr 5#16 0xAA#8)
      (withDevices [⟨"rom", .rom (region 0#16 0x10 [(5, 0xEE#8)])⟩, ⟨"ram", .ram (region 0#16 0x100 [])⟩])) =
    some [.rom (region 0#16 0x10 [(5, 0xEE#8)]), .ram (region 0#16 0x100 [])] := by decide
/-- V-BUS-7. -/
theorem test_ioRd_no_device : cpuOf (exec (.ioRd 0x42#8) (withDevices [])) = some (some 0x00#8) := by decide
/-- V-BUS-9: the first port's empty answer is a value, and the second port still pops. -/
theorem test_ioRd_shared :
    (fun r => (cpuOf r, (devicesOf r).map fun ds => ds.map fun d =>
      match d with
      | .serial p => p.toDevice.cnt
      | _ => 0)) (exec (.ioRd 0x01#8)
        (withDevices [⟨"A", .serial (port 256 (ring []) (ring []))⟩, ⟨"B", .serial (port 256 (ring [0x42#8]) (ring []))⟩])) =
    (some (some 0x00#8), some [0, 0]) := by decide
/-- V-BUS-10: both timers take the write. -/
theorem test_ioWr_shared :
    devicesOf (exec (.ioWr 0x10#8 5#8) (withDevices [⟨"T1", .timer (timer 0#8 false)⟩, ⟨"T2", .timer (timer 1#8 true)⟩])) =
    some [.timer (timer 5#8 false), .timer (timer 5#8 true)] := by decide
/-- V-BUS-11. -/
theorem test_ioWr_nobody : devicesOf (exec (.ioWr 0x99#8 1#8) (one (.timer (timer 7#8 true)))) =
    some [.timer (timer 7#8 true)] := by decide
/-- V-BUS-12. -/
theorem test_clock_two :
    (fun r => (busOf r, devicesOf r))
      (exec (.clock 2) (withDevices [⟨"T1", .timer (timer 5#8 true)⟩, ⟨"T2", .timer (timer 1#8 true)⟩])) =
    (some 0b01#2, some [.timer (timer 3#8 true), .timer (timer 0#8 true)]) := by decide
/-- V-BUS-13: no cycle, no request. -/
theorem test_clock_zero : busOf (exec (.clock 0) (one (.timer (timer 0#8 true)))) = some 0b00#2 := by decide
/-- V-BUS-16, V-BUS-17. -/
theorem test_writeMemory_rom :
    devicesOf (exec (.writeMemory 1 0x55) (one (.rom (region 0#16 4 [])))) = some [.rom (region 0#16 4 [])] ∧
    devicesOf (exec (.writeMemory 1 0x55)
      { one (.rom (region 0#16 4 [])) with params := { Config.defaultParams with hostWriteRom := .store } }) =
        some [.rom (region 0#16 4 [(1, 0x55#8)])] := by decide
/-- Rule R121: a byte above 255. -/
theorem test_writeMemory_bad_value : hostOf (exec (.writeMemory 0 256) (withDevices [])) = some (.error (.badValue [256])) := by
  decide
/-- V-BUS-18. -/
theorem test_readMemory_bad_address :
    hostOf (exec (.readMemory 0x10000) (withDevices [])) = some (.error (.badValue [0x10000])) := by decide
/-- Rule R150, after a fault too (rule R310). -/
theorem test_readMemory_after_fault :
    hostOf (exec (.readMemory 0x8005) (State.raise (one (.ram (region 0x8000#16 0x100 [(5, 0x3C#8)]))) (.engineContract 0))) =
      some (.byte 0x3C#8) := by decide

/-! ## Serial port -/

/-- V-SER-4. -/
theorem test_serIn_oldest : cpuOf (exec (.serIn 0) (one (.serial (port 256 (ring [0x41#8, 0x42#8]) (ring []))))) =
    some (some 0x41#8) := by decide
/-- L1-9: an empty buffer answers 0 and changes nothing. -/
theorem test_serIn_empty :
    (fun r => (cpuOf r, devicesOf r)) (exec (.serIn 0) (one (.serial (port 256 (ring []) (ring [9#8]))))) =
    (some (some 0x00#8), some [.serial (port 256 (ring []) (ring [9#8]))]) := by decide
/-- V-SER-2: a zero byte waits. -/
theorem test_serReady_zero_byte : cpuOf (exec (.serReady 0) (one (.serial (port 256 (ring [0#8]) (ring []))))) =
    some (some 0x01#8) := by decide
/-- V-SER-1. -/
theorem test_serReady_empty : cpuOf (exec (.serReady 0) (one (.serial (port 256 (ring []) (ring [1#8]))))) =
    some (some 0x00#8) := by decide
/-- V-SER-7, the third push: the oldest byte is overwritten. -/
theorem test_serOut_overwrites :
    devicesOf (exec (.serOut 0 3#8) (one (.serial (port 2 Ring.reset ⟨[(0, 1#8), (1, 2#8)], 0, 0, 2⟩)))) =
      some [.serial (port 2 Ring.reset ⟨[(0, 3#8), (1, 2#8)], 1, 1, 2⟩)] := by decide
/-- V-SER-8 and V-SER-9, the third push. -/
theorem test_push_policies :
    Ring.push .dropNewest 2 ⟨[(0, 1#8), (1, 2#8)], 0, 0, 2⟩ 3#8 = ⟨[(0, 1#8), (1, 2#8)], 0, 0, 2⟩ ∧
    Ring.push .indexWrap 2 ⟨[(0, 1#8), (1, 2#8)], 0, 0, 0⟩ 3#8 = ⟨[(0, 3#8), (1, 2#8)], 1, 0, 0⟩ := by decide
/-- V-SER-18. -/
theorem test_serialPuts :
    devicesOf (exec (.serialPuts "d" [0x48, 0x69]) (one (.serial (port 256 (ring []) (ring []))))) =
      some [.serial (port 256 (ring [0x48#8, 0x69#8]) (ring []))] := by decide
/-- Rule R121. -/
theorem test_serialPuts_bad_byte :
    hostOf (exec (.serialPuts "d" [1, 256, 300]) (one (.serial (port 256 (ring []) (ring []))))) =
      some (.error (.badValue [256, 300])) := by decide
/-- V-SER-16. -/
theorem test_serialGets_one :
    (fun r => (hostOf r, (devicesOf r).map fun ds => ds.map fun d =>
      match d with
      | .serial p => p.fromDevice.unread .overwriteOldest 256
      | _ => [])) (exec (.serialGets "d" (some 1)) (one (.serial (port 256 (ring []) (ring [0x48#8, 0x69#8]))))) =
    (some (.bytes [0x48#8]), some [[0x69#8]]) := by decide
/-- V-SER-19. -/
theorem test_serialGets_no_device :
    hostOf (exec (.serialGets "nosuch" (some 1)) (withDevices [])) = some (.error (.badDevice "nosuch")) := by decide

/-! ## Timer -/

/-- V-TMR-6, the first write. -/
theorem test_tmrCount_running : devicesOf (exec (.tmrCount 0 2#8) (one (.timer (timer 0#8 true)))) =
    some [.timer (timer 2#8 true)] := by decide
/-- V-TMR-7. -/
theorem test_tmrControl_starts : devicesOf (exec (.tmrControl 0 0x80#8) (one (.timer (timer 0#8 false)))) =
    some [.timer (timer 0#8 true)] := by decide
/-- V-TMR-4, the write. -/
theorem test_tmrControl_stops : devicesOf (exec (.tmrControl 0 0#8) (one (.timer (timer 5#8 true)))) =
    some [.timer (timer 5#8 false)] := by decide
/-- V-TMR-2, V-TMR-10. -/
theorem test_timer_requests_after_count :
    busOf (exec (.clock 3) (one (.timer (timer 3#8 true)))) = some 0b00#2 ∧
    busOf (exec (.clock 10) (one (.timer (timer 2#8 true)))) = some 0b01#2 := by decide

/-! ## Block drive -/

/-- V-BD-2: each register holds the byte, and the high one is masked in the LBA. -/
theorem test_lba0 : devicesOf (exec (.bdLba0 0 0x34#8) (one (.drive drive))) = some [.drive { drive with lba0 := 0x34#8 }] := by
  decide
theorem test_lba1 : devicesOf (exec (.bdLba1 0 0x12#8) (one (.drive drive))) = some [.drive { drive with lba1 := 0x12#8 }] := by
  decide
theorem test_lba2 : devicesOf (exec (.bdLba2 0 0x01#8) (one (.drive drive))) = some [.drive { drive with lba2 := 0x01#8 }] := by
  decide
theorem test_lba3 : devicesOf (exec (.bdLba3 0 0xE0#8) (one (.drive drive))) = some [.drive { drive with lba3 := 0xE0#8 }] := by
  decide
theorem test_lba_assembly :
    lbaOf { drive with lba0 := 0x34#8, lba1 := 0x12#8, lba3 := 0xE0#8 } = 0x001234 ∧
    lbaOf { drive with lba0 := 0xFF#8, lba1 := 0xFF#8, lba2 := 0xFF#8, lba3 := 0xFF#8 } = 0x1FFFFFFF := by decide
/-- V-BD-1. -/
theorem test_status_reset :
    cpuOf (exec (.bdStatus 0) (one (.drive drive))) = some (some 0x40#8) ∧
    cpuOf (exec (.bdStatus 0) (one (.drive { drive with status := 0x00#8 }))) = some (some 0x00#8) := by decide
/-- V-BD-3. -/
theorem test_readSector :
    devicesOf (exec (.bdCmdReadSector 0) (one (.drive { drive with lba0 := 1#8 }))) =
      some [.drive { drive with
        lba0 := 1#8, sectorBuffer := [(0, 5#8), (1, 6#8), (2, 7#8), (3, 8#8)], bufferOffset := 0, mode := .read,
        status := 0x08#8 }] := by decide
/-- V-BD-8. -/
theorem test_readSector_range :
    (fun r => (faultOf r, devicesOf r)) (exec (.bdCmdReadSector 0) (one (.drive { drive with lba0 := 4#8 }))) =
      (some (.bdLbaRange "d" 4), some [.drive { drive with lba0 := 4#8 }]) := by decide
/-- Rule R268: the LBA is not checked. -/
theorem test_writeSector :
    devicesOf (exec (.bdCmdWriteSector 0) (one (.drive { drive with lba0 := 4#8, sectorBuffer := [(0, 9#8)], bufferOffset := 4 }))) =
      some [.drive { drive with lba0 := 4#8, sectorBuffer := [], bufferOffset := 0, mode := .write, status := 0x08#8 }] := by
  decide
/-- V-BD-14. -/
theorem test_cmdOther :
    (fun r => (faultOf r, devicesOf r)) (exec (.bdCmdOther 0 0xEC#8) (one (.drive { drive with mode := .read, status := 0x08#8 }))) =
      (none, some [.drive { drive with mode := .read, status := 0x08#8 }]) := by decide
/-- V-BD-4, the fourth read. -/
theorem test_dataRead_last :
    (fun r => (cpuOf r, devicesOf r)) (exec (.bdDataRd 0)
      (one (.drive { drive with mode := .read, status := 0x08#8, sectorBuffer := [(3, 8#8)], bufferOffset := 3 }))) =
    (some (some 8#8),
      some [.drive { drive with mode := .read, status := 0x40#8, sectorBuffer := [(3, 8#8)], bufferOffset := 4 }]) := by decide
/-- V-BD-5. -/
theorem test_dataRead_complete :
    faultOf (exec (.bdDataRd 0) (one (.drive { drive with mode := .read, status := 0x40#8, bufferOffset := 4 }))) =
      some (.bdProtocol "d" .read .read 4) := by decide
/-- V-BD-12, the last write: the flush uses the LBA of now. -/
theorem test_dataWrite_flush :
    (devicesOf (exec (.bdDataWr 0 0xA4#8)
      (one (.drive { drive with
        mode := .write, status := 0x08#8, lba0 := 3#8, bufferOffset := 3,
        sectorBuffer := [(0, 0xA1#8), (1, 0xA2#8), (2, 0xA3#8)] })))).map (fun ds => ds.map fun d =>
          match d with
          | .drive b => (b.status, b.mode, (b.store.getD []).drop 11)
          | _ => (0#8, .uninit, [])) =
      some [(0x40#8, .write, [(11, 12#8), (12, 0xA1#8), (13, 0xA2#8), (14, 0xA3#8), (15, 0xA4#8)])] := by decide
/-- V-BD-9, the last write: the byte is stored, then the flush faults. -/
theorem test_dataWrite_range :
    (fun r => (faultOf r, devicesOf r)) (exec (.bdDataWr 0 9#8)
      (one (.drive { drive with mode := .write, status := 0x08#8, lba0 := 4#8, bufferOffset := 3 }))) =
    (some (.bdLbaRange "d" 4),
      some [.drive { drive with
        mode := .write, status := 0x08#8, lba0 := 4#8, bufferOffset := 4, sectorBuffer := [(3, 9#8)] }]) := by decide
/-- V-BD-15. -/
theorem test_bdReadByte : hostOf (exec (.bdReadByte "d" 3 3) (one (.drive drive))) = some (.byte 16#8) := by decide
/-- V-BD-16. -/
theorem test_bdReadByte_range : hostOf (exec (.bdReadByte "d" 4 0) (one (.drive drive))) = some (.error (.range 4 0)) := by decide

/-! ## Debug controller -/

/-- A fresh state in run state `r`. -/
def inState (r : RunState) : State :=
  let s := withDevices []
  { s with dbg := { s.dbg with runState := r } }

/-- A fresh state with a fault recorded. -/
def faulted : State :=
  (withDevices []).raise (.engineContract 0)

/-- A state whose clock batch of one cycle is due, the engine at address 2. -/
def batchDue (budget : Option Nat) (halted : Bool) (breakpoints : List (Nat × Unit)) (tracepoints : List (Nat × Callback)) :
    State :=
  let s := one (.timer (timer 0#8 true))
  { s with
    phase := .clock { budget := budget, total := 1 } 1,
    dbg := { s.dbg with
      runState := .running, cyclesTotal := 1, breakpoints := breakpoints, tracepoints := tracepoints },
    eng := { s.eng with pc := 2#16, halted := halted } }

/-- Rule R210: the call begins; the engine steps next. -/
theorem test_continue_begins :
    (nextOf (exec (.continueRun (some 6)) (inState .undefined))).map (fun t => (t.dbg.runState, t.phase)) =
      some (.running, .engine { budget := some 6, total := 0 }) := by decide
/-- V-DBG-4: in Halted, CONTINUE returns 0. -/
theorem test_continue_halted : hostOf (exec (.continueRun none) (inState .halted)) = some (.cycles 0) := by decide
/-- Rule R216. -/
theorem test_step_begins :
    (nextOf (exec .stepOne (inState .breakHit))).map (fun t => (t.dbg.runState, t.phase)) =
      some (.running, .engine { budget := some 1, total := 0 }) := by decide
/-- V-DBG-9, the refusal after a fault. -/
theorem test_step_after_fault : hostOf (exec .stepOne faulted) = some (.error .faulted) := by decide
/-- V-DBG-10. -/
theorem test_setBreakpoint_twice :
    (nextOf (exec (.setBreakpoint 5) (batchDue none false [(5, ())] []))).map (fun t => t.dbg.breakpoints) =
      some [(5, ())] := by decide
theorem test_removeBreakpoint :
    (nextOf (exec (.removeBreakpoint 5) (batchDue none false [(5, ()), (7, ())] []))).map (fun t => t.dbg.breakpoints) =
      some [(7, ())] := by decide
/-- V-DBG-11. -/
theorem test_registerTracepoint_arity :
    (fun r => (hostOf r, (nextOf r).map fun t => t.dbg.tracepoints)) (exec (.registerTracepoint 0x10 ⟨1, 2⟩) (inState .undefined)) =
      (some (.error (.tracepointArity 0x10)), some []) := by decide
/-- Rule R220: it replaces. -/
theorem test_registerTracepoint_replaces :
    (nextOf (exec (.registerTracepoint 3 ⟨9, 1⟩) (batchDue none false [] [(3, ⟨8, 1⟩)]))).map (fun t => t.dbg.tracepoints) =
      some [(3, ⟨9, 1⟩)] := by decide
/-- V-DBG-12. -/
theorem test_queryHalted :
    hostOf (exec .queryHalted (inState .undefined)) = some (.bool false) ∧
    hostOf (exec .queryHalted (inState .halted)) = some (.bool true) := by decide
theorem test_queryBreak :
    hostOf (exec .queryBreak (inState .undefined)) = some (.bool false) ∧
    hostOf (exec .queryBreak (inState .breakHit)) = some (.bool true) := by decide

/-! ## The step -/

/-- Rules R210, R302: the batch's NMI bit calls `raise_nmi`, its INT bit sets the level, and the engine steps again. -/
theorem test_step_iteration :
    (nextOf (step (batchDue none false [] []))).map (fun t => (t.eng.nmiCalls, t.eng.intLevel, t.phase)) =
      some (1, some false, .engine { budget := none, total := 1 }) := by decide
/-- V-DBG-6: halt before breakpoint. -/
theorem test_step_halt_first :
    (nextOf (step (batchDue none true [(2, ())] []))).map (fun t => (t.dbg.runState, t.returns.host)) =
      some (.halted, some (.cycles 1)) := by decide
/-- P5: breakpoint before budget. -/
theorem test_step_break_before_budget :
    (nextOf (step (batchDue (some 1) false [(2, ())] []))).map (fun t => (t.dbg.runState, t.phase)) =
      some (.breakHit, .idle) := by decide
/-- V-DBG-2: the budget is exhausted; Running. -/
theorem test_step_budget :
    (nextOf (step (batchDue (some 0) false [] []))).map (fun t => (t.dbg.runState, t.phase)) = some (.running, .idle) := by decide
/-- P4: the tracepoint fires, with the PC. -/
theorem test_step_tracepoint :
    (nextOf (step (batchDue none true [(2, ())] [(2, ⟨7, 1⟩)]))).map (fun t => (t.dbg.inCallback, t.phase)) =
      some (true, .callback { budget := none, total := 1 } 2#16 ⟨7, 1⟩) := by decide
/-- V-DBG-7: CONTINUE inside a callback. -/
theorem test_step_reentrant :
    (nextOf (step
      { batchDue none false [] [] with
        phase := .callback { budget := none, total := 1 } 2#16 ⟨7, 1⟩,
        callbackIn := [.host (.op (HostRecord.ofCode 0x01#8))],
        dbg := ⟨.running, [], [], 1, true, none⟩ })).map (fun t => t.returns.host) =
      some (some (.error .reentrant)) := by decide
/-- V-DBG-9: no cycles returned. -/
theorem test_step_engine_contract :
    (nextOf (step
      { inState .running with
        phase := .engine { budget := none, total := 0 }, engineIn := [.ret 0 1#16 false] })).map
          (fun t => (t.dbg.fault, t.dbg.runState, t.phase)) =
      some (some (.engineContract 0), .running, .idle) := by decide
/-- A step runs the word placed where it fetches. -/
theorem test_step_fetch :
    (nextOf (step (State.reset.withFetchWord 32 0b01_10000000_00010000_01011010))).map (fun t => t.byteAt 0x8010#16) =
      some 0x5A#8 := by decide
/-- An idle machine that nothing is presented to stays as it is (rule R8). -/
theorem test_step_idle : nextOf (step State.reset) = some State.reset := by decide

/-! ## Construction -/

/-- Rules R341, R314: each check refuses, with the code of the table. -/
theorem test_construct_refuses :
    ([([⟨none, .timer (some 1) (some 2)⟩], 0x01#8),
      ([⟨some "x", .ram (some 0) none none⟩], 0x01#8),
      ([⟨some "x", .timer (some 256) (some 2)⟩], 0x01#8),
      ([⟨some "x", .ram (some 0xFFFF) (some 2) none⟩], 0x02#8),
      ([⟨some "x", .rom (some 0) (some 1) (some [1#8, 2#8])⟩], 0x03#8),
      ([⟨some "x", .drive (some 0) (some 2) (some 2) (some [1#8])⟩], 0x04#8),
      ([⟨some "x", .drive (some 0) (some 0) (some 2) none⟩], 0x05#8),
      ([⟨some "x", .drive (some 0xF9) (some 1) (some 1) none⟩], 0x06#8),
      ([⟨some "x", .serial (some 1) (some 2) (some 1) none⟩], 0x07#8),
      ([⟨some "x", .serial (some 1) (some 2) (some 3) (some 0)⟩], 0x08#8),
      ([⟨some "x", .timer (some 1) (some 1)⟩], 0x09#8),
      ([⟨some "x", .timer (some 1) (some 2)⟩, ⟨some "x", .timer (some 1) (some 2)⟩], 0x0A#8)] :
        List (List RawDevice × Byte)).all
      (fun x =>
        match construct x.1 Config.defaultParams with
        | .error e => e.code == x.2
        | .ok _ => false) = true := by decide
/-- The largest region, the highest drive, and a capacity left out (rules R10, R341). -/
theorem test_construct_accepts :
    (match construct [⟨some "r", .ram (some 0) (some 0x10000) none⟩, ⟨some "b", .drive (some 0xF8) (some 1) (some 1) none⟩,
        ⟨some "s", .serial (some 1) (some 1) (some 2) none⟩] Config.defaultParams with
      | .error _ => none
      | .ok s => (serialAt s.devs 2).map fun p => p.desc.capacity) = some 256 := by decide

/-- The arrays of the state after reset are in canonical form. -/
theorem test_reset_arrays : State.reset.arraysWf = true := State.reset_arraysWf

/-! ## Witnesses: for each obligation with hypotheses, a state and operands that meet them, clause by clause -/

/-- Inside the callback of the tracepoint at 2, in a call with a budget of 1, over the devices of `State.reset`. -/
def inACallback : State :=
  { State.reset with
    dbg := ⟨.running, [(2, ())], [], 1, true, none⟩, phase := .callback ⟨some 1, 1⟩ 2#16 ⟨7, 1⟩ }

/-- The reference configuration's region of index `i`. -/
def regionOf (i : Nat) : Region :=
  (regionAt State.reset.devs i).getD (region 0#16 0 [])

theorem firstRegion_of {devs : List Slot} {a : Addr} {i : Nat} {r : Region} (hc : claimant devs a = some i)
    (hr : regionAt devs i = some r) : FirstRegion devs a i r := by
  obtain ⟨q, hq⟩ := claimant_eq_some_iff.1 hc
  rw [hq.1] at hr
  cases hr
  exact hq

/-- The RAM at its first and last address, the ROM at its first and last, and the addresses around them that nothing claims. -/
theorem witness_memory :
    FirstRegion State.reset.devs 0x8000#16 1 (regionOf 1) ∧ FirstRegion State.reset.devs 0x80FF#16 1 (regionOf 1) ∧
    FirstRegion State.reset.devs 0x0000#16 0 (regionOf 0) ∧ FirstRegion State.reset.devs 0x00FF#16 0 (regionOf 0) ∧
    Unclaimed State.reset.devs 0x0100#16 ∧ Unclaimed State.reset.devs 0x7FFF#16 ∧ Unclaimed State.reset.devs 0x8100#16 ∧
    Unclaimed State.reset.devs 0xFFFF#16 :=
  ⟨firstRegion_of (by decide) (by decide), firstRegion_of (by decide) (by decide), firstRegion_of (by decide) (by decide),
    firstRegion_of (by decide) (by decide), claimant_eq_none_iff.1 (by decide), claimant_eq_none_iff.1 (by decide),
    claimant_eq_none_iff.1 (by decide), claimant_eq_none_iff.1 (by decide)⟩

/-- MemRdAnswersFirstCoveringRegion: a region, and no region. -/
theorem witness_MemRdAnswersFirstCoveringRegion :
    FirstRegion State.reset.devs 0x80FF#16 1 (regionOf 1) ∧ Unclaimed State.reset.devs 0x8100#16 :=
  ⟨witness_memory.2.1, witness_memory.2.2.2.2.2.2.1⟩

/-- MemWrStoresOnlyInFirstCoveringRam and MemoryReadAfterWriteLaws: a RAM, a ROM, and no region. -/
theorem witness_MemWrStoresOnlyInFirstCoveringRam :
    (State.reset.devs[1]? = some { name := "ram", device := .ram (regionOf 1) } ∧
      FirstRegion State.reset.devs 0x8000#16 1 (regionOf 1)) ∧
    (State.reset.devs[0]? = some { name := "rom", device := .rom (regionOf 0) } ∧
      FirstRegion State.reset.devs 0x00FF#16 0 (regionOf 0)) ∧
    Unclaimed State.reset.devs 0xFFFF#16 :=
  ⟨⟨by decide, witness_memory.1⟩, ⟨by decide, witness_memory.2.2.2.1⟩, witness_memory.2.2.2.2.2.2.2⟩

theorem witness_MemoryReadAfterWriteLaws :
    (State.reset.devs[1]? = some { name := "ram", device := .ram (regionOf 1) } ∧
      FirstRegion State.reset.devs 0x80FF#16 1 (regionOf 1)) ∧
    (State.reset.devs[0]? = some { name := "rom", device := .rom (regionOf 0) } ∧
      FirstRegion State.reset.devs 0x0000#16 0 (regionOf 0)) ∧
    Unclaimed State.reset.devs 0x7FFF#16 :=
  ⟨⟨by decide, witness_memory.2.1⟩, ⟨by decide, witness_memory.2.2.1⟩, witness_memory.2.2.2.2.2.1⟩

theorem witness_ReadMemoryIsTheBusRead : (0xFFFF : Nat) ≤ 0xFFFF ∧ 0xFFFF < (0x10000 : Nat) := by decide

/-- WriteMemoryStoresInFirstCoveringRegion: a RAM; a ROM under STORE; a ROM under IGNORE; no region; each argument out of range. -/
theorem witness_WriteMemoryStoresInFirstCoveringRegion :
    State.reset.Unfaulted ∧
    (State.reset.devs[1]? = some { name := "ram", device := .ram (regionOf 1) } ∧
      FirstRegion State.reset.devs (BitVec.ofNat 16 0x80FF) 1 (regionOf 1)) ∧
    (∃ s : State, s.Unfaulted ∧ s.params.hostWriteRom = .store ∧
      s.devs[0]? = some { name := "rom", device := .rom (regionOf 0) } ∧
      FirstRegion s.devs (BitVec.ofNat 16 0x0000) 0 (regionOf 0)) ∧
    (State.reset.params.hostWriteRom = .ignore ∧
      State.reset.devs[0]? = some { name := "rom", device := .rom (regionOf 0) } ∧
      FirstRegion State.reset.devs (BitVec.ofNat 16 0x00FF) 0 (regionOf 0)) ∧
    Unclaimed State.reset.devs (BitVec.ofNat 16 0xFFFF) ∧
    ¬ ((0x10000 : Nat) ≤ 0xFFFF ∧ (255 : Nat) ≤ 255) ∧ ¬ ((0xFFFF : Nat) ≤ 0xFFFF ∧ (256 : Nat) ≤ 255) :=
  ⟨rfl, ⟨by decide, witness_memory.2.1⟩,
    ⟨{ State.reset with params := { Config.defaultParams with hostWriteRom := .store } }, rfl, rfl, by decide,
      witness_memory.2.2.1⟩,
    ⟨rfl, by decide, witness_memory.2.2.2.1⟩, witness_memory.2.2.2.2.2.2.2, by decide, by decide⟩

/-- IoRdReachesEveryRecognizingDevice: at a port of a device and at one of none. -/
theorem witness_IoRdReachesEveryRecognizingDevice :
    (∀ d ∈ State.reset.devs, (d.offerRead State.reset.params 0x01#8).fault = none) ∧
    (∀ d ∈ State.reset.devs, (d.offerRead State.reset.params 0xFF#8).fault = none) ∧
    ∃ d ∈ State.reset.devs, d.device.desc.readReg 0x01#8 = none := by decide

theorem witness_IoWrReachesEveryRecognizingDevice :
    (∀ d ∈ State.reset.devs, (d.offerWrite State.reset.params 0x10#8 0xFF#8).fault = none) ∧
    (∀ d ∈ State.reset.devs, (d.offerWrite State.reset.params 0x00#8 0x00#8).fault = none) ∧
    ∃ d ∈ State.reset.devs, d.device.desc.writeReg 0x10#8 = none := by decide

/-- A drive whose next byte is its last, with its LBA beyond the last sector. -/
def overrunDrive : BlockDrive :=
  { drive with mode := .write, status := 0x08#8, lba0 := 4#8, bufferOffset := 3 }

/-- FirstFaultingDeviceEndsTheTransaction: a protocol fault at a read; a range fault at a write; in the handler, a fault that
changes nothing and one at the flush. -/
theorem witness_FirstFaultingDeviceEndsTheTransaction :
    (State.reset.devs = State.reset.devs.take 4 ++ ⟨"bd", .drive drive⟩ :: [] ∧
      (∀ x ∈ State.reset.devs.take 4, (x.offerRead State.reset.params 0x20#8).fault = none) ∧
      (Slot.offerRead State.reset.params 0x20#8 ⟨"bd", .drive drive⟩).fault = some (.bdProtocol "bd" .read .uninit 0)) ∧
    ((withDevices [⟨"t", .timer (timer 0#8 false)⟩, ⟨"d", .drive overrunDrive⟩, ⟨"d2", .drive drive⟩]).devs =
        [⟨"t", .timer (timer 0#8 false)⟩] ++ ⟨"d", .drive overrunDrive⟩ :: [⟨"d2", .drive drive⟩] ∧
      (∀ x ∈ [(⟨"t", .timer (timer 0#8 false)⟩ : Slot)], (x.offerWrite Config.defaultParams 0x20#8 9#8).fault = none) ∧
      (Slot.offerWrite Config.defaultParams 0x20#8 9#8 ⟨"d", .drive overrunDrive⟩).fault = some (.bdLbaRange "d" 4)) ∧
    (Slot.offerWrite Config.defaultParams 0x20#8 9#8 ⟨"bd", .drive drive⟩).fault = some (.bdProtocol "bd" .write .uninit 0) ∧
    (Slot.offerWrite Config.defaultParams 0x27#8 0x20#8 ⟨"bd", .drive overrunDrive⟩).fault = some (.bdLbaRange "bd" 4) := by
  decide

theorem witness_SoleDeviceRowIsTheTransaction :
    soleReader State.reset.devices 0x01#8 = some (2, .serIn) ∧ soleReader State.reset.devices 0x27#8 = some (4, .bdStatus) ∧
    soleWriter State.reset.devices 0x11#8 = some (3, .tmrControl) ∧ soleWriter State.reset.devices 0x27#8 = some (4, .bdCmd) := by
  decide

/-- RowOfAnAbsentDeviceStops: a device of another variant, and an index past the last. -/
theorem witness_RowOfAnAbsentDeviceStops :
    serialAt State.reset.devs 3 = none ∧ serialAt State.reset.devs 5 = none ∧ timerAt State.reset.devs 2 = none ∧
    timerAt State.reset.devs 5 = none ∧ driveAt State.reset.devs 3 = none ∧ driveAt State.reset.devs 5 = none := by decide

/-- ClockBatchCountsTimersDown: a timer, and a device that is none. -/
theorem witness_ClockBatchCountsTimersDown :
    (one (.timer (timer 255#8 true))).devs[0]? = some { name := "d", device := .timer (timer 255#8 true) } ∧
    timerAt State.reset.devs 2 = none ∧ timerAt State.reset.devs 3 = some (timer 0#8 false) := by decide

theorem witness_OnlyTimersTickAndNoneRequestsInt :
    (∀ tm, Device.drive drive ≠ .timer tm) ∧
    ∃ t, exec (.clock 1) (one (.timer (timer 0#8 true))) = .next t ∧ t.returns.bus = some 0b01#2 :=
  ⟨fun _ h => (by cases h), _, rfl, by decide⟩

theorem witness_TimerRegisterWrites :
    State.reset.devs[3]? = some { name := "t", device := .timer (timer 0#8 false) } := by decide

/-- TimerRequestsNmiOnTickNPlusOne: the reference configuration has one timer; both orders, at the ends of `N`'s range. -/
theorem witness_TimerRequestsNmiOnTickNPlusOne :
    timerAt State.reset.devs 3 = some (timer 0#8 false) ∧ (0x80#8 : Byte) ≠ 0#8 ∧
    (∀ i other, i ≠ 3 → timerAt State.reset.devs i = some other → other.running = false) ∧
    ([Instr.tmrCount 3 0xFF#8, .tmrControl 3 0x80#8] = [.tmrCount 3 0xFF#8, .tmrControl 3 0x80#8]) ∧
    ([Instr.tmrControl 3 0x80#8, .tmrCount 3 0x00#8] = [.tmrControl 3 0x80#8, .tmrCount 3 0x00#8]) := by
  refine ⟨by decide, by decide, ?_, rfl, rfl⟩
  intro i other hi h
  match i with
  | 0 => cases h
  | 1 => cases h
  | 2 => cases h
  | 3 => exact absurd rfl hi
  | 4 => cases h
  | k + 5 => cases h

/-- TimersAnswerNoRead: a timer, and a port that no other device recognizes. -/
theorem witness_TimersAnswerNoRead :
    timerAt State.reset.devs 3 = some (timer 0#8 false) ∧
    ∀ d ∈ State.reset.devs, isTimer d = false → d.device.desc.readReg 0x10#8 = none := by decide

theorem ring_reset_ok (pol : SerialOverflow) {cap : Nat} (h : 0 < cap) : Ring.reset.Ok pol cap := by
  cases pol
  · exact ⟨⟨rfl, rfl⟩, h, h, Nat.zero_le _, (Nat.zero_mod _).symm⟩
  · exact ⟨⟨rfl, rfl⟩, h, h, Nat.zero_le _, (Nat.zero_mod _).symm⟩
  · exact ⟨⟨rfl, rfl⟩, h, h, rfl⟩

/-- RingIsAByteQueue: an empty ring of capacity 1, and a full one, under every policy. -/
theorem witness_RingIsAByteQueue :
    (Ring.reset.Ok .overwriteOldest 1 ∧ Ring.reset.Ok .dropNewest 1 ∧ Ring.reset.Ok .indexWrap 1) ∧
    ((⟨[(0, 7#8)], 0, 0, 1⟩ : Ring).Ok .overwriteOldest 1 ∧ (⟨[(0, 7#8)], 0, 0, 1⟩ : Ring).unread .overwriteOldest 1 = [7#8]) ∧
    ((⟨[(0, 7#8)], 0, 0, 1⟩ : Ring).Ok .dropNewest 1 ∧ (⟨[(0, 7#8)], 0, 0, 1⟩ : Ring).unread .dropNewest 1 = [7#8]) ∧
    (⟨[(0, 7#8), (1, 8#8)], 0, 1, 0⟩ : Ring).Ok .indexWrap 2 ∧ (⟨[(0, 7#8), (1, 8#8)], 0, 1, 0⟩ : Ring).unread .indexWrap 2 = [8#8] := by
  unfold Ring.Ok Memory.Ok
  decide

/-- The serial statements: a port with an empty ring, and one with waiting bytes. -/
theorem witness_SerInPopsOldestOrAnswersZero :
    (State.reset.devs[2]? = some { name := "ser", device := .serial (port 256 Ring.reset Ring.reset) } ∧
      Ring.reset.Ok State.reset.params.overflow 256) ∧
    (one (.serial (port 2 (ring [0x41#8]) Ring.reset))).devs[0]? =
      some { name := "d", device := .serial (port 2 (ring [0x41#8]) Ring.reset) } ∧
    (ring [0x41#8]).Ok .overwriteOldest 2 :=
  ⟨⟨by decide, ring_reset_ok _ (by decide)⟩, by decide, by unfold Ring.Ok Memory.Ok; decide⟩

theorem witness_SerReadyTellsWhetherAByteWaits :
    serialAt State.reset.devs 2 = some (port 256 Ring.reset Ring.reset) := by decide

/-- SerOutPushesTowardsTheHost: an empty buffer and a full one. -/
theorem witness_SerOutPushesTowardsTheHost :
    (one (.serial (port 1 Ring.reset ⟨[(0, 7#8)], 0, 0, 1⟩))).devs[0]? =
      some { name := "d", device := .serial (port 1 Ring.reset ⟨[(0, 7#8)], 0, 0, 1⟩) } ∧
    (⟨[(0, 7#8)], 0, 0, 1⟩ : Ring).Ok .overwriteOldest 1 ∧ Ring.reset.Ok .overwriteOldest 1 := by
  unfold Ring.Ok Memory.Ok
  decide

theorem witness_SerialPutsPushesInOrder :
    State.reset.Unfaulted ∧ findSerial State.reset.devs "ser" = some 2 ∧
    serialAt State.reset.devs 2 = some (port 256 Ring.reset Ring.reset) ∧ Ring.reset.Ok State.reset.params.overflow 256 :=
  ⟨rfl, by decide, by decide, ring_reset_ok _ (by decide)⟩

theorem witness_SerialGetsTakesOldestBytes :
    (one (.serial (port 2 Ring.reset (ring [0x48#8])))).Unfaulted ∧
    findSerial (one (.serial (port 2 Ring.reset (ring [0x48#8])))).devs "d" = some 0 ∧
    serialAt (one (.serial (port 2 Ring.reset (ring [0x48#8])))).devs 0 = some (port 2 Ring.reset (ring [0x48#8])) ∧
    (ring [0x48#8]).Ok .overwriteOldest 2 ∧ (ring [0x48#8]).unread .overwriteOldest 2 = [0x48#8] := by
  unfold Ring.Ok Memory.Ok State.Unfaulted
  decide

theorem witness_SerialHostOpsRefuseBadArguments :
    State.reset.Unfaulted ∧ findSerial State.reset.devs "bd" = none ∧ (∀ b ∈ [(0 : Nat), 255], b ≤ 255) ∧
    findSerial State.reset.devs "ser" ≠ none ∧ ∃ b ∈ [(255 : Nat), 256], 255 < b := by
  unfold State.Unfaulted
  decide

theorem witness_LbaRegisterWritesAndAssembly :
    State.reset.devs[4]? = some { name := "bd", device := .drive drive } := by decide

theorem witness_StatusReadAndOtherCommandChangeNothing : driveAt State.reset.devs 4 = some drive := by decide

/-- OtherCommandByteLeavesTheDrive: bytes next to the two commands. -/
theorem witness_OtherCommandByteLeavesTheDrive :
    State.reset.devs[4]? = some { name := "bd", device := .drive drive } ∧
    (0x27#8 : Port).toNat = drive.desc.basePort.toNat + 7 ∧ (0x21#8 : Byte) ≠ 0x20#8 ∧ (0x21#8 : Byte) ≠ 0x30#8 ∧
    (0x2F#8 : Byte) ≠ 0x20#8 ∧ (0x2F#8 : Byte) ≠ 0x30#8 := by decide

/-- ReadCommandLoadsTheSector: without a file; the last sector; one beyond it. -/
theorem witness_ReadCommandLoadsTheSector :
    (one (.drive emptyDrive)).devs[0]? = some { name := "d", device := .drive emptyDrive } ∧ emptyDrive.store = none ∧
    (one (.drive { drive with lba0 := 3#8 })).devs[0]? = some { name := "d", device := .drive { drive with lba0 := 3#8 } } ∧
    lbaOf { drive with lba0 := 3#8 } < drive.desc.numSectors ∧
    (one (.drive { drive with lba0 := 4#8 })).devs[0]? = some { name := "d", device := .drive { drive with lba0 := 4#8 } } ∧
    drive.store ≠ none ∧ drive.desc.numSectors ≤ lbaOf { drive with lba0 := 4#8 } := by decide

theorem witness_WriteCommandClearsTheBuffer :
    State.reset.devs[4]? = some { name := "bd", device := .drive drive } := by decide

/-- DataReadReturnsTheNextByte: the last byte of a sector; after it; before any command. -/
theorem witness_DataReadReturnsTheNextByte :
    (∃ b : BlockDrive, (one (.drive b)).devs[0]? = some { name := "d", device := .drive b } ∧
      b.mode = .read ∧ b.bufferOffset < b.desc.sectorSize ∧ b.bufferOffset + 1 = b.desc.sectorSize) ∧
    (∃ b : BlockDrive, (one (.drive b)).devs[0]? = some { name := "d", device := .drive b } ∧
      b.mode = .read ∧ ¬ (b.mode = .read ∧ b.bufferOffset < b.desc.sectorSize)) ∧
    ¬ (drive.mode = .read ∧ drive.bufferOffset < drive.desc.sectorSize) :=
  ⟨⟨{ drive with mode := .read, bufferOffset := 3 }, by decide⟩, ⟨{ drive with mode := .read, bufferOffset := 4 }, by decide⟩,
    by decide⟩

/-- DataWriteStoresAndFlushes: a byte that is not the last; the last with the last sector addressed; the last without a file. -/
theorem witness_DataWriteStoresAndFlushes :
    (∃ b : BlockDrive, (one (.drive b)).devs[0]? = some { name := "d", device := .drive b } ∧ b.mode = .write ∧
      b.bufferOffset < b.desc.sectorSize ∧ b.bufferOffset + 1 < b.desc.sectorSize) ∧
    (∃ b : BlockDrive, (one (.drive b)).devs[0]? = some { name := "d", device := .drive b } ∧ b.mode = .write ∧
      b.bufferOffset < b.desc.sectorSize ∧ b.bufferOffset + 1 = b.desc.sectorSize ∧ b.store ≠ none ∧
      lbaOf b < b.desc.numSectors) ∧
    ∃ b : BlockDrive, (one (.drive b)).devs[0]? = some { name := "d", device := .drive b } ∧ b.mode = .write ∧
      b.bufferOffset < b.desc.sectorSize ∧ b.bufferOffset + 1 = b.desc.sectorSize ∧ b.store = none :=
  ⟨⟨{ drive with mode := .write, bufferOffset := 2 }, by decide⟩,
    ⟨{ drive with mode := .write, bufferOffset := 3, lba0 := 3#8 }, by decide⟩,
    ⟨{ emptyDrive with mode := .write, bufferOffset := 3 }, by decide⟩⟩

/-- DataWriteFaults: a full buffer; another mode; the last byte with the first sector beyond the last addressed. -/
theorem witness_DataWriteFaults :
    (∃ b : BlockDrive, (one (.drive b)).devs[0]? = some { name := "d", device := .drive b } ∧ b.mode = .write ∧
      ¬ (b.mode = .write ∧ b.bufferOffset < b.desc.sectorSize)) ∧
    ¬ (drive.mode = .write ∧ drive.bufferOffset < drive.desc.sectorSize) ∧
    (one (.drive overrunDrive)).devs[0]? = some { name := "d", device := .drive overrunDrive } ∧ overrunDrive.mode = .write ∧
    overrunDrive.bufferOffset + 1 = overrunDrive.desc.sectorSize ∧ overrunDrive.store ≠ none ∧
    overrunDrive.desc.numSectors ≤ lbaOf overrunDrive :=
  ⟨⟨{ drive with mode := .write, bufferOffset := 4 }, by decide⟩, by decide⟩

theorem witness_BlockDriveRoundTrip :
    findDrive State.reset.devs "bd" = some 4 ∧ driveAt State.reset.devs 4 = some drive ∧ drive.store ≠ none ∧
    0 < drive.desc.sectorSize ∧ [0xDE#8, 0xAD#8, 0xBE#8, 0xEF#8].length = drive.desc.sectorSize ∧
    lbaOf { drive with lba0 := 3#8, lba1 := 0#8, lba2 := 0#8, lba3 := 0xE0#8 } < drive.desc.numSectors ∧
    driveAt (one (.drive emptyDrive)).devs 0 = some emptyDrive ∧ emptyDrive.store = none ∧
    [0xDE#8, 0xAD#8, 0xBE#8, 0xEF#8].length = emptyDrive.desc.sectorSize := by decide

/-- BdReadByteReadsTheStore: a named drive with a file, one without, and a name of none. -/
theorem witness_BdReadByteReadsTheStore :
    findDrive State.reset.devs "bd" = some 4 ∧ driveAt State.reset.devs 4 = some drive ∧
    findDrive (one (.drive emptyDrive)).devs "d" = some 0 ∧ driveAt (one (.drive emptyDrive)).devs 0 = some emptyDrive ∧
    findDrive State.reset.devs "ser" = none := by decide

/-- HostStoreChangeIsSeenByTheNextRead: between operations and inside a callback, the store's last byte. -/
theorem witness_HostStoreChangeIsSeenByTheNextRead :
    (∃ (s s' : State) (m : Memory), s.phase = .idle ∧ TakesHostAct s s' (.setStore "bd" 15 9#8) ∧
      findDrive s.devs "bd" = some 4 ∧ driveAt s.devs 4 = some drive ∧ drive.store = some m ∧
      15 < drive.desc.sectorSize * drive.desc.numSectors) ∧
    ∃ (s s' : State) (m : Memory), s.dbg.inCallback = true ∧ TakesHostAct s s' (.setStore "bd" 15 9#8) ∧
      findDrive s.devs "bd" = some 4 ∧ driveAt s.devs 4 = some drive ∧ drive.store = some m ∧
      15 < drive.desc.sectorSize * drive.desc.numSectors :=
  ⟨⟨{ State.reset with hostIn := [.setStore "bd" 15 9#8] }, { State.reset with hostIn := [] }, drive.store.getD [],
      rfl, .inl ⟨[], rfl, rfl, rfl⟩, by decide⟩,
    { inACallback with callbackIn := [.host (.setStore "bd" 15 9#8)] }, { inACallback with callbackIn := [] },
      drive.store.getD [], rfl, .inr ⟨⟨some 1, 1⟩, 2#16, ⟨7, 1⟩, [], rfl, rfl, rfl⟩, by decide⟩

/-- CallbackRegisterAccessesReachOnlyTheEngine: a read and a write. -/
theorem witness_CallbackRegisterAccessesReachOnlyTheEngine :
    (∃ t, inACallback.phase = .callback ⟨some 1, 1⟩ 2#16 ⟨7, 1⟩ ∧
      step { inACallback with callbackIn := [.readRegister "PC" 2] } = .next t ∧ t.returns.host = some (.register 2)) ∧
    ∃ t, step { inACallback with callbackIn := [.writeRegister "PC" 9 9#16] } = .next t ∧ t.eng.pc = 9#16 ∧
      t.phase = inACallback.phase :=
  ⟨⟨_, rfl, rfl, rfl⟩, _, rfl, rfl, rfl⟩

/-- ContinueAndStepBegin: each clause. -/
theorem witness_ContinueAndStepBegin :
    (inState .breakHit).Unfaulted ∧ (inState .halted).Unfaulted ∧ (inState .breakHit).dbg.inCallback = false ∧
    (inState .breakHit).dbg.runState ≠ .halted ∧ (inState .halted).dbg.inCallback = false ∧
    (inState .halted).dbg.runState = .halted ∧
    ∃ s : State, s.Unfaulted ∧ s.dbg.inCallback = true := by
  refine ⟨rfl, rfl, rfl, by decide, rfl, rfl, { inState .running with dbg := ⟨.running, [], [], 1, true, none⟩ }, rfl, rfl⟩

/-- EngineReturnCountsCyclesOrFaults: a count of 1 and a count of 0. -/
theorem witness_EngineReturnCountsCyclesOrFaults :
    (∃ s : State, s.phase = .engine ⟨none, 0⟩ ∧ s.engineIn = .ret 1 1#16 false :: []) ∧
    ∃ s : State, s.phase = .engine ⟨none, 0⟩ ∧ s.engineIn = .ret 0 1#16 false :: [] :=
  ⟨⟨{ inState .running with phase := .engine ⟨none, 0⟩, engineIn := [.ret 1 1#16 false] }, rfl, rfl⟩,
    ⟨{ inState .running with phase := .engine ⟨none, 0⟩, engineIn := [.ret 0 1#16 false] }, rfl, rfl⟩⟩

/-- IterationDrivesThenStopsInOrder: a halt at a breakpoint; a breakpoint at an exhausted budget; a budget just exhausted; a budget
not exhausted. -/
theorem witness_IterationDrivesThenStopsInOrder :
    ∀ s ∈ [batchDue (some 1) true [(2, ())] [], batchDue (some 1) false [(2, ())] [], batchDue (some 1) false [] [],
      batchDue (some 2) false [(3, ())] [(1, ⟨7, 1⟩)]],
      (s.phase = .clock ⟨some 1, 1⟩ 1 ∨ s.phase = .clock ⟨some 2, 1⟩ 1) ∧ mapGet s.dbg.tracepoints s.eng.pc.toNat = none := by
  decide

/-- TracepointFiresBeforeTheStopChecks: a tracepoint at the PC of a halted engine; a callback about to return. -/
theorem witness_TracepointFiresBeforeTheStopChecks :
    ((batchDue none true [(2, ())] [(2, ⟨7, 1⟩)]).phase = .clock ⟨none, 1⟩ 1 ∧
      mapGet (batchDue none true [(2, ())] [(2, ⟨7, 1⟩)]).dbg.tracepoints
        (batchDue none true [(2, ())] [(2, ⟨7, 1⟩)]).eng.pc.toNat = some ⟨7, 1⟩) ∧
    ∃ s : State, s.phase = .callback ⟨some 1, 1⟩ 2#16 ⟨7, 1⟩ ∧ s.callbackIn = .ret :: [] :=
  ⟨by decide, { inACallback with callbackIn := [.ret] }, rfl, rfl⟩

theorem witness_BreakpointSetOperations : State.reset.Unfaulted ∧ (0xFFFF : Nat) ≤ 0xFFFF ∧ 0xFFFF < (0x10000 : Nat) :=
  ⟨rfl, by decide⟩

theorem witness_RegisterTracepointChecksArity :
    State.reset.Unfaulted ∧ (0xFFFF : Nat) ≤ 0xFFFF ∧ (⟨7, 1⟩ : Callback).arity = 1 ∧ (⟨7, 0⟩ : Callback).arity ≠ 1 ∧
    0xFFFF < (0x10000 : Nat) :=
  ⟨rfl, by decide⟩

theorem witness_QueriesTellTheRunState :
    (HostRecord.ofCode 0x06#8).code = 0x06#8 ∧ (HostRecord.ofCode 0x07#8).code = 0x07#8 := ⟨rfl, rfl⟩

theorem witness_FaultedMachineRefusesHostOperations :
    faulted.dbg.fault ≠ none ∧
    ∀ i ∈ [Instr.continueRun none, .stepOne, .setBreakpoint 0, .removeBreakpoint 0, .registerTracepoint 0 ⟨7, 1⟩,
      .writeMemory 0 0, .serialPuts "" [], .serialGets "" none], refusedAfterFault i = true := by decide

theorem witness_RecordedFaultIsKept :
    ∃ s t : State, step s = .next t ∧ s.dbg.fault = some (.engineContract 0) ∧ s.hostIn ≠ [] :=
  ⟨{ faulted with hostIn := [.op (HostRecord.ofCode 0x01#8)] }, _, rfl, rfl, by decide⟩

/-! ### States of the invariant -/

/-- A state with one running timer meets the invariant when its debug side does. -/
theorem one_timer_inv {s : State} (hd : s.devs = [⟨"d", .timer (timer 0#8 true)⟩]) (hb : addrMapOk s.dbg.breakpoints)
    (ht : s.dbg.tracepoints = []) (hp : s.PhaseOk) (hr : s.RunOk) (hi : s.eng.intLevel ≠ some true) : s.Inv where
  config := by rw [State.devices, hd]; decide
  devices := by
    intro d h
    rw [hd, List.mem_singleton] at h
    subst h
    trivial
  breakpoints := hb
  tracepoints := by rw [ht]; exact ⟨rfl, rfl⟩
  arity := by rw [ht]; intro x hx; cases hx
  phase := hp
  run := hr
  int := hi

/-- An idle state with a CONTINUE presented. -/
def presented (r : RunState) (halted : Bool) : State :=
  let s := one (.timer (timer 0#8 true))
  { s with
    dbg := { s.dbg with runState := r }, eng := { s.eng with halted := halted },
    hostIn := [.op (HostRecord.ofCode 0x01#8)] }

theorem presented_undefined_inv : (presented .undefined false).Inv :=
  one_timer_inv rfl ⟨rfl, rfl⟩ rfl rfl ⟨fun _ => ⟨rfl, rfl, rfl, rfl⟩, fun h => by cases h⟩ (by decide)

theorem presented_halted_inv : (presented .halted true).Inv :=
  one_timer_inv rfl ⟨rfl, rfl⟩ rfl rfl ⟨fun h => (by cases h), fun _ => ⟨rfl, rfl⟩⟩ (by decide)

theorem batchDue_inv (halted : Bool) : (batchDue none halted [(2, ())] []).Inv := by
  cases halted <;>
    exact one_timer_inv rfl ⟨by decide, by decide⟩ rfl ⟨rfl, rfl, rfl, by decide, by decide, by decide⟩
      ⟨fun h => (by cases h), fun h => (by cases h)⟩ (by decide)

/-- HaltedIsFinal: CONTINUE is presented to a Halted machine whose timer runs. -/
theorem witness_HaltedIsFinal :
    (presented .halted true).Inv ∧ (presented .halted true).dbg.runState = .halted ∧
    ∃ t, step (presented .halted true) = .next t :=
  ⟨presented_halted_inv, rfl, _, rfl⟩

/-- RunStateChangesOnlyByTheTable: a step of each kind. -/
theorem witness_RunStateChangesOnlyByTheTable :
    ((presented .undefined false).Inv ∧ ∃ t, step (presented .undefined false) = .next t ∧ t.dbg.runState = .running) ∧
    ((batchDue none true [(2, ())] []).Inv ∧ ∃ t, step (batchDue none true [(2, ())] []) = .next t ∧ t.dbg.runState = .halted) ∧
    ((batchDue none false [(2, ())] []).Inv ∧
      ∃ t, step (batchDue none false [(2, ())] []) = .next t ∧ t.dbg.runState = .breakHit) :=
  ⟨⟨presented_undefined_inv, _, rfl, by decide⟩, ⟨batchDue_inv true, _, rfl, by decide⟩, ⟨batchDue_inv false, _, rfl, by decide⟩⟩

theorem witness_EveryStepKeepsTheInvariant :
    (batchDue none false [(2, ())] []).Inv ∧ ∃ t, step (batchDue none false [(2, ())] []) = .next t :=
  ⟨batchDue_inv false, _, rfl⟩

theorem witness_CpuPortIsIsolatedFromDebugState :
    onCpuPort (.ioRd 0x01#8) = true ∧ (∃ t, exec (.ioRd 0x01#8) State.reset = .next t) ∧
    ∃ s' : State, s' ≠ State.reset ∧ s'.devs = State.reset.devs ∧ s'.params = State.reset.params :=
  ⟨rfl, ⟨_, rfl⟩, { State.reset with dbg := ⟨.running, [(2, ())], [], 9, false, none⟩ }, by decide, rfl, rfl⟩

theorem witness_RomContentsAreFixedForTheBus :
    (∃ t, exec (.memWr 0x0000#16 0xFF#8) State.reset = .next t) ∧ onCpuPort (.memWr 0x0000#16 0xFF#8) = true ∧
    (∃ t, exec (.writeMemory 0 255) State.reset = .next t) ∧ State.reset.params.hostWriteRom = .ignore ∧
    State.reset.devs[0]? = some { name := "rom", device := .rom (regionOf 0) } :=
  ⟨⟨_, rfl⟩, rfl, ⟨_, rfl⟩, rfl, by decide⟩

theorem witness_ConfigurationNeverChanges :
    ∃ t, step (State.reset.withFetchWord 32 0b11_00000000_00010000_00000011) = .next t ∧
      t.devs[3]? = some { name := "t", device := .timer (timer 3#8 false) } :=
  ⟨_, rfl, by decide⟩

/-- StepStopsOnlyOnWhatIsNoOperation: the two refusals are reached. -/
theorem witness_StepStopsOnlyOnWhatIsNoOperation :
    step (State.reset.withFetchWord 32 0b10_00000001_00000000_00000000) =
      .refused (.ioWordHighBits 0b10_00000001_00000000_00000000#26) ∧
    step (State.reset.withFetchWord 8 0x0D) = .refused (.unknownHostCode 0x0D#8) ∧
    step (State.reset.withFetchWord 8 0x00) = .refused (.unknownHostCode 0x00#8) :=
  ⟨rfl, rfl, rfl⟩

/-- A record at the edges of the checks of rule R341. -/
def edgeRecord : List RawDevice :=
  [⟨some "r", .ram (some 0xFF00) (some 0x100) (some [1#8])⟩,
    ⟨some "b", .drive (some 0xF8) (some 1) (some 1) (some [2#8])⟩,
    ⟨some "s", .serial (some 1) (some 1) (some 2) none⟩, ⟨some "s2", .serial (some 1) (some 2) (some 3) (some 1)⟩]

def edgeDescriptors : List Descriptor :=
  [⟨"r", .ram ⟨0xFF00#16, 0x100, some [1#8]⟩⟩, ⟨"b", .drive ⟨0xF8#8, 1, 1, some [2#8]⟩⟩, ⟨"s", .serial ⟨1#8, 1#8, 2#8, 256⟩⟩,
    ⟨"s2", .serial ⟨1#8, 2#8, 3#8, 1⟩⟩]

/-- ConstructionChecksTheConfiguration: a record that gives its parameters builds; without its name it gives none. -/
theorem witness_ConstructionChecksTheConfiguration :
    List.Forall₂ RawDevice.Gives edgeRecord edgeDescriptors ∧
    construct edgeRecord Config.defaultParams =
      .ok (State.initial { devices := edgeDescriptors, params := Config.defaultParams }) ∧
    ∀ d, ¬ RawDevice.Gives ⟨none, .timer (some 1) (some 2)⟩ d := by
  have given : List.Forall₂ RawDevice.Gives edgeRecord edgeDescriptors :=
    .cons ⟨rfl, rfl⟩ (.cons ⟨rfl, rfl⟩ (.cons ⟨rfl, none, rfl, rfl⟩ (.cons ⟨rfl, some 1, rfl, rfl⟩ .nil)))
  exact ⟨given, construct_ok_iff.2 ⟨_, readDevices_ok_iff.2 given, by decide, rfl⟩, fun d h => nomatch h.1⟩

theorem witness_ConstructionMeetsTheInvariant : ∃ s, construct edgeRecord Config.defaultParams = .ok s :=
  ⟨_, witness_ConstructionChecksTheConfiguration.2.1⟩

theorem witness_AcceptedTransactionWordIsAnEncoding :
    decode Config.reference.devices (.txn 0b11_00000000_00100111_00110000#26) = .ok (.bdCmdWriteSector 4) ∧
    decode Config.reference.devices (.txn 0b10_00000000_00000000_11111111#26) = .ok (.ioRd 0#8) := ⟨rfl, rfl⟩

/-- DecodeOfEncodeIsTheOperation: an operation of every row, at the ends of its operands' ranges. -/
theorem witness_DecodeOfEncodeIsTheOperation : ∀ i ∈ wellFormedOps, i.wellFormed Config.reference.devices = true :=
  test_wf_accepts

theorem witness_DecoderRefusesExactlyIoWordsWithHighBits :
    ((0b10_00000001_00000000_00000000#26 : TxnWord).getLsbD 25 = true ∧
      (0b10_00000001_00000000_00000000#26 : TxnWord).extractLsb' 16 8 ≠ 0#8) ∧
    ¬ ((0b11_00000000_11111111_11111111#26 : TxnWord).getLsbD 25 = true ∧
      (0b11_00000000_11111111_11111111#26 : TxnWord).extractLsb' 16 8 ≠ 0#8) := by decide

/-- StepRunsTheDecodedOperation: the host's turn, the engine's, the callback's, and a due batch. -/
theorem witness_StepRunsTheDecodedOperation :
    (∃ s : State, s.phase = .idle ∧ s.hostIn = .op (HostRecord.ofCode 0x06#8) :: [] ∧
      decode s.devices (.host (HostRecord.ofCode 0x06#8)) = .ok .queryHalted) ∧
    (∃ s : State, s.phase = .engine ⟨none, 0⟩ ∧ s.engineIn = .txn 0b11_00000000_00010000_00000011#26 :: [] ∧
      decode s.devices (.txn 0b11_00000000_00010000_00000011#26) = .ok (.tmrCount 3 3#8)) ∧
    (∃ s : State, s.phase = .callback ⟨none, 1⟩ 2#16 ⟨7, 1⟩ ∧
      s.callbackIn = .host (.op (HostRecord.ofCode 0x07#8)) :: [] ∧
      decode s.devices (.host (HostRecord.ofCode 0x07#8)) = .ok .queryBreak) ∧
    ∃ (s t : State), s.phase = .clock ⟨none, 1⟩ 1 ∧ exec (.clock 1) s = .next t :=
  ⟨⟨{ State.reset with hostIn := [.op (HostRecord.ofCode 0x06#8)] }, rfl, rfl, rfl⟩,
    ⟨{ State.reset with phase := .engine ⟨none, 0⟩, engineIn := [.txn 0b11_00000000_00010000_00000011#26] }, rfl, rfl, rfl⟩,
    ⟨{ State.reset with
        phase := .callback ⟨none, 1⟩ 2#16 ⟨7, 1⟩, callbackIn := [.host (.op (HostRecord.ofCode 0x07#8))] }, rfl, rfl, rfl⟩,
    ⟨batchDue none false [] [], _, rfl, rfl⟩⟩

/-- DevicesRecognizeTheirPorts: ports as construction requires them, and the last register of the highest drive. -/
theorem witness_DevicesRecognizeTheirPorts :
    (1#8 : Port) ≠ 2#8 ∧ (DeviceDesc.serial ⟨1#8, 1#8, 2#8, 1⟩).readReg 2#8 = some .serReady ∧
    (DeviceDesc.timer ⟨1#8, 2#8⟩).writeReg 2#8 = some .tmrControl ∧
    (DeviceDesc.drive ⟨0xF8#8, 1, 1, none⟩).readReg 0xFF#8 = some .bdStatus := by decide

end Sys2Proof.Machine.Tests
end

/-! # Encoding: what the decoder refuses, and which device register answers at which port -/

namespace Sys2Proof

/-! ## Refused transaction words (rule R101) -/

/-- Bit 25 of a word tells an I/O transaction from a memory transaction (rule R100). -/
theorem getLsbD_25_iff_kind_io (w : TxnWord) : w.getLsbD 25 = true ↔ txnKind w ≠ 0b00#2 ∧ txnKind w ≠ 0b01#2 := by
  have hbit : w.getLsbD 25 = (txnKind w).getLsbD 1 := by simp [txnKind]
  have hkind : ∀ k : BitVec 2, k.getLsbD 1 = true ↔ k ≠ 0b00#2 ∧ k ≠ 0b01#2 := by decide
  rw [hbit, hkind]

theorem decodeTxn_error_iff {devs : List Descriptor} {w : TxnWord} :
    (∃ e, decodeTxn devs w = .error e) ↔ w.getLsbD 25 = true ∧ txnHigh w ≠ 0#8 := by
  rw [getLsbD_25_iff_kind_io]
  constructor
  · rintro ⟨e, he⟩
    obtain ⟨-, hrd, hwr, hhigh⟩ := decodeTxn_error he
    exact ⟨⟨hrd, hwr⟩, hhigh⟩
  · rintro ⟨⟨hrd, hwr⟩, hhigh⟩
    exact ⟨.ioWordHighBits w, by simp [decodeTxn, hrd, hwr, hhigh]⟩

/-! ## The registers of each variant (rules R104 to R107, R110) -/

namespace DeviceDesc

theorem serial_readReg_eq_serIn_iff (d : SerialDesc) (p : Port) :
    (serial d).readReg p = some .serIn ↔ p = d.inPort := by
  simp [readReg]

theorem serial_readReg_eq_serReady_iff (d : SerialDesc) (p : Port) :
    (serial d).readReg p = some .serReady ↔ p ≠ d.inPort ∧ p = d.readyPort := by
  by_cases hin : p = d.inPort <;> simp [readReg, hin]

theorem serial_writeReg_eq_serOut_iff (d : SerialDesc) (p : Port) :
    (serial d).writeReg p = some .serOut ↔ p = d.outPort := by
  simp [writeReg]

theorem timer_writeReg_eq_tmrCount_iff (d : TimerDesc) (p : Port) :
    (timer d).writeReg p = some .tmrCount ↔ p = d.countPort := by
  simp [writeReg]

theorem timer_writeReg_eq_tmrControl_iff (d : TimerDesc) (p : Port) :
    (timer d).writeReg p = some .tmrControl ↔ p ≠ d.countPort ∧ p = d.controlPort := by
  by_cases hcount : p = d.countPort <;> simp [writeReg, hcount]

/-- The readable registers of a block drive with their offsets from `base_port` (rule R106), tied to the model by
`drive_readReg_eq_some_iff`. -/
def driveReads : List (ReadReg × Nat) :=
  [(.bdData, 0), (.bdStatus, 7)]

/-- The writable registers of a block drive with their offsets from `base_port` (rule R106), tied to the model by
`drive_writeReg_eq_some_iff`. -/
def driveWrites : List (WriteReg × Nat) :=
  [(.bdData, 0), (.bdLba0, 3), (.bdLba1, 4), (.bdLba2, 5), (.bdLba3, 6), (.bdCmd, 7)]

theorem drive_readReg_eq_some_iff (d : DriveDesc) (p : Port) (r : ReadReg) :
    (drive d).readReg p = some r ↔ ∃ k, (r, k) ∈ driveReads ∧ p.toNat = d.basePort.toNat + k := by
  constructor
  · intro h
    simp only [readReg] at h
    split_ifs at h with h0 h7 <;> cases h
    · exact ⟨0, by decide, h0⟩
    · exact ⟨7, by decide, h7⟩
  · rintro ⟨k, hk, hp⟩
    simp only [driveReads, List.mem_cons, Prod.mk.injEq, List.not_mem_nil, or_false] at hk
    obtain ⟨rfl, rfl⟩ | ⟨rfl, rfl⟩ := hk <;> simp [readReg, hp]

theorem drive_writeReg_eq_some_iff (d : DriveDesc) (p : Port) (r : WriteReg) :
    (drive d).writeReg p = some r ↔ ∃ k, (r, k) ∈ driveWrites ∧ p.toNat = d.basePort.toNat + k := by
  constructor
  · intro h
    simp only [writeReg] at h
    split_ifs at h with h0 h3 h4 h5 h6 h7 <;> cases h
    · exact ⟨0, by decide, h0⟩
    · exact ⟨3, by decide, h3⟩
    · exact ⟨4, by decide, h4⟩
    · exact ⟨5, by decide, h5⟩
    · exact ⟨6, by decide, h6⟩
    · exact ⟨7, by decide, h7⟩
  · rintro ⟨k, hk, hp⟩
    simp only [driveWrites, List.mem_cons, Prod.mk.injEq, List.not_mem_nil, or_false] at hk
    obtain ⟨rfl, rfl⟩ | ⟨rfl, rfl⟩ | ⟨rfl, rfl⟩ | ⟨rfl, rfl⟩ | ⟨rfl, rfl⟩ | ⟨rfl, rfl⟩ := hk <;> simp [writeReg, hp]

/-- Each readable register of a drive stands at one offset. -/
theorem eq_of_mem_driveReads : ∀ x ∈ driveReads, ∀ y ∈ driveReads, y.1 = x.1 → y.2 = x.2 := by decide

/-- Each writable register of a drive stands at one offset. -/
theorem eq_of_mem_driveWrites : ∀ x ∈ driveWrites, ∀ y ∈ driveWrites, y.1 = x.1 → y.2 = x.2 := by decide

theorem drive_readReg_eq_iff_of_mem (d : DriveDesc) (p : Port) {x : ReadReg × Nat} (hx : x ∈ driveReads) :
    (drive d).readReg p = some x.1 ↔ p.toNat = d.basePort.toNat + x.2 := by
  rw [drive_readReg_eq_some_iff]
  constructor
  · rintro ⟨k, hk, hp⟩
    rwa [← show k = x.2 from eq_of_mem_driveReads x hx _ hk rfl]
  · exact fun hp => ⟨x.2, hx, hp⟩

theorem drive_writeReg_eq_iff_of_mem (d : DriveDesc) (p : Port) {x : WriteReg × Nat} (hx : x ∈ driveWrites) :
    (drive d).writeReg p = some x.1 ↔ p.toNat = d.basePort.toNat + x.2 := by
  rw [drive_writeReg_eq_some_iff]
  constructor
  · rintro ⟨k, hk, hp⟩
    rwa [← show k = x.2 from eq_of_mem_driveWrites x hx _ hk rfl]
  · exact fun hp => ⟨x.2, hx, hp⟩

/-! ## The ports each variant recognizes (rule R110) -/

theorem serial_readReg_ne_none_iff (d : SerialDesc) (p : Port) :
    (serial d).readReg p ≠ none ↔ p = d.inPort ∨ p = d.readyPort := by
  by_cases hin : p = d.inPort <;> simp [readReg, hin]

theorem serial_writeReg_ne_none_iff (d : SerialDesc) (p : Port) : (serial d).writeReg p ≠ none ↔ p = d.outPort := by
  simp [writeReg]

theorem timer_writeReg_ne_none_iff (d : TimerDesc) (p : Port) :
    (timer d).writeReg p ≠ none ↔ p = d.countPort ∨ p = d.controlPort := by
  by_cases hcount : p = d.countPort <;> simp [writeReg, hcount]

theorem drive_readReg_ne_none_iff (d : DriveDesc) (p : Port) :
    (drive d).readReg p ≠ none ↔ ∃ k ∈ driveReads.map Prod.snd, p.toNat = d.basePort.toNat + k := by
  simp only [Option.ne_none_iff_exists', drive_readReg_eq_some_iff, List.mem_map, Prod.exists, exists_eq_right]
  exact ⟨fun ⟨r, k, hk, hp⟩ => ⟨k, ⟨r, hk⟩, hp⟩, fun ⟨k, ⟨r, hk⟩, hp⟩ => ⟨r, k, hk, hp⟩⟩

theorem drive_writeReg_ne_none_iff (d : DriveDesc) (p : Port) :
    (drive d).writeReg p ≠ none ↔ ∃ k ∈ driveWrites.map Prod.snd, p.toNat = d.basePort.toNat + k := by
  simp only [Option.ne_none_iff_exists', drive_writeReg_eq_some_iff, List.mem_map, Prod.exists, exists_eq_right]
  exact ⟨fun ⟨r, k, hk, hp⟩ => ⟨k, ⟨r, hk⟩, hp⟩, fun ⟨k, ⟨r, hk⟩, hp⟩ => ⟨r, k, hk, hp⟩⟩

end DeviceDesc

end Sys2Proof

namespace Sys2Proof.Machine

open DeviceDesc in
/-- Settles O57: the tables of the registers, then the registers' rows, which hold by definition. -/
theorem devicesRecognizeTheirPorts : Obligations.DevicesRecognizeTheirPorts := by
  refine ⟨fun p => ⟨fun d => ⟨serial_readReg_ne_none_iff d p, serial_writeReg_ne_none_iff d p⟩,
      fun d => ⟨rfl, timer_writeReg_ne_none_iff d p⟩,
      fun d => ⟨drive_readReg_ne_none_iff d p, drive_writeReg_ne_none_iff d p⟩,
      fun d => ⟨rfl, rfl, rfl, rfl⟩⟩,
    fun p => ⟨fun d => ⟨serial_readReg_eq_serIn_iff d p, fun hdiff => ?_, serial_writeReg_eq_serOut_iff d p⟩,
      fun d => ⟨timer_writeReg_eq_tmrCount_iff d p, fun hdiff => ?_⟩,
      fun d => ⟨fun x hx => drive_readReg_eq_iff_of_mem d p hx, fun x hx => drive_writeReg_eq_iff_of_mem d p hx⟩⟩,
    fun i v => ⟨rfl, rfl, rfl⟩⟩
  · rw [serial_readReg_eq_serReady_iff]
    exact ⟨And.right, fun hp => ⟨hp ▸ hdiff.symm, hp⟩⟩
  · rw [timer_writeReg_eq_tmrControl_iff]
    exact ⟨And.right, fun hp => ⟨hp ▸ hdiff.symm, hp⟩⟩

/-! ## Every accepted transaction word has a meaning (rule R101) -/

/-- An entry of the configuration's list is the entry of the device at that place. -/
theorem State.getElem?_devs_of_devices {s : State} {pre post : List Descriptor} {d : Descriptor}
    (h : s.devices = pre ++ d :: post) : ∃ x, s.devs[pre.length]? = some x ∧ x.descriptor = d := by
  have hd : s.devices[pre.length]? = some d := by simp [h]
  simpa [State.devices] using hd

theorem exists_device_of_soleReader {s : State} {p : Port} {i : Nat} {r : ReadReg}
    (h : soleReader s.devices p = some (i, r)) : ∃ x, s.devs[i]? = some x ∧ x.device.desc.readReg p = some r := by
  obtain ⟨pre, d, post, hdevs, rfl, hreg, -, -⟩ := readersFrom_eq_singleton (sole_eq h)
  obtain ⟨x, hx, rfl⟩ := State.getElem?_devs_of_devices hdevs
  exact ⟨x, by rwa [Nat.zero_add], hreg⟩

theorem exists_device_of_soleWriter {s : State} {p : Port} {i : Nat} {r : WriteReg}
    (h : soleWriter s.devices p = some (i, r)) : ∃ x, s.devs[i]? = some x ∧ x.device.desc.writeReg p = some r := by
  obtain ⟨pre, d, post, hdevs, rfl, hreg, -, -⟩ := writersFrom_eq_singleton (sole_eq h)
  obtain ⟨x, hx, rfl⟩ := State.getElem?_devs_of_devices hdevs
  exact ⟨x, by rwa [Nat.zero_add], hreg⟩

/-- A decoded read answers: its row names a device that has the register. -/
theorem exec_decodeIoRead_next (s : State) (p : Port) : ∃ t, exec (decodeIoRead s.devices p) s = .next t := by
  unfold decodeIoRead
  split
  · rename_i i r hsole
    obtain ⟨x, hx, hreg⟩ := exists_device_of_soleReader hsole
    obtain ⟨y, hy⟩ := Slot.readHandler_isSome (params := s.params) hreg
    exact ⟨_, (exec_readRow s i r).trans (State.readDevice_eq hx hy)⟩
  · exact ⟨_, rfl⟩

/-- A decoded write answers: its row names a device that has the register. -/
theorem exec_decodeIoWrite_next (s : State) (p : Port) (v : Byte) :
    ∃ t, exec (decodeIoWrite s.devices p v) s = .next t := by
  unfold decodeIoWrite
  split
  · rename_i i r hsole
    obtain ⟨x, hx, hreg⟩ := exists_device_of_soleWriter hsole
    obtain ⟨y, hy⟩ := Slot.writeHandler_isSome (params := s.params) (v := v) hreg
    exact ⟨_, (exec_writeRow s i v r).trans (State.writeDevice_eq hx hy)⟩
  · exact ⟨_, rfl⟩

theorem exec_next_of_decodeTxn {s : State} {w : TxnWord} {i : Instr} (h : decodeTxn s.devices w = .ok i) :
    ∃ t, exec i s = .next t := by
  obtain ⟨-, rfl⟩ | ⟨-, rfl⟩ | ⟨-, -, rfl⟩ | ⟨-, -, rfl⟩ := decodeTxn_ok h
  · exact ⟨_, rfl⟩
  · exact ⟨_, rfl⟩
  · exact exec_decodeIoRead_next s _
  · exact exec_decodeIoWrite_next s _ _

/-- Settles O56: a word that is not refused decodes, and what it decodes to answers. -/
theorem decoderRefusesExactlyIoWordsWithHighBits : Obligations.DecoderRefusesExactlyIoWordsWithHighBits := by
  intro s w
  refine ⟨decodeTxn_error_iff, fun hw => ?_⟩
  cases hd : decodeTxn s.devices w with
  | error e => exact absurd (decodeTxn_error_iff.1 ⟨e, hd⟩) hw
  | ok i =>
    obtain ⟨t, ht⟩ := exec_next_of_decodeTxn hd
    exact ⟨t, (issue_ok (c := .txn w) hd).trans ht⟩

end Sys2Proof.Machine

/-! # Bus dispatcher: memory transactions and clock batches -/

namespace Sys2Proof.Machine

/-! ## Memory transactions (rules R140, R142) -/

theorem exec_memRd (a : Addr) (s : State) : exec (.memRd a) s = .next (s.answerByte (memRead s.devs a)) := rfl

theorem exec_memWr (a : Addr) (v : Byte) (s : State) :
    exec (.memWr a v) s = .next (s.withWrite a (Device.busWrite a v)).answerNothing := rfl

/-- Every memory read after a bus write that a RAM claims. -/
theorem memRead_busWrite_ram {devs : List Slot} {i : Nat} {n : Name} {r : Region} {a : Addr}
    (hd : devs[i]? = some { name := n, device := .ram r }) (h : FirstRegion devs a i r) (v : Byte) (b : Addr) :
    memRead (writeClaimant devs a (Device.busWrite a v)) b = if b = a then v else memRead devs b := by
  rw [writeClaimant_first h hd]
  exact memRead_put h hd rfl b

/-- A bus write that a ROM claims changes no device. -/
theorem writeClaimant_busWrite_rom {devs : List Slot} {i : Nat} {n : Name} {r : Region} {a : Addr}
    (hd : devs[i]? = some { name := n, device := .rom r }) (h : FirstRegion devs a i r) (v : Byte) :
    writeClaimant devs a (Device.busWrite a v) = devs := by
  rw [writeClaimant_first h hd]
  exact set_getElem?_self hd

/-- Settles O3: the list after the write is the old one with the byte stored (RAM) or the old one (ROM). -/
theorem memoryReadAfterWriteLaws : Obligations.MemoryReadAfterWriteLaws := by
  intro s a v
  refine ⟨fun i n r hd hfirst => ⟨_, _, exec_memWr a v s, exec_memRd a _, ?_⟩,
    fun i n r hd hfirst => ⟨_, _, _, exec_memRd a s, exec_memWr a v _, exec_memRd a _, ?_⟩,
    fun hfree => ⟨_, exec_memRd a s, ?_⟩⟩
  · simp [memRead_busWrite_ram hd hfirst]
  · simp [writeClaimant_busWrite_rom hd hfirst]
  · simp [hfree.memRead_eq]

/-! ## Clock batches (rules R148, R149) -/

theorem Device.tick_of_not_timer {d : Device} (h : ∀ tm, d ≠ .timer tm) : d.tick = (d, Requests.none) := by
  cases d with
  | timer tm => exact absurd rfl (h tm)
  | rom | ram | serial | drive => rfl

/-- The bus state a clock batch answers. -/
theorem bus_of_exec_clock {s t : State} {c : Nat} (h : exec (.clock c) s = .next t) :
    t.returns.bus = some (clockAll c s.devs).2.busState := by
  cases h
  rfl

/-- Settles O12: the INT bit of a batch's bus state is the OR of the devices' INT requests, and no tick makes one. -/
theorem onlyTimersTickAndNoneRequestsInt : Obligations.OnlyTimersTickAndNoneRequestsInt := by
  refine ⟨fun d => Device.tick_of_not_timer, Device.tick_int, fun s t c bs ht hbs => ?_⟩
  rw [bus_of_exec_clock ht] at hbs
  cases hbs
  exact (Requests.busState_bits _).2.trans (clockAll_int c s.devs)

end Sys2Proof.Machine

/-! # Debug controller: the end of `Engine.step()`, the queries, and what Halted keeps -/

namespace Sys2Proof.Machine

/-! ## The end of `Engine.step()` (rules R210, R226) -/

theorem step_engine_ret {s : State} {call : Call} {c : Nat} {pc : Addr} {h : Bool} {rest : List EngineEvent}
    (hphase : s.phase = .engine call) (hin : s.engineIn = .ret c pc h :: rest) :
    step s = .next (State.engineReturns { s with engineIn := rest } call c pc h) := by
  rw [step_engine hphase, hin]
  rfl

/-- Settles O35: the two cases of `State.engineReturns`, each excluded by the other's count. -/
theorem engineReturnCountsCyclesOrFaults : Obligations.EngineReturnCountsCyclesOrFaults := by
  intro s call c pc h rest hphase hin
  rw [step_engine_ret hphase hin]
  obtain ⟨hzero, hret⟩ | ⟨hpos, hret⟩ := State.engineReturns_cases { s with engineIn := rest } call c pc h
  · exact ⟨fun hpos => by omega, fun _ => congrArg _ hret⟩
  · exact ⟨fun _ => congrArg _ hret, fun hzero => by omega⟩

/-! ## The queries (rules R224, R225) -/

theorem decodeHost_queryHalted {r : HostRecord} (hr : r.code = 0x06#8) : decodeHost r = .ok .queryHalted := by
  simp [decodeHost, hr]

theorem decodeHost_queryBreak {r : HostRecord} (hr : r.code = 0x07#8) : decodeHost r = .ok .queryBreak := by
  simp [decodeHost, hr]

theorem exec_queryHalted (s : State) :
    exec .queryHalted s = .next (s.reply (.bool (decide (s.dbg.runState = .halted)))) := rfl

theorem exec_queryBreak (s : State) :
    exec .queryBreak s = .next (s.reply (.bool (decide (s.dbg.runState = .breakHit)))) := rfl

/-- Settles O40: both codes decode to their query, and each query only answers. -/
theorem queriesTellTheRunState : Obligations.QueriesTellTheRunState :=
  ⟨fun _ => decodeHost_queryHalted, fun _ => decodeHost_queryBreak, fun s => ⟨exec_queryHalted s, exec_queryBreak s⟩⟩

/-! ## Updates that touch no timer -/

/-- The timer a device is, if it is one; `timerAt` looks it up by index (`timerAt_eq_bind`). -/
def Device.timer? : Device → Option Timer
  | .timer t => some t
  | .rom _ | .ram _ | .serial _ | .drive _ => none

theorem timerAt_eq_bind (devs : List Slot) (i : Nat) : timerAt devs i = devs[i]?.bind fun d => d.device.timer? := by
  unfold timerAt
  cases devs[i]? with
  | none => rfl
  | some d => obtain ⟨n, x⟩ := d; cases x <;> rfl

/-- Changing one device without changing the timer it may be leaves every timer as it was. -/
theorem timerAt_modify {devs : List Slot} {i : Nat} {f : Slot → Slot}
    (hf : ∀ d, devs[i]? = some d → (f d).device.timer? = d.device.timer?) (j : Nat) :
    timerAt (devs.modify i f) j = timerAt devs j := by
  rw [timerAt_eq_bind, timerAt_eq_bind, List.getElem?_modify]
  by_cases hij : i = j
  · subst hij
    cases hd : devs[i]? with
    | none => rfl
    | some d => simpa using hf d hd
  · simp [hij]

theorem timerAt_putDevice {devs : List Slot} {i : Nat} {d : Slot} {x : Device} (hd : devs[i]? = some d)
    (hx : x.timer? = d.device.timer?) (j : Nat) : timerAt (putDevice devs i x) j = timerAt devs j :=
  timerAt_modify (fun d' hd' => by rwa [← Option.some.inj (hd.symm.trans hd')]) j

theorem timerAt_writeClaimant (devs : List Slot) (a : Addr) {f : Device → Device} (hf : ∀ d, (f d).timer? = d.timer?)
    (j : Nat) : timerAt (writeClaimant devs a f) j = timerAt devs j := by
  unfold writeClaimant
  split
  · rfl
  · exact timerAt_modify (fun d _ => hf d.device) j

theorem Device.hostWrite_timer? (rom : HostWriteRom) (a : Addr) (v : Byte) (d : Device) :
    (d.hostWrite rom a v).timer? = d.timer? := by
  cases d with
  | rom r => cases rom <;> rfl
  | ram | serial | timer | drive => rfl

/-! ## Updates that run nothing: the run state, the cycles, the engine and the timers stay -/

/-- From `s` to `t` nothing ran: the run state, `cycles_total`, the engine (with the interrupts driven into it) and every timer
are the same. -/
structure State.SameRun (s t : State) : Prop where
  runState : t.dbg.runState = s.dbg.runState
  cyclesTotal : t.dbg.cyclesTotal = s.dbg.cyclesTotal
  eng : t.eng = s.eng
  timers : ∀ i, timerAt t.devs i = timerAt s.devs i

namespace State

theorem SameRun.refl (s : State) : s.SameRun s := ⟨rfl, rfl, rfl, fun _ => rfl⟩

theorem SameRun.trans {s t u : State} (hst : s.SameRun t) (htu : t.SameRun u) : s.SameRun u where
  runState := htu.runState.trans hst.runState
  cyclesTotal := htu.cyclesTotal.trans hst.cyclesTotal
  eng := htu.eng.trans hst.eng
  timers i := (htu.timers i).trans (hst.timers i)

theorem SameRun.reply {s t : State} (h : s.SameRun t) (r : HostReply) : s.SameRun (t.reply r) :=
  ⟨h.runState, h.cyclesTotal, h.eng, h.timers⟩

theorem sameRun_refuse (s : State) (e : HostError) : s.SameRun (s.refuse e) := (SameRun.refl s).reply _

theorem SameRun.unlessFaulted {s t : State} (h : s.SameRun t) : s.SameRun (s.unlessFaulted t) := by
  obtain ⟨-, heq⟩ | ⟨-, heq⟩ := s.unlessFaulted_cases t
  · rwa [heq]
  · rw [heq]
    exact sameRun_refuse s _

theorem SameRun.withAddr {s t : State} (h : s.SameRun t) (a : Nat) : s.SameRun (s.withAddr a t) := by
  rw [withAddr_eq]
  split
  · exact sameRun_refuse s _
  · exact h

theorem sameRun_putDevice {s : State} {i : Nat} {d : Slot} {x : Device} (hd : s.devs[i]? = some d)
    (hx : x.timer? = d.device.timer?) : s.SameRun (s.putDevice i x) :=
  ⟨rfl, rfl, rfl, timerAt_putDevice hd hx⟩

theorem sameRun_putSerial {s : State} {i : Nat} {p : SerialPort} (hp : serialAt s.devs i = some p) (q : SerialPort) :
    s.SameRun (s.putDevice i (.serial q)) := by
  obtain ⟨n, hd⟩ := serialAt_eq_some_iff.1 hp
  exact sameRun_putDevice hd rfl

theorem sameRun_putDrive {s : State} {i : Nat} {b : BlockDrive} (hb : driveAt s.devs i = some b) (c : BlockDrive) :
    s.SameRun (s.putDevice i (.drive c)) := by
  obtain ⟨n, hd⟩ := driveAt_eq_some_iff.1 hb
  exact sameRun_putDevice hd rfl

theorem sameRun_withWrite (s : State) (a : Addr) {f : Device → Device} (hf : ∀ d, (f d).timer? = d.timer?) :
    s.SameRun (s.withWrite a f) :=
  ⟨rfl, rfl, rfl, timerAt_writeClaimant s.devs a hf⟩

/-! ## Host operations that run nothing -/

theorem sameRun_hostWrite (s : State) (addr value : Nat) : s.SameRun (s.hostWrite addr value) := by
  unfold hostWrite
  split
  · exact (sameRun_withWrite s _ (Device.hostWrite_timer? _ _ _)).reply _
  · exact sameRun_refuse s _

theorem sameRun_putsAt (s : State) (i : Nat) (bs : List Byte) : s.SameRun (s.putsAt i bs) := by
  unfold putsAt
  split
  · exact .refl s
  · exact sameRun_putSerial ‹_› _

theorem sameRun_puts (s : State) (name : Name) (bytes : List Nat) : s.SameRun (s.puts name bytes) := by
  unfold puts
  split
  · exact (sameRun_putsAt s _ _).reply _
  all_goals exact sameRun_refuse s _

theorem sameRun_gets (s : State) (name : Name) (count : Option Nat) : s.SameRun (s.gets name count) := by
  unfold gets
  split
  · exact sameRun_refuse s _
  · split
    · exact sameRun_refuse s _
    · exact (sameRun_putSerial ‹_› _).reply _

theorem sameRun_readStoreByte (s : State) (name : Name) (sector offset : Nat) :
    s.SameRun (s.readStoreByte name sector offset) := by
  unfold readStoreByte
  repeat' split
  all_goals exact (SameRun.refl s).reply _

theorem sameRun_setStoreByte (s : State) (name : Name) (index : Nat) (v : Byte) :
    s.SameRun (s.setStoreByte name index v) := by
  unfold setStoreByte
  split
  · exact .refl s
  · split
    · exact .refl s
    · split
      · exact .refl s
      · split
        · exact sameRun_putDrive ‹_› _
        · exact .refl s

/-- In Halted a CONTINUE or STEP runs nothing: it is refused or returns 0 (rule R229). -/
theorem sameRun_continueWith_of_halted {s : State} (h : s.dbg.runState = .halted) (max : Option Nat) :
    s.SameRun (s.continueWith max) := by
  obtain ⟨-, heq⟩ | ⟨-, -, heq⟩ | ⟨-, -, heq⟩ := s.continueWith_cases max
  · rw [heq]; exact sameRun_refuse s _
  · rw [heq]; exact sameRun_refuse s _
  · obtain ⟨-, hbegin⟩ | ⟨hrun, -⟩ := s.beginCall_cases max
    · rw [heq, hbegin]; exact (SameRun.refl s).reply _
    · exact absurd h hrun

theorem reply_of_execReadMemory {s t : State} {addr : Nat} (h : execReadMemory addr s = .next t) :
    ∃ r, t = s.reply r := by
  unfold execReadMemory at h
  split at h
  all_goals
    cases h
    exact ⟨_, rfl⟩

theorem sameRun_setBreakpoints (s : State) (bps : List (Nat × Unit)) :
    s.SameRun { s with dbg := { s.dbg with breakpoints := bps } } :=
  ⟨rfl, rfl, rfl, fun _ => rfl⟩

theorem sameRun_setTracepoints (s : State) (tps : List (Nat × Callback)) :
    s.SameRun { s with dbg := { s.dbg with tracepoints := tps } } :=
  ⟨rfl, rfl, rfl, fun _ => rfl⟩

end State

theorem decodeHost_ne_clock {r : HostRecord} {i : Instr} (h : decodeHost r = .ok i) (c : Nat) : i ≠ .clock c := by
  rintro rfl
  simpa using decodeHost_ok h

/-- Every host operation but CONTINUE and STEP runs nothing. -/
theorem exec_hostOp_sameRun {i : Instr} {s t : State} (hport : onCpuPort i = false) (hclock : ∀ c, i ≠ .clock c)
    (h : exec i s = .next t) : (∃ max, t = s.continueWith max) ∨ s.SameRun t := by
  cases i with
  | continueRun | stepOne => cases h; exact .inl ⟨_, rfl⟩
  | setBreakpoint | removeBreakpoint =>
    cases h
    exact .inr (((s.sameRun_setBreakpoints _).reply _).withAddr _).unlessFaulted
  | registerTracepoint =>
    cases h
    refine .inr (State.SameRun.withAddr ?_ _).unlessFaulted
    split
    · exact s.sameRun_refuse _
    · exact (s.sameRun_setTracepoints _).reply _
  | queryHalted | queryBreak => cases h; exact .inr ((State.SameRun.refl s).reply _)
  | readMemory =>
    obtain ⟨v, rfl⟩ := State.reply_of_execReadMemory h
    exact .inr ((State.SameRun.refl s).reply v)
  | writeMemory => cases h; exact .inr (s.sameRun_hostWrite _ _).unlessFaulted
  | serialPuts => cases h; exact .inr (s.sameRun_puts _ _).unlessFaulted
  | serialGets => cases h; exact .inr (s.sameRun_gets _ _).unlessFaulted
  | bdReadByte => cases h; exact .inr (s.sameRun_readStoreByte _ _ _)
  | clock c => exact absurd rfl (hclock c)
  | _ => cases hport

/-- Taking an action from a queue runs nothing. -/
theorem TakesHostAct.sameRun {s s' : State} {a : HostAct} (h : TakesHostAct s s' a) : s.SameRun s' := by
  obtain ⟨rest, -, -, rfl⟩ | ⟨call, pcS, cb, rest, -, -, rfl⟩ := h <;> exact ⟨rfl, rfl, rfl, fun _ => rfl⟩

/-! ## Halted is final (rule R229) -/

theorem State.Inv.idle_of_halted {s : State} (hinv : s.Inv) (h : s.dbg.runState = .halted) : s.phase = .idle :=
  (hinv.run.2 h).1

/-- In Halted only the host has the turn, and nothing it does there runs anything. -/
theorem step_sameRun_of_halted {s t : State} (hidle : s.phase = .idle) (hrun : s.dbg.runState = .halted)
    (h : step s = .next t) : s.SameRun t := by
  cases step_kind h with
  | stay ht => exact ht ▸ .refl s
  | host i s' r htake hd hexec =>
    obtain ⟨max, rfl⟩ | hsame := exec_hostOp_sameRun (decodeHost_port hd) (decodeHost_ne_clock hd) hexec
    · exact htake.sameRun.trans (State.sameRun_continueWith_of_halted (htake.sameRun.runState.trans hrun) max)
    · exact htake.sameRun.trans hsame
  | store s' n k v htake ht => exact ht ▸ htake.sameRun.trans (State.sameRun_setStoreByte s' n k v)
  | txn _ _ _ _ hp | ret _ _ _ _ _ hp | clock _ _ hp | register _ _ _ _ _ _ hp | callbackRet _ _ _ _ hp =>
    cases hidle.symm.trans hp

/-- Settles O43: the invariant leaves the turn to the host in Halted, whose step runs nothing. -/
theorem haltedIsFinal : Obligations.HaltedIsFinal := by
  intro s t hinv hrun h
  have hsame := step_sameRun_of_halted (hinv.idle_of_halted hrun) hrun h
  exact ⟨hsame.runState.trans hrun, by rw [hsame.eng], by rw [hsame.eng], hsame.cyclesTotal, hsame.timers⟩

end Sys2Proof.Machine

/-! # Interval timer: no read reaches it -/

namespace Sys2Proof.Machine

/-! ## I/O reads and the devices that recognize none (rules R110, R144) -/

theorem exec_ioRd (p : Port) (s : State) :
    exec (.ioRd p) s = .next (s.finishRead (offerAll (Slot.offerRead s.params p) s.devs)) := rfl

theorem Slot.offerRead_of_unrecognized {p : Port} {d : Slot} (h : d.device.desc.readReg p = none) (params : Params) :
    d.offerRead params p = Handled.absent d := by
  simp [Slot.offerRead, h]

theorem readReg_of_isTimer {d : Slot} (h : isTimer d = true) (p : Port) : d.device.desc.readReg p = none := by
  obtain ⟨n, x⟩ := d
  cases x with
  | timer => rfl
  | rom | ram | serial | drive => cases h

theorem Slot.offerRead_of_isTimer {d : Slot} (h : isTimer d = true) (params : Params) (p : Port) :
    d.offerRead params p = Handled.absent d :=
  Slot.offerRead_of_unrecognized (readReg_of_isTimer h p) params

/-- Devices that take no part in an access can be left out: the others give its value and its fault. -/
theorem offerAll_filter_of_absent {offer : Slot → Handled Slot} {keep : Slot → Bool}
    (h : ∀ d, keep d = false → offer d = Handled.absent d) (devs : List Slot) :
    (offerAll offer (devs.filter keep)).value = (offerAll offer devs).value ∧
      (offerAll offer (devs.filter keep)).fault = (offerAll offer devs).fault := by
  induction devs with
  | nil => exact ⟨rfl, rfl⟩
  | cons d ds ih =>
    obtain ⟨hvalue, hfault⟩ := ih
    cases hd : keep d with
    | false => simp [hd, offerAll, h d hd, Handled.absent, hvalue, hfault]
    | true => cases hf : (offer d).fault <;> simp [hd, offerAll, hf, hvalue, hfault]

/-- A device that takes no part in an access stays as it was, whether or not the access faults. -/
theorem offerAll_dev_getElem?_of_absent {offer : Slot → Handled Slot} {devs : List Slot} {i : Nat} {d : Slot}
    (hd : devs[i]? = some d) (h : offer d = Handled.absent d) : (offerAll offer devs).dev[i]? = some d := by
  simpa [h, Handled.absent] using offerAll_dev_getElem? (offer := offer) hd

theorem State.finishRead_devs (s : State) (h : Handled (List Slot)) : (s.finishRead h).devs = h.dev := by
  cases hf : h.fault with
  | none => rw [State.finishRead_of_value hf]
  | some f => rw [State.finishRead_of_fault hf]

/-- What the CPU is answered depends on the value and on whether there was a fault, and on nothing else. -/
theorem State.finishRead_cpu (s : State) (h : Handled (List Slot)) :
    (s.finishRead h).returns.cpu = if h.fault.isSome then none else some (h.value.getD 0#8) := by
  cases hf : h.fault with
  | none => rw [State.finishRead_of_value hf]; rfl
  | some f => rw [State.finishRead_of_fault hf]; rfl

/-! ## Reads with and without the timers (rule R242) -/

/-- The timers take no part in a read, so the others give its answer. -/
theorem finishRead_cpu_filter_timers (s s' : State) (params : Params) (p : Port) (devs : List Slot) :
    (s'.finishRead (offerAll (Slot.offerRead params p) (devs.filter fun d => !isTimer d))).returns.cpu =
      (s.finishRead (offerAll (Slot.offerRead params p) devs)).returns.cpu := by
  have hoffer : ∀ d, (!isTimer d) = false → d.offerRead params p = Handled.absent d :=
    fun d hd => Slot.offerRead_of_isTimer (by simpa using hd) params p
  obtain ⟨hvalue, hfault⟩ := offerAll_filter_of_absent hoffer devs
  rw [State.finishRead_cpu, State.finishRead_cpu, hvalue, hfault]

/-- A read that no device but the timers recognizes is answered 0. -/
theorem finishRead_cpu_of_unrecognized {p : Port} {devs : List Slot}
    (h : ∀ d ∈ devs, isTimer d = false → d.device.desc.readReg p = none) (s : State) (params : Params) :
    (s.finishRead (offerAll (Slot.offerRead params p) devs)).returns.cpu = some 0#8 := by
  have hoffer : ∀ d ∈ devs, d.offerRead params p = Handled.absent d := fun d hd =>
    match ht : isTimer d with
    | true => Slot.offerRead_of_isTimer ht params p
    | false => Slot.offerRead_of_unrecognized (h d hd ht) params
  rw [offerAll_of_absent hoffer, State.finishRead_cpu]
  rfl

/-- A read leaves every timer as it was, even when another device's handler faults. -/
theorem timerAt_offerAll_offerRead {devs : List Slot} {i : Nat} {tm : Timer} (h : timerAt devs i = some tm)
    (params : Params) (p : Port) : timerAt (offerAll (Slot.offerRead params p) devs).dev i = some tm := by
  obtain ⟨n, hn⟩ := timerAt_eq_some_iff.1 h
  exact timerAt_eq_some_iff.2 ⟨n, offerAll_dev_getElem?_of_absent hn (Slot.offerRead_of_isTimer rfl params p)⟩

/-- Settles O15: a timer offered a read is ABSENT, so leaving the timers out changes no answer and the read changes no timer. -/
theorem timersAnswerNoRead : Obligations.TimersAnswerNoRead := by
  intro s p
  refine ⟨_, _, exec_ioRd p s, exec_ioRd p _, finishRead_cpu_filter_timers s _ s.params p s.devs,
    fun hnone => finishRead_cpu_of_unrecognized hnone s s.params, fun i tm hi => ?_⟩
  rw [State.finishRead_devs]
  exact timerAt_offerAll_offerRead hi s.params p

end Sys2Proof.Machine

/-! # Block drive: a write of another byte to the command port -/

namespace Sys2Proof.Machine

/-! ## The write transaction (rule R146) -/

theorem exec_ioWr (p : Port) (v : Byte) (s : State) :
    exec (.ioWr p v) s = .next (s.finishWrite (offerAll (Slot.offerWrite s.params p v) s.devs)) := rfl

/-- The end of a write keeps what the handlers did to the devices, whether or not one of them faulted. -/
theorem State.finishWrite_devs (s : State) (h : Handled (List Slot)) : (s.finishWrite h).devs = h.dev := by
  cases hf : h.fault with
  | none => rw [State.finishWrite_of_done hf]
  | some f => rw [State.finishWrite_of_fault hf]

/-! ## The command port (rules R106, R269) -/

/-- At `base+7` a drive is offered the written byte as its command. -/
theorem Slot.offerWrite_drive_command {b : BlockDrive} {p : Port} (hp : p.toNat = b.desc.basePort.toNat + 7)
    (params : Params) (v : Byte) (n : Name) :
    Slot.offerWrite params p v { name := n, device := .drive b } =
      (b.command v n).map fun b' => { name := n, device := .drive b' } := by
  have hreg : (DeviceDesc.drive b.desc).writeReg p = some .bdCmd :=
    (DeviceDesc.drive_writeReg_eq_iff_of_mem b.desc p (x := (.bdCmd, 7)) (by decide)).2 hp
  simp [Slot.offerWrite, Device.desc, hreg, Slot.writeHandler, Slot.onDrive]

/-- On a byte that is neither command the handler behaves as a device that takes no part in the access (rule R269). -/
theorem BlockDrive.command_of_ne {v : Byte} (hread : v ≠ 0x20#8) (hwrite : v ≠ 0x30#8) (n : Name) (b : BlockDrive) :
    b.command v n = Handled.absent b := by
  rw [BlockDrive.command, if_neg hread, if_neg hwrite]
  rfl

/-- Settles O25: the drive takes no part in the write, so it stays as it was even when another device's handler faults. -/
theorem otherCommandByteLeavesTheDrive : Obligations.OtherCommandByteLeavesTheDrive := by
  intro s p v i n b hi hp hread hwrite
  have hoffer : Slot.offerWrite s.params p v { name := n, device := .drive b } =
      Handled.absent { name := n, device := .drive b } := by
    rw [Slot.offerWrite_drive_command hp, BlockDrive.command_of_ne hread hwrite]
    rfl
  refine ⟨by rw [hoffer]; rfl, _, exec_ioWr p v s, ?_⟩
  rw [State.finishWrite_devs]
  exact offerAll_dev_getElem?_of_absent hi hoffer

end Sys2Proof.Machine

/-! # Model faults: the handler that ends a transaction -/

namespace Sys2Proof.Machine

/-! ## The transaction ends at the first fault (rules R144, R146, R310, R315) -/

/-- A read ends at the first handler that faults, as a fault raised with the devices that handler and those before it left. -/
theorem exec_ioRd_of_fault {s : State} {p : Port} {pre post : List Slot} {d : Slot} {f : ModelFault}
    (hdevs : s.devs = pre ++ d :: post) (hpre : ∀ x ∈ pre, (x.offerRead s.params p).fault = none)
    (hd : (d.offerRead s.params p).fault = some f) :
    exec (.ioRd p) s = .next (State.raise
      { s with devs := (pre.map fun x => (x.offerRead s.params p).dev) ++ (d.offerRead s.params p).dev :: post } f) := by
  obtain ⟨hdev, hfault⟩ := offerAll_of_fault (post := post) hd hpre
  rw [exec_ioRd, hdevs, State.finishRead_of_fault hfault, hdev]
  rfl

/-- A write ends at the first handler that faults, as a fault raised with the devices that handler and those before it left. -/
theorem exec_ioWr_of_fault {s : State} {p : Port} {v : Byte} {pre post : List Slot} {d : Slot} {f : ModelFault}
    (hdevs : s.devs = pre ++ d :: post) (hpre : ∀ x ∈ pre, (x.offerWrite s.params p v).fault = none)
    (hd : (d.offerWrite s.params p v).fault = some f) :
    exec (.ioWr p v) s = .next (State.raise
      { s with devs := (pre.map fun x => (x.offerWrite s.params p v).dev) ++ (d.offerWrite s.params p v).dev :: post } f) := by
  obtain ⟨hdev, hfault⟩ := offerAll_of_fault (post := post) hd hpre
  rw [exec_ioWr, hdevs, State.finishWrite_of_fault hfault, hdev]
  rfl

/-! ## A read handler that faults changes nothing (rules R276, R315) -/

/-- A handler's result on `x` leaves `x` as it was if the handler faulted. -/
def Handled.SameIfFaulted {α : Type} (x : α) (h : Handled α) : Prop :=
  ∀ f, h.fault = some f → h.dev = x

theorem Handled.sameIfFaulted_of_no_fault {α : Type} {x : α} {h : Handled α} (hf : h.fault = none) : h.SameIfFaulted x := by
  intro f hfault
  cases hf.symm.trans hfault

theorem Slot.onSerial_sameIfFaulted {g : SerialPort → Handled SerialPort} (hg : ∀ q, (g q).SameIfFaulted q) {d : Slot}
    {h : Handled Slot} (hd : d.onSerial g = some h) : h.SameIfFaulted d := by
  obtain ⟨n, x⟩ := d
  cases x with
  | serial q =>
    cases hd
    exact fun f hfault => congrArg (fun q' => Slot.mk n (.serial q')) (hg q f hfault)
  | rom | ram | timer | drive => cases hd

theorem Slot.onDrive_sameIfFaulted {g : Name → BlockDrive → Handled BlockDrive} (hg : ∀ n b, (g n b).SameIfFaulted b)
    {d : Slot} {h : Handled Slot} (hd : d.onDrive g = some h) : h.SameIfFaulted d := by
  obtain ⟨n, x⟩ := d
  cases x with
  | drive b =>
    cases hd
    exact fun f hfault => congrArg (fun b' => Slot.mk n (.drive b')) (hg n b f hfault)
  | rom | ram | serial | timer => cases hd

theorem SerialPort.serIn_fault (pol : SerialOverflow) (q : SerialPort) : (q.serIn pol).fault = none := by
  unfold SerialPort.serIn
  split <;> rfl

/-- The data port's read checks its phase before any change (rule R276). -/
theorem BlockDrive.dataRead_sameIfFaulted (n : Name) (b : BlockDrive) : (b.dataRead n).SameIfFaulted b := by
  unfold BlockDrive.dataRead
  split
  · exact Handled.sameIfFaulted_of_no_fault rfl
  · exact fun _ _ => rfl

theorem Slot.readHandler_sameIfFaulted {params : Params} {d : Slot} {r : ReadReg} {h : Handled Slot}
    (hd : d.readHandler params r = some h) : h.SameIfFaulted d := by
  cases r with
  | serIn => exact Slot.onSerial_sameIfFaulted (fun q => Handled.sameIfFaulted_of_no_fault (SerialPort.serIn_fault _ q)) hd
  | serReady => exact Slot.onSerial_sameIfFaulted (fun _ => Handled.sameIfFaulted_of_no_fault rfl) hd
  | bdData => exact Slot.onDrive_sameIfFaulted BlockDrive.dataRead_sameIfFaulted hd
  | bdStatus => exact Slot.onDrive_sameIfFaulted (fun _ _ => Handled.sameIfFaulted_of_no_fault rfl) hd

theorem Slot.offerRead_sameIfFaulted (params : Params) (p : Port) (d : Slot) : (d.offerRead params p).SameIfFaulted d := by
  cases hr : d.device.desc.readReg p with
  | none =>
    rw [Slot.offerRead_of_unrecognized hr]
    exact Handled.sameIfFaulted_of_no_fault rfl
  | some r =>
    obtain ⟨h, hd⟩ := Slot.readHandler_isSome (params := params) hr
    have hoffer : d.offerRead params p = h := by simp [Slot.offerRead, hr, hd]
    exact hoffer ▸ Slot.readHandler_sameIfFaulted hd

/-! ## When a sector cannot be loaded or stored (rule R278) -/

theorem BlockDrive.loadSector_eq_none_iff (b : BlockDrive) (k : Nat) :
    b.loadSector k = none ↔ b.store ≠ none ∧ b.desc.numSectors ≤ k := by
  unfold BlockDrive.loadSector
  cases b.store <;> simp

theorem BlockDrive.storeSector_eq_none_iff (b : BlockDrive) (k : Nat) (buf : Memory) :
    b.storeSector k buf = none ↔ b.store ≠ none ∧ b.desc.numSectors ≤ k := by
  unfold BlockDrive.storeSector
  cases b.store <;> simp

/-! ## How a drive's write handlers fault (rules R266, R272, R276, R315) -/

namespace BlockDrive

theorem cmdRead_of_fault {b : BlockDrive} {n : Name} {f : ModelFault} (h : (b.cmdRead n).fault = some f) :
    f = .bdLbaRange n (lbaOf b) ∧ b.store ≠ none ∧ b.desc.numSectors ≤ lbaOf b ∧ (b.cmdRead n).dev = b := by
  cases hload : b.loadSector (lbaOf b) with
  | some data => simp [cmdRead, hload] at h
  | none =>
    obtain ⟨hstore, hlba⟩ := (loadSector_eq_none_iff b _).1 hload
    rw [cmdRead, hload] at h ⊢
    exact ⟨(Option.some.inj h).symm, hstore, hlba, rfl⟩

theorem flush_of_fault {b : BlockDrive} {n : Name} {f : ModelFault} (h : (b.flush n).fault = some f) :
    f = .bdLbaRange n (lbaOf b) ∧ b.store ≠ none ∧ b.desc.numSectors ≤ lbaOf b ∧ (b.flush n).dev = b := by
  cases hput : b.storeSector (lbaOf b) b.sectorBuffer with
  | some b' => simp [flush, hput] at h
  | none =>
    obtain ⟨hstore, hlba⟩ := (storeSector_eq_none_iff b _ _).1 hput
    rw [flush, hput] at h ⊢
    exact ⟨(Option.some.inj h).symm, hstore, hlba, rfl⟩

/-- Of the commands only the read command faults (rules R266, R268, R269). -/
theorem command_of_fault {b : BlockDrive} {v : Byte} {n : Name} {f : ModelFault} (h : (b.command v n).fault = some f) :
    v = 0x20#8 ∧ b.command v n = b.cmdRead n := by
  by_cases hread : v = 0x20#8
  · exact ⟨hread, if_pos hread⟩
  · simp only [command, if_neg hread] at h
    split at h <;> cases h

/-- Out of its phase a written byte is refused before any change (rule R276). -/
theorem dataWrite_of_not_phase {b : BlockDrive} (h : ¬ (b.mode = .write ∧ b.bufferOffset < b.desc.sectorSize)) (v : Byte)
    (n : Name) :
    b.dataWrite v n = { dev := b, value := none, fault := some (.bdProtocol n .write b.mode b.bufferOffset) } :=
  if_neg h

/-- Within its phase a written byte faults only as the sector's last one, at the flush that follows it (rule R272). -/
theorem dataWrite_of_phase_of_fault {b : BlockDrive} {v : Byte} {n : Name} {f : ModelFault}
    (hphase : b.mode = .write ∧ b.bufferOffset < b.desc.sectorSize) (h : (b.dataWrite v n).fault = some f) :
    b.bufferOffset + 1 = b.desc.sectorSize ∧ b.dataWrite v n = (b.acceptByte v).flush n := by
  by_cases hlast : b.bufferOffset + 1 = b.desc.sectorSize
  · exact ⟨hlast, by rw [dataWrite, if_pos hphase, if_pos hlast]⟩
  · rw [dataWrite, if_pos hphase, if_neg hlast] at h
    cases h

/-- The byte that completes the sector stands at its last offset (rule R272). -/
theorem acceptByte_of_last {b : BlockDrive} (h : b.bufferOffset + 1 = b.desc.sectorSize) (v : Byte) :
    b.acceptByte v =
      { b with sectorBuffer := b.sectorBuffer.write (b.desc.sectorSize - 1) v, bufferOffset := b.desc.sectorSize } := by
  rw [acceptByte, ← h, Nat.add_sub_cancel]

end BlockDrive

/-- At `base` a drive is offered the written byte as the next byte of its sector (rule R106). -/
theorem Slot.offerWrite_drive_data {b : BlockDrive} {p : Port} (hp : p.toNat = b.desc.basePort.toNat) (params : Params)
    (v : Byte) (n : Name) :
    Slot.offerWrite params p v { name := n, device := .drive b } =
      (b.dataWrite v n).map fun b' => { name := n, device := .drive b' } := by
  have hreg : (DeviceDesc.drive b.desc).writeReg p = some .bdData :=
    (DeviceDesc.drive_writeReg_eq_iff_of_mem b.desc p (x := (.bdData, 0)) (by decide)).2 hp
  simp [Slot.offerWrite, Device.desc, hreg, Slot.writeHandler, Slot.onDrive]

/-- Of a drive's writable registers only the data port and the command port can fault (rules R260, R315). -/
theorem Slot.port_of_offerWrite_drive_fault {b : BlockDrive} {n : Name} {params : Params} {p : Port} {v : Byte} {f : ModelFault}
    (h : (Slot.offerWrite params p v { name := n, device := .drive b }).fault = some f) :
    p.toNat = b.desc.basePort.toNat ∨ p.toNat = b.desc.basePort.toNat + 7 := by
  cases hreg : (DeviceDesc.drive b.desc).writeReg p with
  | none => simp [Slot.offerWrite, Device.desc, hreg, Handled.absent] at h
  | some r =>
    simp only [Slot.offerWrite, Device.desc, hreg] at h
    cases r with
    | bdData => exact .inl ((DeviceDesc.drive_writeReg_eq_iff_of_mem b.desc p (x := (.bdData, 0)) (by decide)).1 hreg)
    | bdCmd => exact .inr ((DeviceDesc.drive_writeReg_eq_iff_of_mem b.desc p (x := (.bdCmd, 7)) (by decide)).1 hreg)
    | serOut | tmrCount | tmrControl | bdLba0 | bdLba1 | bdLba2 | bdLba3 => cases h

/-! ## The block drive's three faults of a write (rule R315) -/

/-- Out of protocol at the data port: nothing changes. -/
theorem Slot.offerWrite_drive_protocol_fault {b : BlockDrive} {n : Name} {params : Params} {p : Port} {v : Byte} {f : ModelFault}
    (hp : p.toNat = b.desc.basePort.toNat) (hphase : ¬ (b.mode = .write ∧ b.bufferOffset < b.desc.sectorSize))
    (h : (Slot.offerWrite params p v { name := n, device := .drive b }).fault = some f) :
    f = .bdProtocol n .write b.mode b.bufferOffset ∧
      (Slot.offerWrite params p v { name := n, device := .drive b }).dev = { name := n, device := .drive b } := by
  rw [Slot.offerWrite_drive_data hp, BlockDrive.dataWrite_of_not_phase hphase] at h ⊢
  exact ⟨(Option.some.inj h).symm, rfl⟩

/-- At the flush: the sector's last byte is stored before it, and nothing else changes. -/
theorem Slot.offerWrite_drive_flush_fault {b : BlockDrive} {n : Name} {params : Params} {p : Port} {v : Byte} {f : ModelFault}
    (hp : p.toNat = b.desc.basePort.toNat) (hphase : b.mode = .write ∧ b.bufferOffset < b.desc.sectorSize)
    (h : (Slot.offerWrite params p v { name := n, device := .drive b }).fault = some f) :
    f = .bdLbaRange n (lbaOf b) ∧ b.store ≠ none ∧ b.desc.numSectors ≤ lbaOf b ∧ b.bufferOffset + 1 = b.desc.sectorSize ∧
      (Slot.offerWrite params p v { name := n, device := .drive b }).dev =
        { name := n, device := .drive { b with
            sectorBuffer := b.sectorBuffer.write (b.desc.sectorSize - 1) v, bufferOffset := b.desc.sectorSize } } := by
  rw [Slot.offerWrite_drive_data hp] at h ⊢
  obtain ⟨hlast, hflush⟩ := BlockDrive.dataWrite_of_phase_of_fault hphase h
  rw [hflush] at h ⊢
  obtain ⟨hf, hstore, hlba, hdev⟩ := BlockDrive.flush_of_fault h
  refine ⟨hf, hstore, hlba, hlast, congrArg (fun b' => Slot.mk n (.drive b')) ?_⟩
  exact hdev.trans (BlockDrive.acceptByte_of_last hlast v)

/-- At a read command beyond the last sector: nothing changes. -/
theorem Slot.offerWrite_drive_command_fault {b : BlockDrive} {n : Name} {params : Params} {p : Port} {v : Byte} {f : ModelFault}
    (hp : p.toNat = b.desc.basePort.toNat + 7)
    (h : (Slot.offerWrite params p v { name := n, device := .drive b }).fault = some f) :
    v = 0x20#8 ∧ f = .bdLbaRange n (lbaOf b) ∧ b.store ≠ none ∧ b.desc.numSectors ≤ lbaOf b ∧
      (Slot.offerWrite params p v { name := n, device := .drive b }).dev = { name := n, device := .drive b } := by
  rw [Slot.offerWrite_drive_command hp] at h ⊢
  obtain ⟨hv, hread⟩ := BlockDrive.command_of_fault h
  rw [hread] at h ⊢
  obtain ⟨hf, hstore, hlba, hdev⟩ := BlockDrive.cmdRead_of_fault h
  exact ⟨hv, hf, hstore, hlba, congrArg (fun b' => Slot.mk n (.drive b')) hdev⟩

/-- Settles O8: the list's law of the first fault for both transactions, then the port and the phase say how a drive faulted. -/
theorem firstFaultingDeviceEndsTheTransaction : Obligations.FirstFaultingDeviceEndsTheTransaction := by
  refine ⟨fun s p pre post d f hdevs hpre hd => exec_ioRd_of_fault hdevs hpre hd,
    fun s p v pre post d f hdevs hpre hd => exec_ioWr_of_fault hdevs hpre hd,
    fun params p d f hd => Slot.offerRead_sameIfFaulted params p d f hd, fun params p v n b f h => ?_⟩
  split_ifs with hp hphase
  · exact Slot.offerWrite_drive_flush_fault hp hphase h
  · exact Slot.offerWrite_drive_protocol_fault hp hphase h
  · have hp7 := (Slot.port_of_offerWrite_drive_fault h).resolve_left hp
    exact ⟨hp7, Slot.offerWrite_drive_command_fault hp7 h⟩

end Sys2Proof.Machine

/-! # Reset: the state construction builds -/

namespace Sys2Proof.Machine

/-! ## Devices at construction (rules R33, R36, R38, R40, R42) -/

@[simp] theorem Device.desc_reset (params : Params) (d : DeviceDesc) : (Device.reset params d).desc = d := by
  cases d <;> rfl

theorem Region.read_reset (d : RegionDesc) (k : Nat) : (Region.reset d).contents.read k = (d.image.getD []).getD k 0#8 :=
  Memory.read_ofBytes _ k

theorem BlockDrive.store_reset_of_no_file {d : DriveDesc} (h : d.file = none) (params : Params) :
    (BlockDrive.reset params d).store = none := by
  simp [BlockDrive.reset, h]

theorem BlockDrive.store_reset_of_file {d : DriveDesc} {f : List Byte} (h : d.file = some f) (params : Params) :
    ∃ m, (BlockDrive.reset params d).store = some m ∧ ∀ k, m.read k = f.getD k 0#8 :=
  ⟨Memory.ofBytes f, by simp [BlockDrive.reset, h], Memory.read_ofBytes f⟩

theorem Timer.stopped_of_reset {params : Params} {d : DeviceDesc} {t : Timer} (h : Device.reset params d = .timer t) :
    t.running = false := by
  cases d with
  | timer => cases h; rfl
  | rom | ram | serial | drive => cases h

/-! ## The state built (rules R342, R343) -/

@[simp] theorem State.config_initial (c : Config) : (State.initial c).config = c := by
  simp [State.config, State.devices, State.initial, Slot.descriptor, Function.comp_def]

theorem State.eq_reset_of_mem_devs_initial {c : Config} {x : Slot} (h : x ∈ (State.initial c).devs) :
    ∃ d ∈ c.devices, x = ⟨d.name, Device.reset c.params d.desc⟩ := by
  obtain ⟨d, hd, rfl⟩ := List.mem_map.1 h
  exact ⟨d, hd, rfl⟩

theorem State.timer_stopped_of_initial {c : Config} {i : Nat} {t : Timer} (h : timerAt (State.initial c).devs i = some t) :
    t.running = false := by
  obtain ⟨n, hn⟩ := timerAt_eq_some_iff.1 h
  obtain ⟨d, -, hd⟩ := State.eq_reset_of_mem_devs_initial (List.mem_of_getElem? hn)
  exact Timer.stopped_of_reset (congrArg Slot.device hd).symm

/-! ## Clock batches of stopped timers (rules R148, R244, R246) -/

theorem clockAll_requests_none {devs : List Slot} (h : ∀ i t, timerAt devs i = some t → t.running = false) (n : Nat) :
    (clockAll n devs).2 = Requests.none := by
  have hnmi : (clockAll n devs).2.nmi = false := by
    refine Bool.eq_false_iff.2 fun hn => ?_
    obtain ⟨i, t, ht, hrun, -⟩ := (clockAll_nmi_iff n devs).1 hn
    simp [h i t ht] at hrun
  calc (clockAll n devs).2
    _ = ⟨(clockAll n devs).2.nmi, (clockAll n devs).2.int⟩ := rfl
    _ = Requests.none := by rw [hnmi, clockAll_int]; rfl

theorem exec_clock_initial (c : Config) (n : Nat) :
    ∃ t, exec (.clock n) (State.initial c) = .next t ∧ t.returns.bus = some 0b00#2 := by
  refine ⟨_, rfl, (bus_of_exec_clock (c := n) rfl).trans ?_⟩
  rw [clockAll_requests_none fun i t => State.timer_stopped_of_initial]
  rfl

/-- Settles O53: the registers by cases on the device's variant; no batch requests an interrupt because every timer is stopped. -/
theorem resetValuesAreTheSpecs : Obligations.ResetValuesAreTheSpecs := by
  refine ⟨rfl, fun c => ⟨State.config_initial c, rfl, rfl, rfl, exec_clock_initial c, fun x hx => ?_⟩⟩
  obtain ⟨⟨n, d⟩, -, rfl⟩ := State.eq_reset_of_mem_devs_initial hx
  cases d with
  | rom d => exact Region.read_reset d
  | ram d => exact Region.read_reset d
  | serial d =>
    intro q hq
    obtain rfl : q = Ring.reset := by simpa using hq
    exact ⟨rfl, rfl, rfl, Memory.read_nil⟩
  | timer d => exact ⟨rfl, rfl⟩
  | drive d =>
    refine ⟨rfl, rfl, rfl, rfl, rfl, rfl, rfl, Memory.read_nil, ?_⟩
    split
    next hfile => exact BlockDrive.store_reset_of_no_file hfile c.params
    next hfile => exact BlockDrive.store_reset_of_file hfile c.params

end Sys2Proof.Machine

/-! # What an operation does to each device -/

namespace Sys2Proof.Machine

/-! ## Device lists compared device by device -/

/-- The list `devs'` has a device for each of `devs`, related to it by `R`. -/
structure EachTo (R : Slot → Slot → Prop) (devs devs' : List Slot) : Prop where
  length : devs'.length = devs.length
  each : ∀ (i : Nat) (d : Slot), devs[i]? = some d → ∃ d', devs'[i]? = some d' ∧ R d d'

namespace EachTo

variable {R Q : Slot → Slot → Prop} {devs devs' : List Slot}

theorem refl (hR : ∀ d, R d d) (devs : List Slot) : EachTo R devs devs :=
  ⟨rfl, fun _ d hd => ⟨d, hd, hR d⟩⟩

theorem mono (h : EachTo R devs devs') (hRQ : ∀ d d', R d d' → Q d d') : EachTo Q devs devs' where
  length := h.length
  each i d hd :=
    have ⟨d', hd', hR⟩ := h.each i d hd
    ⟨d', hd', hRQ d d' hR⟩

theorem map {f : Slot → Slot} (h : ∀ d, R d (f d)) (devs : List Slot) : EachTo R devs (devs.map f) where
  length := List.length_map _
  each i d hd := ⟨f d, by simp [hd], h d⟩

/-- One device is replaced, the others stay. -/
theorem set (hR : ∀ d, R d d) {i : Nat} {d d' : Slot} (hd : devs[i]? = some d) (h : R d d') :
    EachTo R devs (devs.set i d') where
  length := List.length_set
  each j e he := by
    by_cases hij : i = j
    · subst hij
      obtain rfl := Option.some.inj (hd.symm.trans he)
      exact ⟨d', List.getElem?_set_self (List.getElem?_eq_some_iff.1 hd).1, h⟩
    · exact ⟨e, by rw [List.getElem?_set_ne hij, he], hR e⟩

/-- A write reaches the claimant alone, if there is one (rules R142, R152). -/
theorem writeClaimant (hR : ∀ d, R d d) {a : Addr} {f : Device → Device}
    (h : ∀ d : Slot, d.claims a = true → R d { d with device := f d.device }) (devs : List Slot) :
    EachTo R devs (writeClaimant devs a f) := by
  unfold Machine.writeClaimant
  cases hc : claimant devs a with
  | none => exact refl hR devs
  | some i =>
    obtain ⟨hi, hclaims, -⟩ := List.findIdx?_eq_some_iff_getElem.1 hc
    have hd := List.getElem?_eq_getElem hi
    dsimp only
    rw [modify_eq_set hd]
    exact set hR hd (h _ hclaims)

/-- What every change keeps of a device, the list keeps. -/
theorem map_eq {α : Type} {g : Slot → α} (h : EachTo R devs devs') (hR : ∀ d d', R d d' → g d' = g d) :
    devs'.map g = devs.map g := by
  apply List.ext_getElem?
  intro i
  simp only [List.getElem?_map]
  cases hd : devs[i]? with
  | none => rw [List.getElem?_eq_none_iff.2 (h.length ▸ List.getElem?_eq_none_iff.1 hd)]
  | some d =>
    obtain ⟨d', hd', hdd'⟩ := h.each i d hd
    simp [hd', hR d d' hdd']

/-- Every device of the new list comes from one of the old list. -/
theorem exists_of_mem (h : EachTo R devs devs') {d' : Slot} (hd' : d' ∈ devs') : ∃ d ∈ devs, R d d' := by
  obtain ⟨i, hi⟩ := List.getElem?_of_mem hd'
  have hlt : i < devs.length := h.length ▸ (List.getElem?_eq_some_iff.1 hi).1
  obtain ⟨e, he, hR⟩ := h.each i devs[i] (List.getElem?_eq_getElem hlt)
  exact ⟨devs[i], List.getElem_mem hlt, Option.some.inj (he.symm.trans hi) ▸ hR⟩

end EachTo

/-! ## What an operation of the CPU port does -/

/-- What an operation of the CPU port can do to one device: nothing, a register's handler (rules R144, R146), or a memory write the
device claims (rule R142). A handler that faulted leaves a fault recorded. -/
inductive Slot.BusChange (params : Params) (faulted : Bool) (d : Slot) : Slot → Prop where
  | same : BusChange params faulted d d
  | read (r : ReadReg) (h : Handled Slot) (hh : d.readHandler params r = some h) (hf : faulted = false → h.fault = none) :
      BusChange params faulted d h.dev
  | write (v : Byte) (r : WriteReg) (h : Handled Slot) (hh : d.writeHandler params v r = some h)
      (hf : faulted = false → h.fault = none) : BusChange params faulted d h.dev
  | store (a : Addr) (v : Byte) (hc : d.claims a = true) :
      BusChange params faulted d { d with device := d.device.busWrite a v }

theorem Slot.offerRead_busChange {params : Params} {p : Port} {d : Slot} {faulted : Bool}
    (hf : faulted = false → (d.offerRead params p).fault = none) :
    d.BusChange params faulted (d.offerRead params p).dev := by
  cases hr : d.device.desc.readReg p with
  | none => rw [offerRead_of_unrecognized hr]; exact .same
  | some r =>
    obtain ⟨h, hh⟩ := readHandler_isSome (params := params) hr
    have hoffer : d.offerRead params p = h := by simp [offerRead, hr, hh]
    rw [hoffer] at hf ⊢
    exact .read r h hh hf

theorem Slot.offerWrite_of_unrecognized {p : Port} {d : Slot} (h : d.device.desc.writeReg p = none) (params : Params)
    (v : Byte) : d.offerWrite params p v = Handled.absent d := by
  simp [offerWrite, h]

theorem Slot.offerWrite_busChange {params : Params} {p : Port} {v : Byte} {d : Slot} {faulted : Bool}
    (hf : faulted = false → (d.offerWrite params p v).fault = none) :
    d.BusChange params faulted (d.offerWrite params p v).dev := by
  cases hr : d.device.desc.writeReg p with
  | none => rw [offerWrite_of_unrecognized hr]; exact .same
  | some r =>
    obtain ⟨h, hh⟩ := writeHandler_isSome (params := params) (v := v) hr
    have hoffer : d.offerWrite params p v = h := by simp [offerWrite, hr, hh]
    rw [hoffer] at hf ⊢
    exact .write v r h hh hf

/-- An access offered to every device changes each as its own handler does, or not at all after a fault. -/
theorem offerAll_eachTo {offer : Slot → Handled Slot} {R : Slot → Slot → Prop} {devs : List Slot} (hR : ∀ d, R d d)
    (h : ∀ d, ((offerAll offer devs).fault = none → (offer d).fault = none) → R d (offer d).dev) :
    EachTo R devs (offerAll offer devs).dev := by
  obtain hnone | ⟨pre, d, post, f, rfl, hpre, hd⟩ := offer_fault_cases offer devs
  · refine ⟨offerAll_dev_length offer devs, fun i d hi => ?_⟩
    rw [offerAll_of_no_fault hnone] at h ⊢
    exact ⟨(offer d).dev, by simp [hi], h d fun _ => hnone d (List.mem_of_getElem? hi)⟩
  · have hfault := (offerAll_of_fault (post := post) hd hpre).2
    refine ⟨offerAll_dev_length offer _, fun i e hi => ?_⟩
    obtain hdev | hdev := offerAll_dev_getElem? (offer := offer) hi
    · exact ⟨_, hdev, h e fun hno => absurd (hfault.symm.trans hno) (by simp)⟩
    · exact ⟨_, hdev, hR e⟩

/-- `t` is `s` after an operation of the CPU port whose handlers did `x`: the devices are replaced, a fault is recorded and ends the
operation in progress, and only the return paths change besides (rules R144, R146, R310). -/
structure State.Finishes (s : State) (x : Handled (List Slot)) (t : State) : Prop where
  devs : t.devs = x.dev
  params : t.params = s.params
  dbg : t.dbg = { s.dbg with fault := s.dbg.fault.or x.fault }
  eng : t.eng = s.eng
  phase : t.phase = if x.fault = none then s.phase else .idle
  hostIn : t.hostIn = s.hostIn
  callbackIn : t.callbackIn = s.callbackIn
  engineIn : t.engineIn = s.engineIn

theorem State.finishes_finishRead (s : State) (x : Handled (List Slot)) : s.Finishes x (s.finishRead x) := by
  cases hf : x.fault with
  | none => rw [finishRead_of_value hf]; exact ⟨rfl, rfl, by simp [hf], rfl, by simp [hf], rfl, rfl, rfl⟩
  | some f => rw [finishRead_of_fault hf]; exact ⟨rfl, rfl, by simp [hf], rfl, by simp [hf], rfl, rfl, rfl⟩

theorem State.finishes_finishWrite (s : State) (x : Handled (List Slot)) : s.Finishes x (s.finishWrite x) := by
  cases hf : x.fault with
  | none => rw [finishWrite_of_done hf]; exact ⟨rfl, rfl, by simp [hf], rfl, by simp [hf], rfl, rfl, rfl⟩
  | some f => rw [finishWrite_of_fault hf]; exact ⟨rfl, rfl, by simp [hf], rfl, by simp [hf], rfl, rfl, rfl⟩

/-- An operation that raises no fault and changes the devices to `devs`. -/
def Handled.silent (devs : List Slot) : Handled (List Slot) :=
  { dev := devs, value := none, fault := none }

theorem State.finishes_silent {s t : State} {devs : List Slot} {v : Option Byte}
    (h : t = { s with devs := devs, returns := { s.returns with cpu := v } }) : s.Finishes (Handled.silent devs) t := by
  subst h
  exact ⟨rfl, rfl, by simp [Handled.silent], rfl, by simp [Handled.silent], rfl, rfl, rfl⟩

/-- The operations of the CPU port: the four transactions, and the rows of the device registers. A BD_CMD_OTHER has one effect
whatever its byte, that of the row of a byte that is neither command (log 26). -/
theorem onCpuPort_cases {i : Instr} (h : onCpuPort i = true) :
    (∃ a, i = .memRd a) ∨ (∃ a v, i = .memWr a v) ∨ (∃ p, i = .ioRd p) ∨ (∃ p v, i = .ioWr p v) ∨
      (∃ dev r, i = readRow dev r) ∨ ∃ dev v r, ∀ s, exec i s = exec (writeRow dev v r) s := by
  cases i with
  | memRd a => exact .inl ⟨a, rfl⟩
  | memWr a v => exact .inr (.inl ⟨a, v, rfl⟩)
  | ioRd p => exact .inr (.inr (.inl ⟨p, rfl⟩))
  | ioWr p v => exact .inr (.inr (.inr (.inl ⟨p, v, rfl⟩)))
  | serIn dev => exact .inr (.inr (.inr (.inr (.inl ⟨dev, .serIn, rfl⟩))))
  | serReady dev => exact .inr (.inr (.inr (.inr (.inl ⟨dev, .serReady, rfl⟩))))
  | bdDataRd dev => exact .inr (.inr (.inr (.inr (.inl ⟨dev, .bdData, rfl⟩))))
  | bdStatus dev => exact .inr (.inr (.inr (.inr (.inl ⟨dev, .bdStatus, rfl⟩))))
  | serOut dev v => exact .inr (.inr (.inr (.inr (.inr ⟨dev, v, .serOut, fun _ => rfl⟩))))
  | tmrCount dev v => exact .inr (.inr (.inr (.inr (.inr ⟨dev, v, .tmrCount, fun _ => rfl⟩))))
  | tmrControl dev v => exact .inr (.inr (.inr (.inr (.inr ⟨dev, v, .tmrControl, fun _ => rfl⟩))))
  | bdDataWr dev v => exact .inr (.inr (.inr (.inr (.inr ⟨dev, v, .bdData, fun _ => rfl⟩))))
  | bdLba0 dev v => exact .inr (.inr (.inr (.inr (.inr ⟨dev, v, .bdLba0, fun _ => rfl⟩))))
  | bdLba1 dev v => exact .inr (.inr (.inr (.inr (.inr ⟨dev, v, .bdLba1, fun _ => rfl⟩))))
  | bdLba2 dev v => exact .inr (.inr (.inr (.inr (.inr ⟨dev, v, .bdLba2, fun _ => rfl⟩))))
  | bdLba3 dev v => exact .inr (.inr (.inr (.inr (.inr ⟨dev, v, .bdLba3, fun _ => rfl⟩))))
  | bdCmdReadSector dev => exact .inr (.inr (.inr (.inr (.inr ⟨dev, 0x20#8, .bdCmd, fun _ => rfl⟩))))
  | bdCmdWriteSector dev => exact .inr (.inr (.inr (.inr (.inr ⟨dev, 0x30#8, .bdCmd, fun _ => rfl⟩))))
  | bdCmdOther dev v => exact .inr (.inr (.inr (.inr (.inr ⟨dev, 0x00#8, .bdCmd, fun _ => rfl⟩))))
  | _ => cases h

/-- Everything an operation of the CPU port can do. -/
theorem exec_cpuPort_next {i : Instr} {s t : State} (hport : onCpuPort i = true) (h : exec i s = .next t) :
    ∃ x, s.Finishes x t ∧ EachTo (Slot.BusChange s.params x.fault.isSome) s.devs x.dev := by
  have hsame : ∀ {faulted} d, Slot.BusChange s.params faulted d d := fun _ => .same
  have hnone : ∀ {f : Option ModelFault}, f.isSome = false → f = none := by simp
  obtain ⟨a, rfl⟩ | ⟨a, v, rfl⟩ | ⟨p, rfl⟩ | ⟨p, v, rfl⟩ | ⟨dev, r, rfl⟩ | ⟨dev, v, r, hrow⟩ := onCpuPort_cases hport
  · cases h
    exact ⟨_, s.finishes_silent rfl, .refl hsame s.devs⟩
  · cases h
    exact ⟨_, s.finishes_silent rfl, .writeClaimant hsame (fun _ hc => .store a v hc) s.devs⟩
  · cases h
    exact ⟨_, s.finishes_finishRead _, offerAll_eachTo hsame fun d hd => Slot.offerRead_busChange fun hf => hd (hnone hf)⟩
  · cases h
    exact ⟨_, s.finishes_finishWrite _, offerAll_eachTo hsame fun d hd => Slot.offerWrite_busChange fun hf => hd (hnone hf)⟩
  · rw [exec_readRow] at h
    obtain ⟨d, x, hd, hx, rfl⟩ := State.readDevice_next h
    exact ⟨_, s.finishes_finishRead _, .set hsame hd (.read r x hx fun hf => hnone hf)⟩
  · rw [hrow, exec_writeRow] at h
    obtain ⟨d, x, hd, hx, rfl⟩ := State.writeDevice_next h
    exact ⟨_, s.finishes_finishWrite _, .set hsame hd (.write v r x hx fun hf => hnone hf)⟩

/-! ## The CPU port does not see the debug state (rule R320) -/

theorem State.finishWrite_cpu (s : State) (h : Handled (List Slot)) : (s.finishWrite h).returns.cpu = none := by
  cases hf : h.fault with
  | none => rw [finishWrite_of_done hf]
  | some f => rw [finishWrite_of_fault hf]

/-- What an operation of the CPU port answers and does to the devices depends on the devices and the parameters alone. -/
theorem exec_cpuPort_congr {i : Instr} {s s' t : State} (hport : onCpuPort i = true) (h : exec i s = .next t)
    (hdevs : s'.devs = s.devs) (hparams : s'.params = s.params) :
    ∃ t', exec i s' = .next t' ∧ t'.devs = t.devs ∧ t'.returns.cpu = t.returns.cpu := by
  obtain ⟨a, rfl⟩ | ⟨a, v, rfl⟩ | ⟨p, rfl⟩ | ⟨p, v, rfl⟩ | ⟨dev, r, rfl⟩ | ⟨dev, v, r, hrow⟩ := onCpuPort_cases hport
  · cases h
    exact ⟨_, exec_memRd a s', by simp [hdevs], by simp [hdevs]⟩
  · cases h
    exact ⟨_, exec_memWr a v s', by simp [hdevs], rfl⟩
  · cases h
    refine ⟨_, exec_ioRd p s', ?_, ?_⟩
    · rw [State.finishRead_devs, State.finishRead_devs, hdevs, hparams]
    · rw [State.finishRead_cpu, State.finishRead_cpu, hdevs, hparams]
  · cases h
    refine ⟨_, exec_ioWr p v s', ?_, ?_⟩
    · rw [State.finishWrite_devs, State.finishWrite_devs, hdevs, hparams]
    · rw [State.finishWrite_cpu, State.finishWrite_cpu]
  · rw [exec_readRow] at h ⊢
    obtain ⟨d, x, hd, hx, rfl⟩ := State.readDevice_next h
    refine ⟨_, State.readDevice_eq (hdevs ▸ hd) (hparams ▸ hx), ?_, ?_⟩
    · rw [State.finishRead_devs, State.finishRead_devs, hdevs]
    · rw [State.finishRead_cpu, State.finishRead_cpu]; rfl
  · rw [hrow, exec_writeRow] at h ⊢
    obtain ⟨d, x, hd, hx, rfl⟩ := State.writeDevice_next h
    refine ⟨_, State.writeDevice_eq (hdevs ▸ hd) (hparams ▸ hx), ?_, ?_⟩
    · rw [State.finishWrite_devs, State.finishWrite_devs, hdevs]
    · rw [State.finishWrite_cpu, State.finishWrite_cpu]

/-- Settles O45: the frame is that of every operation of the port, the answer a function of the devices and the parameters. -/
theorem cpuPortIsIsolatedFromDebugState : Obligations.CpuPortIsIsolatedFromDebugState := by
  intro i s t hport h
  obtain ⟨x, hfin, -⟩ := exec_cpuPort_next hport h
  refine ⟨⟨?_, hfin.eng, hfin.hostIn, hfin.callbackIn, hfin.engineIn⟩,
    fun s' hdevs hparams => exec_cpuPort_congr hport h hdevs hparams⟩
  rw [hfin.dbg]

end Sys2Proof.Machine

/-! # What a host operation and a step do -/

namespace Sys2Proof.Machine

/-! ## What a host operation does (rules R152, R180, R182, R218 to R220) -/

/-- What the host can do to one device: nothing, a write to memory the device claims (rule R152), bytes put into or taken from a
serial port (rules R180, R182), or a change of a byte of a backing store (rule R358). -/
inductive Slot.HostChange (params : Params) (d : Slot) : Slot → Prop where
  | same : HostChange params d d
  | store (a : Addr) (v : Byte) (hc : d.claims a = true) :
      HostChange params d { d with device := d.device.hostWrite params.hostWriteRom a v }
  | puts (p : SerialPort) (bs : List Byte) (hp : d.device = .serial p) :
      HostChange params d { d with
        device := .serial { p with toDevice := p.toDevice.pushAll params.overflow p.desc.capacity bs } }
  | gets (p : SerialPort) (k : Nat) (hp : d.device = .serial p) (hk : k ≤ p.fromDevice.len params.overflow p.desc.capacity) :
      HostChange params d { d with
        device := .serial { p with fromDevice := (Ring.popMany params.overflow p.desc.capacity k p.fromDevice).2 } }
  | setStore (b : BlockDrive) (m : Memory) (k : Nat) (v : Byte) (hb : d.device = .drive b) (hm : b.store = some m)
      (hk : k < b.desc.sectorSize * b.desc.numSectors) :
      HostChange params d { d with device := .drive { b with store := some (m.write k v) } }

/-- Everything a host operation `i` can do. -/
inductive HostEffect (i : Instr) (s t : State) : Prop where
  /-- It changes devices at most, and answers. -/
  | devices (devs : List Slot) (r : HostReply) (hd : EachTo (Slot.HostChange s.params) s.devs devs)
      (h : t = State.reply { s with devs := devs } r)
  /-- A CONTINUE or STEP begins. -/
  | begun (max : Option Nat) (hi : i = .continueRun max ∨ i = .stepOne) (hfault : s.dbg.fault = none)
      (hcb : s.dbg.inCallback = false) (hrun : s.dbg.runState ≠ .halted)
      (h : t = { s with
        dbg := { s.dbg with runState := .running }, phase := .engine { budget := max, total := 0 },
        returns := { s.returns with host := none } })
  /-- The breakpoints change. -/
  | breakpoints (bps : List (Nat × Unit)) (hbps : addrMapOk s.dbg.breakpoints → addrMapOk bps)
      (h : t = State.reply { s with dbg := { s.dbg with breakpoints := bps } } .done)
  /-- A one-parameter callback is registered. -/
  | tracepoint (addr : Nat) (cb : Callback) (haddr : addr < 0x10000) (harity : cb.arity = 1)
      (h : t = State.reply { s with dbg := { s.dbg with tracepoints := mapSet addr cb s.dbg.tracepoints } } .done)

namespace HostEffect

variable {i : Instr} {s t : State}

theorem reply (i : Instr) (s : State) (r : HostReply) : HostEffect i s (s.reply r) :=
  .devices s.devs r (.refl (fun _ => .same) s.devs) rfl

theorem refuse (i : Instr) (s : State) (e : HostError) : HostEffect i s (s.refuse e) :=
  reply i s (.error e)

theorem unlessFaulted (h : s.dbg.fault = none → HostEffect i s t) : HostEffect i s (s.unlessFaulted t) := by
  obtain ⟨hf, heq⟩ | ⟨-, heq⟩ := s.unlessFaulted_cases t
  · rw [heq]; exact h hf
  · rw [heq]; exact refuse i s _

theorem withAddr {addr : Nat} (h : addr < 0x10000 → HostEffect i s t) : HostEffect i s (s.withAddr addr t) := by
  rw [State.withAddr_eq]
  split
  · exact refuse i s _
  · exact h (by omega)

/-- One device is replaced by the host. -/
theorem putDevice {k : Nat} {d : Slot} {x : Device} (hd : s.devs[k]? = some d)
    (h : d.HostChange s.params { d with device := x }) (r : HostReply) : HostEffect i s ((s.putDevice k x).reply r) :=
  .devices _ r (putDevice_eq_set hd x ▸ .set (fun _ => .same) hd h) rfl

theorem continueWith {max : Option Nat} (hi : i = .continueRun max ∨ i = .stepOne) : HostEffect i s (s.continueWith max) := by
  obtain ⟨-, heq⟩ | ⟨-, -, heq⟩ | ⟨hfault, hcb, heq⟩ := s.continueWith_cases max
  · exact heq ▸ refuse i s _
  · exact heq ▸ refuse i s _
  · obtain ⟨-, hbegin⟩ | ⟨hrun, hbegin⟩ := s.beginCall_cases max
    · exact heq ▸ hbegin ▸ reply i s _
    · exact .begun max hi hfault hcb hrun (heq.trans hbegin)

theorem hostWrite (i : Instr) (s : State) (addr value : Nat) : HostEffect i s (s.hostWrite addr value) := by
  unfold State.hostWrite
  split
  · exact .devices _ .done (.writeClaimant (fun _ => .same) (fun _ hc => .store _ _ hc) s.devs) rfl
  · exact refuse i s _

theorem puts (i : Instr) (s : State) (name : Name) (bytes : List Nat) : HostEffect i s (s.puts name bytes) := by
  unfold State.puts
  split
  · unfold State.putsAt
    split
    · exact reply i s _
    · rename_i p hp
      obtain ⟨n, hd⟩ := serialAt_eq_some_iff.1 hp
      exact putDevice hd (.puts p _ rfl) _
  all_goals exact refuse i s _

theorem getsCount_le (count : Option Nat) (available : Nat) : getsCount count available ≤ available := by
  cases count with
  | none => exact Nat.le_refl _
  | some k => exact Nat.min_le_right k available

theorem gets (i : Instr) (s : State) (name : Name) (count : Option Nat) : HostEffect i s (s.gets name count) := by
  unfold State.gets
  split
  · exact refuse i s _
  · split
    · exact refuse i s _
    · rename_i p hp
      obtain ⟨n, hd⟩ := serialAt_eq_some_iff.1 hp
      exact putDevice hd (.gets p _ rfl (getsCount_le _ _)) _

theorem readStoreByte (i : Instr) (s : State) (name : Name) (sector offset : Nat) :
    HostEffect i s (s.readStoreByte name sector offset) := by
  unfold State.readStoreByte
  repeat' split
  all_goals exact reply i s _

end HostEffect

theorem addrMapOk_mapSet {α : Type} {m : List (Nat × α)} {k : Nat} (hk : k < 0x10000) (v : α) (h : addrMapOk m) :
    addrMapOk (mapSet k v m) :=
  ⟨mapRises_mapSet (Nat.zero_le k) h.1, mapBelow_mapSet hk h.2⟩

theorem addrMapOk_mapDel {α : Type} {m : List (Nat × α)} (k : Nat) (h : addrMapOk m) : addrMapOk (mapDel k m) :=
  ⟨mapRises_mapDel h.1, mapBelow_mapDel h.2⟩

/-- Every operation that is neither of the CPU port nor a clock batch is a host operation, and does what one can do. -/
theorem exec_host_effect {i : Instr} {s t : State} (hport : onCpuPort i = false) (hclock : ∀ c, i ≠ .clock c)
    (h : exec i s = .next t) : HostEffect i s t := by
  cases i with
  | continueRun max => cases h; exact .continueWith (.inl rfl)
  | stepOne => cases h; exact .continueWith (.inr rfl)
  | setBreakpoint addr =>
    cases h
    exact .unlessFaulted fun _ => .withAddr fun haddr => .breakpoints _ (addrMapOk_mapSet haddr ()) rfl
  | removeBreakpoint addr =>
    cases h
    exact .unlessFaulted fun _ => .withAddr fun _ => .breakpoints _ (addrMapOk_mapDel addr) rfl
  | registerTracepoint addr cb =>
    cases h
    refine .unlessFaulted fun _ => .withAddr fun haddr => ?_
    split
    · exact .refuse _ s _
    · exact .tracepoint addr cb haddr (Decidable.not_not.1 ‹_›) rfl
  | queryHalted | queryBreak => cases h; exact .reply _ s _
  | readMemory addr =>
    obtain ⟨r, rfl⟩ := State.reply_of_execReadMemory h
    exact .reply _ s r
  | writeMemory => cases h; exact .unlessFaulted fun _ => .hostWrite _ s _ _
  | serialPuts => cases h; exact .unlessFaulted fun _ => .puts _ s _ _
  | serialGets => cases h; exact .unlessFaulted fun _ => .gets _ s _ _
  | bdReadByte => cases h; exact .readStoreByte _ s _ _ _
  | clock c => exact absurd rfl (hclock c)
  | _ => cases hport

/-- The host's change of a store byte changes devices at most (rule R358). -/
theorem State.setStoreByte_eq (s : State) (name : Name) (index : Nat) (v : Byte) :
    ∃ devs, EachTo (Slot.HostChange s.params) s.devs devs ∧ s.setStoreByte name index v = { s with devs := devs } := by
  have hsame : EachTo (Slot.HostChange s.params) s.devs s.devs := .refl (fun _ => .same) s.devs
  unfold State.setStoreByte
  split
  · exact ⟨_, hsame, rfl⟩
  · split
    · exact ⟨_, hsame, rfl⟩
    · rename_i b hb
      split
      · exact ⟨_, hsame, rfl⟩
      · rename_i m hm
        split
        · obtain ⟨n, hd⟩ := driveAt_eq_some_iff.1 hb
          exact ⟨_, putDevice_eq_set hd _ ▸ .set (fun _ => .same) hd (.setStore b m index v rfl hm ‹_›), rfl⟩
        · exact ⟨_, hsame, rfl⟩

/-! ## What a step does to the devices -/

/-- Everything one step can do to one device; `faulted` tells whether a fault is recorded after it. -/
inductive Slot.Change (params : Params) (faulted : Bool) (d d' : Slot) : Prop where
  | bus (h : d.BusChange params faulted d')
  | host (h : d.HostChange params d')
  | tick (c : Nat) (h : d' = { d with device := (Device.ticks c d.device Requests.none).1 })

theorem Slot.BusChange.of_faulted {params : Params} {f g : Bool} {d d' : Slot} (hfg : g = false → f = false)
    (h : d.BusChange params f d') : d.BusChange params g d' := by
  cases h with
  | same => exact .same
  | read r h hh hf => exact .read r h hh fun hg => hf (hfg hg)
  | write v r h hh hf => exact .write v r h hh fun hg => hf (hfg hg)
  | store a v hc => exact .store a v hc

theorem clockAll_eachTo (c : Nat) (params : Params) (faulted : Bool) (devs : List Slot) :
    EachTo (Slot.Change params faulted) devs (clockAll c devs).1 :=
  clockAll_fst c devs ▸ .map (fun _ => .tick c rfl) devs

namespace State

theorem finishIteration_devs (s : State) (call : Call) (pcS : Addr) : (s.finishIteration call pcS).devs = s.devs := by
  obtain ⟨-, h⟩ | ⟨-, -, h⟩ | ⟨-, -, -, h⟩ | ⟨-, -, -, h⟩ := s.finishIteration_cases call pcS
  all_goals simp [h]

theorem finishIteration_params (s : State) (call : Call) (pcS : Addr) : (s.finishIteration call pcS).params = s.params := by
  obtain ⟨-, h⟩ | ⟨-, -, h⟩ | ⟨-, -, -, h⟩ | ⟨-, -, -, h⟩ := s.finishIteration_cases call pcS
  all_goals simp [h]

/-- The stop checks change the run state at most. -/
theorem finishIteration_dbg (s : State) (call : Call) (pcS : Addr) :
    ∃ r, (s.finishIteration call pcS).dbg = { s.dbg with runState := r } := by
  obtain ⟨-, h⟩ | ⟨-, -, h⟩ | ⟨-, -, -, h⟩ | ⟨-, -, -, h⟩ := s.finishIteration_cases call pcS
  · exact ⟨.halted, by simp [h]⟩
  · exact ⟨.breakHit, by simp [h]⟩
  · exact ⟨.running, by simp [h]⟩
  · exact ⟨s.dbg.runState, by simp [h]⟩

theorem afterBatch_devs (s : State) (call : Call) (bs : BusState) : (s.afterBatch call bs).devs = s.devs := by
  obtain ⟨cb, -, h⟩ | ⟨-, h⟩ := s.afterBatch_cases call bs
  · rw [h]; rfl
  · rw [h, finishIteration_devs]; rfl

theorem afterBatch_params (s : State) (call : Call) (bs : BusState) : (s.afterBatch call bs).params = s.params := by
  obtain ⟨cb, -, h⟩ | ⟨-, h⟩ := s.afterBatch_cases call bs
  · rw [h]; rfl
  · rw [h, finishIteration_params]; rfl

theorem afterBatch_fault (s : State) (call : Call) (bs : BusState) : (s.afterBatch call bs).dbg.fault = s.dbg.fault := by
  obtain ⟨cb, -, h⟩ | ⟨-, h⟩ := s.afterBatch_cases call bs
  · rw [h]; rfl
  · obtain ⟨r, hr⟩ := (s.driveInterrupts bs).finishIteration_dbg call s.eng.pc
    rw [h, hr]; rfl

theorem callbackReturns_fault (s : State) (call : Call) (pcS : Addr) :
    (s.callbackReturns call pcS).dbg.fault = s.dbg.fault := by
  obtain ⟨r, hr⟩ := finishIteration_dbg { s with dbg := { s.dbg with inCallback := false } } call pcS
  rw [callbackReturns, hr]

theorem engineReturns_devs (s : State) (call : Call) (c : Nat) (pc : Addr) (h : Bool) :
    (s.engineReturns call c pc h).devs = s.devs := by
  obtain ⟨-, e⟩ | ⟨-, e⟩ := s.engineReturns_cases call c pc h
  all_goals simp [e]

theorem engineReturns_params (s : State) (call : Call) (c : Nat) (pc : Addr) (h : Bool) :
    (s.engineReturns call c pc h).params = s.params := by
  obtain ⟨-, e⟩ | ⟨-, e⟩ := s.engineReturns_cases call c pc h
  all_goals simp [e]

end State

/-- Taking an action from the host's queue changes nothing but the queue. -/
theorem TakesHostAct.eq {s s' : State} {a : HostAct} (h : TakesHostAct s s' a) :
    s' = { s with hostIn := s'.hostIn, callbackIn := s'.callbackIn } := by
  obtain ⟨rest, -, -, rfl⟩ | ⟨call, pcS, cb, rest, -, -, rfl⟩ := h <;> rfl

/-- What a host operation does to the devices and the parameters. -/
theorem HostEffect.devs_eachTo {i : Instr} {s t : State} (h : HostEffect i s t) :
    t.params = s.params ∧ EachTo (Slot.HostChange s.params) s.devs t.devs := by
  have hsame : EachTo (Slot.HostChange s.params) s.devs s.devs := .refl (fun _ => .same) s.devs
  cases h with
  | devices devs r hd h => exact h ▸ ⟨rfl, hd⟩
  | begun max hi hfault hcb hrun h => exact h ▸ ⟨rfl, hsame⟩
  | breakpoints bps hbps h => exact h ▸ ⟨rfl, hsame⟩
  | tracepoint addr cb haddr harity h => exact h ▸ ⟨rfl, hsame⟩

/-- What a step does to the devices and the parameters. -/
theorem step_devs_eachTo {s t : State} (h : step s = .next t) :
    t.params = s.params ∧ EachTo (Slot.Change s.params t.dbg.fault.isSome) s.devs t.devs := by
  have hsame : ∀ f, EachTo (Slot.Change s.params f) s.devs s.devs := fun _ => .refl (fun _ => .bus .same) s.devs
  cases step_kind h with
  | stay ht => rw [ht]; exact ⟨rfl, hsame _⟩
  | host i s' r htake hd hexec =>
    obtain ⟨hparams, heach⟩ := (exec_host_effect (decodeHost_port hd) (decodeHost_ne_clock hd) hexec).devs_eachTo
    rw [htake.eq] at hparams heach
    exact ⟨hparams, heach.mono fun _ _ => .host⟩
  | store s' n k v htake ht =>
    obtain ⟨devs, heach, heq⟩ := s'.setStoreByte_eq n k v
    rw [ht, heq]
    rw [htake.eq] at heach ⊢
    exact ⟨rfl, heach.mono fun _ _ => .host⟩
  | txn i call w rest hp hin hd hexec =>
    obtain ⟨x, hfin, heach⟩ := exec_cpuPort_next (decodeTxn_port hd) hexec
    rw [hfin.devs, hfin.dbg]
    exact ⟨hfin.params, heach.mono fun _ _ hb => .bus (hb.of_faulted (by simp))⟩
  | ret call c pc halted rest hp hin ht =>
    rw [ht, State.engineReturns_params, State.engineReturns_devs]
    exact ⟨rfl, hsame _⟩
  | clock call c hp ht =>
    rw [ht, State.afterBatch_params, State.afterBatch_devs]
    exact ⟨rfl, clockAll_eachTo c _ _ s.devs⟩
  | register call pcS cb rest pc reply hp ht => exact ht ▸ ⟨rfl, hsame _⟩
  | callbackRet call pcS cb rest hp hin ht =>
    rw [ht, State.callbackReturns, State.finishIteration_params, State.finishIteration_devs]
    exact ⟨rfl, hsame _⟩

/-! ## The configuration stays (rules R10, R30) -/

theorem Device.busWrite_desc (a : Addr) (v : Byte) (d : Device) : (d.busWrite a v).desc = d.desc := by
  cases d <;> rfl

theorem Device.hostWrite_desc (rom : HostWriteRom) (a : Addr) (v : Byte) (d : Device) :
    (d.hostWrite rom a v).desc = d.desc := by
  cases d with
  | rom r => cases rom <;> rfl
  | ram | serial | timer | drive => rfl

theorem Device.ticks_desc (c : Nat) (d : Device) (last : Requests) : (Device.ticks c d last).1.desc = d.desc := by
  by_cases h : ∃ tm, d = .timer tm
  · obtain ⟨tm, rfl⟩ := h
    rw [Device.ticks_timer]
    rfl
  · rw [Device.ticks_of_not_timer fun tm htm => h ⟨tm, htm⟩]

theorem Slot.BusChange.descriptor_eq {params : Params} {faulted : Bool} {d d' : Slot} (h : d.BusChange params faulted d') :
    d'.descriptor = d.descriptor := by
  cases h with
  | same => rfl
  | read r h hh hf => exact (readHandler_keeps hh).1
  | write v r h hh hf => exact (writeHandler_keeps hh).1
  | store a v hc => simp [descriptor, Device.busWrite_desc]

theorem Slot.HostChange.descriptor_eq {params : Params} {d d' : Slot} (h : d.HostChange params d') :
    d'.descriptor = d.descriptor := by
  cases h with
  | same => rfl
  | store a v hc => simp [descriptor, Device.hostWrite_desc]
  | puts p bs hp => simp [descriptor, Device.desc, hp]
  | gets p k hp hk => simp [descriptor, Device.desc, hp]
  | setStore b m k v hb hm hk => simp [descriptor, Device.desc, hb]

theorem Slot.Change.descriptor_eq {params : Params} {faulted : Bool} {d d' : Slot} (h : d.Change params faulted d') :
    d'.descriptor = d.descriptor := by
  cases h with
  | bus h => exact h.descriptor_eq
  | host h => exact h.descriptor_eq
  | tick c h => simp [h, descriptor, Device.ticks_desc]

theorem step_devices_eq {s t : State} (h : step s = .next t) : t.devices = s.devices :=
  (step_devs_eachTo h).2.map_eq fun _ _ => Slot.Change.descriptor_eq

/-- Settles O47: whatever a step does to a device keeps its configuration entry. -/
theorem configurationNeverChanges : Obligations.ConfigurationNeverChanges := by
  intro s t h
  rw [State.config, State.config, step_devices_eq h, (step_devs_eachTo h).1]

/-! ## A ROM keeps its bytes (rules R33, R142, R152) -/

/-- The handler of a device's register runs on a serial port, a timer or a drive. -/
theorem Slot.readHandler_rom {params : Params} {n : Name} {r : Region} {reg : ReadReg} {h : Handled Slot} :
    Slot.readHandler params { name := n, device := .rom r } reg ≠ some h := by
  cases reg <;> simp [readHandler, onSerial, onDrive]

theorem Slot.writeHandler_rom {params : Params} {v : Byte} {n : Name} {r : Region} {reg : WriteReg} {h : Handled Slot} :
    Slot.writeHandler params v { name := n, device := .rom r } reg ≠ some h := by
  cases reg <;> simp [writeHandler, onSerial, onTimer, onDrive]

theorem Slot.BusChange.rom_eq {params : Params} {faulted : Bool} {n : Name} {r : Region} {d' : Slot}
    (h : Slot.BusChange params faulted { name := n, device := .rom r } d') : d' = { name := n, device := .rom r } := by
  cases h with
  | same => rfl
  | read _ _ hh _ => exact absurd hh readHandler_rom
  | write _ _ _ hh _ => exact absurd hh writeHandler_rom
  | store a v hc => rfl

theorem Slot.HostChange.rom_eq {params : Params} (hrom : params.hostWriteRom = .ignore) {n : Name} {r : Region} {d' : Slot}
    (h : Slot.HostChange params { name := n, device := .rom r } d') : d' = { name := n, device := .rom r } := by
  cases h with
  | same => rfl
  | store a v hc => rw [hrom]; rfl
  | puts _ _ hp => cases hp
  | gets _ _ hp => cases hp
  | setStore _ _ _ _ hb => cases hb

/-- Settles O46: no handler runs on a ROM, a bus write leaves one, and a host write does under IGNORE. -/
theorem romContentsAreFixedForTheBus : Obligations.RomContentsAreFixedForTheBus := by
  refine ⟨Region.read_reset, fun i s t h hcase j n r hj => ?_⟩
  obtain hport | ⟨a, v, rfl, hrom⟩ := hcase
  · obtain ⟨x, hfin, heach⟩ := exec_cpuPort_next hport h
    obtain ⟨d', hd', hchange⟩ := heach.each j _ hj
    rw [hfin.devs, hd', hchange.rom_eq]
  · obtain ⟨-, heach⟩ := (exec_host_effect rfl (by simp) h).devs_eachTo
    obtain ⟨d', hd', hchange⟩ := heach.each j _ hj
    rw [hd', hchange.rom_eq hrom]

/-! ## A recorded fault stays (rules R43, R310) -/

theorem HostEffect.fault_eq {i : Instr} {s t : State} (h : HostEffect i s t) : t.dbg.fault = s.dbg.fault := by
  cases h with
  | devices devs r hd h => rw [h]; rfl
  | begun max hi hfault hcb hrun h => rw [h]
  | breakpoints bps hbps h => rw [h]; rfl
  | tracepoint addr cb haddr harity h => rw [h]; rfl

/-- A step records a fault only where none is recorded. -/
theorem step_fault_eq {s t : State} (h : step s = .next t) : ∃ f, t.dbg.fault = s.dbg.fault.or f := by
  have hkeep : ∀ {f}, f = s.dbg.fault → ∃ g, f = s.dbg.fault.or g := fun hf => ⟨none, by simp [hf]⟩
  cases step_kind h with
  | stay ht => exact hkeep (by rw [ht])
  | host i s' r htake hd hexec =>
    have hfault := (exec_host_effect (decodeHost_port hd) (decodeHost_ne_clock hd) hexec).fault_eq
    exact hkeep (by rw [hfault, htake.eq])
  | store s' n k v htake ht =>
    obtain ⟨devs, -, heq⟩ := s'.setStoreByte_eq n k v
    exact hkeep (by rw [ht, heq, htake.eq])
  | txn i call w rest hp hin hd hexec =>
    obtain ⟨x, hfin, -⟩ := exec_cpuPort_next (decodeTxn_port hd) hexec
    exact ⟨x.fault, by rw [hfin.dbg]⟩
  | ret call c pc halted rest hp hin ht =>
    obtain ⟨-, heq⟩ | ⟨-, heq⟩ := State.engineReturns_cases { s with engineIn := rest } call c pc halted
    · exact ⟨some (.engineContract 0), by rw [ht, heq]; rfl⟩
    · exact hkeep (by rw [ht, heq])
  | clock call c hp ht => exact hkeep (by rw [ht, State.afterBatch_fault])
  | register call pcS cb rest pc reply hp ht => exact hkeep (by rw [ht]; rfl)
  | callbackRet call pcS cb rest hp hin ht => exact hkeep (by rw [ht, State.callbackReturns_fault])

/-- Settles O42. -/
theorem recordedFaultIsKept : Obligations.RecordedFaultIsKept := by
  intro s t f h hf
  obtain ⟨g, hg⟩ := step_fault_eq h
  simp [hg, hf]

end Sys2Proof.Machine

/-! # Encoding: decoding and encoding agree, and what a step refuses -/

namespace Sys2Proof

/-! ## Decoding an encoded transaction (rules R100, R110) -/

theorem decodeTxn_memRd (devs : List Descriptor) (a : Addr) (d : Byte) :
    decodeTxn devs (txnWord 0b00#2 a d) = .ok (.memRd a) := by
  obtain ⟨hkind, haddr, -⟩ := txnWord_fields 0b00#2 a d
  simp [decodeTxn, hkind, haddr]

theorem decodeTxn_memWr (devs : List Descriptor) (a : Addr) (v : Byte) :
    decodeTxn devs (txnWord 0b01#2 a v) = .ok (.memWr a v) := by
  obtain ⟨hkind, haddr, hdata⟩ := txnWord_fields 0b01#2 a v
  simp [decodeTxn, hkind, haddr, hdata]

theorem decodeTxn_ioRead (devs : List Descriptor) (p : Port) (d : Byte) :
    decodeTxn devs (ioWord 0b10#2 p d) = .ok (decodeIoRead devs p) := by
  obtain ⟨hkind, hhigh, hport, -⟩ := ioWord_fields 0b10#2 p d
  simp [decodeTxn, hkind, hhigh, hport]

theorem decodeTxn_ioWrite (devs : List Descriptor) (p : Port) (v : Byte) :
    decodeTxn devs (ioWord 0b11#2 p v) = .ok (decodeIoWrite devs p v) := by
  obtain ⟨hkind, hhigh, hport, hdata⟩ := ioWord_fields 0b11#2 p v
  simp [decodeTxn, hkind, hhigh, hport, hdata]

theorem readsAlone_iff {devs : List Descriptor} {i : Nat} {r : ReadReg} :
    readsAlone devs i r = true ↔ ∃ p, readPortOf devs i r = some p ∧ soleReader devs p = some (i, r) := by
  unfold readsAlone
  cases readPortOf devs i r <;> simp

theorem writesAlone_iff {devs : List Descriptor} {i : Nat} {r : WriteReg} :
    writesAlone devs i r = true ↔ ∃ p, writePortOf devs i r = some p ∧ soleWriter devs p = some (i, r) := by
  unfold writesAlone
  cases writePortOf devs i r <;> simp

/-- The word of a read that device `i` alone takes decodes to the row of its register. -/
theorem decodeTxn_readWord {devs : List Descriptor} {i : Nat} {r : ReadReg} (h : readsAlone devs i r = true) :
    decodeTxn devs (readWord devs i r) = .ok (readRow i r) := by
  obtain ⟨p, hp, hsole⟩ := readsAlone_iff.1 h
  simp [readWord, hp, decodeTxn_ioRead, decodeIoRead, hsole]

/-- The word of a write that device `i` alone takes decodes to the row of its register. -/
theorem decodeTxn_writeWord {devs : List Descriptor} {i : Nat} {r : WriteReg} (h : writesAlone devs i r = true) (v : Byte) :
    decodeTxn devs (writeWord devs i r v) = .ok (writeRow i v r) := by
  obtain ⟨p, hp, hsole⟩ := writesAlone_iff.1 h
  simp [writeWord, hp, decodeTxn_ioWrite, decodeIoWrite, hsole]

/-- Settles O54: the fields of the encoded word name the port, which leads back to the device; a host code is its own. -/
theorem decodeOfEncodeIsTheOperation : Obligations.DecodeOfEncodeIsTheOperation := by
  intro devs i h
  cases i with
  | memRd a => exact decodeTxn_memRd devs a _
  | memWr a v => exact decodeTxn_memWr devs a v
  | ioRd p =>
    have hsole : soleReader devs p = none := Option.isNone_iff_eq_none.1 h
    exact (decodeTxn_ioRead devs p _).trans (by simp [decodeIoRead, hsole])
  | ioWr p v =>
    have hsole : soleWriter devs p = none := Option.isNone_iff_eq_none.1 h
    exact (decodeTxn_ioWrite devs p v).trans (by simp [decodeIoWrite, hsole])
  | clock c => rfl
  | serIn | serReady | bdDataRd | bdStatus => exact decodeTxn_readWord h
  | serOut | tmrCount | tmrControl | bdDataWr | bdLba0 | bdLba1 | bdLba2 | bdLba3 => exact decodeTxn_writeWord h _
  | bdCmdReadSector | bdCmdWriteSector => exact decodeTxn_writeWord (r := .bdCmd) h _
  | bdCmdOther dev v =>
    simp only [Instr.wellFormed, Bool.and_eq_true, bne_iff_ne] at h
    obtain ⟨⟨halone, hread⟩, hwrite⟩ := h
    exact (decodeTxn_writeWord halone v).trans (by simp [writeRow, hread, hwrite])
  | continueRun | stepOne | setBreakpoint | removeBreakpoint | registerTracepoint | queryHalted | queryBreak | readMemory
  | writeMemory | serialPuts | serialGets | bdReadByte => rfl

/-! ## Encoding a decoded transaction (rules R100, R104 to R107) -/

/-- The port a register answers at is the port it is presented at. -/
theorem DeviceDesc.readPort_of_readReg {d : DeviceDesc} {p : Port} {r : ReadReg} (h : d.readReg p = some r) :
    d.readPort r = some p := by
  cases d with
  | serial d =>
    simp only [readReg] at h
    split_ifs at h with hin hready <;> cases h
    · exact congrArg some hin.symm
    · exact congrArg some hready.symm
  | drive d =>
    simp only [readReg] at h
    split_ifs at h with h0 h7 <;> cases h
    · exact congrArg some (BitVec.eq_of_toNat_eq h0.symm)
    · exact congrArg some (by bv_omega)
  | rom | ram | timer => cases h

theorem DeviceDesc.writePort_of_writeReg {d : DeviceDesc} {p : Port} {r : WriteReg} (h : d.writeReg p = some r) :
    d.writePort r = some p := by
  cases d with
  | serial d =>
    simp only [writeReg] at h
    split_ifs at h with hout
    cases h
    exact congrArg some hout.symm
  | timer d =>
    simp only [writeReg] at h
    split_ifs at h with hcount hcontrol <;> cases h
    · exact congrArg some hcount.symm
    · exact congrArg some hcontrol.symm
  | drive d =>
    simp only [writeReg] at h
    split_ifs at h with h0 h3 h4 h5 h6 h7 <;> cases h
    case pos => exact congrArg some (BitVec.eq_of_toNat_eq h0.symm)
    all_goals exact congrArg some (by bv_omega)
  | rom | ram => cases h

/-- A device that alone reads a port has its register there. -/
theorem readsAlone_of_soleReader {devs : List Descriptor} {p : Port} {i : Nat} {r : ReadReg}
    (h : soleReader devs p = some (i, r)) : readPortOf devs i r = some p ∧ readsAlone devs i r = true := by
  obtain ⟨pre, d, post, rfl, hi, hreg, -, -⟩ := Machine.readersFrom_eq_singleton (Machine.sole_eq h)
  have hport : readPortOf (pre ++ d :: post) i r = some p := by
    obtain rfl : pre.length = i := by omega
    simp [readPortOf, DeviceDesc.readPort_of_readReg hreg]
  exact ⟨hport, readsAlone_iff.2 ⟨p, hport, h⟩⟩

/-- A device that alone takes writes to a port has its register there. -/
theorem writesAlone_of_soleWriter {devs : List Descriptor} {p : Port} {i : Nat} {r : WriteReg}
    (h : soleWriter devs p = some (i, r)) : writePortOf devs i r = some p ∧ writesAlone devs i r = true := by
  obtain ⟨pre, d, post, rfl, hi, hreg, -, -⟩ := Machine.writersFrom_eq_singleton (Machine.sole_eq h)
  have hport : writePortOf (pre ++ d :: post) i r = some p := by
    obtain rfl : pre.length = i := by omega
    simp [writePortOf, DeviceDesc.writePort_of_writeReg hreg]
  exact ⟨hport, writesAlone_iff.2 ⟨p, hport, h⟩⟩

theorem readRow_wellFormed (devs : List Descriptor) (i : Nat) (r : ReadReg) :
    (readRow i r).wellFormed devs = readsAlone devs i r := by
  cases r <;> rfl

theorem encode_readRow (devs : List Descriptor) (i : Nat) (r : ReadReg) :
    encode devs (readRow i r) = .txn (readWord devs i r) := by
  cases r <;> rfl

theorem writeRow_wellFormed (devs : List Descriptor) (i : Nat) (v : Byte) (r : WriteReg) :
    (writeRow i v r).wellFormed devs = writesAlone devs i r := by
  cases r
  case bdCmd =>
    unfold writeRow
    split_ifs with hread hwrite
    · rfl
    · rfl
    · simp [Instr.wellFormed, bne_iff_ne.2 hread, bne_iff_ne.2 hwrite]
  all_goals rfl

theorem encode_writeRow (devs : List Descriptor) (i : Nat) (v : Byte) (r : WriteReg) :
    encode devs (writeRow i v r) = .txn (writeWord devs i r v) := by
  cases r
  case bdCmd =>
    unfold writeRow
    split_ifs with hread hwrite
    · rw [hread]; rfl
    · rw [hwrite]; rfl
    · rfl
  all_goals rfl

/-- What a read decodes to is well formed, and its word is that of the read. -/
theorem encode_decodeIoRead (devs : List Descriptor) (p : Port) :
    (decodeIoRead devs p).wellFormed devs = true ∧ encode devs (decodeIoRead devs p) = .txn (ioWord 0b10#2 p 0#8) := by
  unfold decodeIoRead
  split
  · rename_i i r hsole
    obtain ⟨hport, halone⟩ := readsAlone_of_soleReader hsole
    exact ⟨(readRow_wellFormed devs i r).trans halone, by rw [encode_readRow, readWord, hport]; rfl⟩
  · rename_i hsole
    exact ⟨Option.isNone_iff_eq_none.2 hsole, rfl⟩

/-- What a write decodes to is well formed, and its word is that of the write. -/
theorem encode_decodeIoWrite (devs : List Descriptor) (p : Port) (v : Byte) :
    (decodeIoWrite devs p v).wellFormed devs = true ∧
      encode devs (decodeIoWrite devs p v) = .txn (ioWord 0b11#2 p v) := by
  unfold decodeIoWrite
  split
  · rename_i i r hsole
    obtain ⟨hport, halone⟩ := writesAlone_of_soleWriter hsole
    exact ⟨(writeRow_wellFormed devs i v r).trans halone, by rw [encode_writeRow, writeWord, hport]; rfl⟩
  · rename_i hsole
    exact ⟨Option.isNone_iff_eq_none.2 hsole, rfl⟩

/-- The address field of a word is its bits 23:16 and its port field (rule R100). -/
theorem txnAddr_eq (w : TxnWord) : txnAddr w = txnHigh w ++ txnPort w := by
  apply BitVec.eq_of_toNat_eq
  rw [BitVec.toNat_append, ← Nat.shiftLeft_add_eq_or_of_lt (txnPort w).isLt]
  simp only [txnAddr, txnHigh, txnPort, BitVec.extractLsb'_toNat, Nat.shiftRight_eq_div_pow, Nat.shiftLeft_eq]
  omega

/-- An I/O word built from a word's kind and port agrees with it but for the data. -/
theorem ioWord_agrees {w : TxnWord} {k : BitVec 2} (hkind : txnKind w = k) (hhigh : txnHigh w = 0#8) (d : Byte) :
    txnKind (ioWord k (txnPort w) d) = txnKind w ∧ txnAddr (ioWord k (txnPort w) d) = txnAddr w := by
  obtain ⟨hk, haddr, -⟩ := txnWord_fields k (0#8 ++ txnPort w) d
  exact ⟨hk.trans hkind.symm, haddr.trans (by rw [txnAddr_eq, hhigh])⟩

/-- Settles O55: by the kind of the word; a read's data field is the only one its encoding does not give back. -/
theorem acceptedTransactionWordIsAnEncoding : Obligations.AcceptedTransactionWordIsAnEncoding := by
  intro devs w i h
  obtain ⟨hkind, rfl⟩ | ⟨hkind, rfl⟩ | ⟨hkind, hhigh, rfl⟩ | ⟨hkind, hhigh, rfl⟩ := decodeTxn_ok h
  · obtain ⟨hk, ha, -⟩ := txnWord_fields 0b00#2 (txnAddr w) 0#8
    exact ⟨rfl, _, rfl, hk.trans hkind.symm, ha, by simp [hkind]⟩
  · obtain ⟨hk, ha, hd⟩ := txnWord_fields 0b01#2 (txnAddr w) (txnData w)
    exact ⟨rfl, _, rfl, hk.trans hkind.symm, ha, fun _ => hd⟩
  · obtain ⟨hwf, henc⟩ := encode_decodeIoRead devs (txnPort w)
    obtain ⟨hk, ha⟩ := ioWord_agrees hkind hhigh 0#8
    exact ⟨hwf, _, henc, hk, ha, by simp [hkind]⟩
  · obtain ⟨hwf, henc⟩ := encode_decodeIoWrite devs (txnPort w) (txnData w)
    obtain ⟨hk, ha⟩ := ioWord_agrees hkind hhigh (txnData w)
    obtain ⟨-, -, -, hd⟩ := ioWord_fields 0b11#2 (txnPort w) (txnData w)
    exact ⟨hwf, _, henc, hk, ha, fun _ => hd⟩

/-- Settles O59: each word of the vectors is evaluated. -/
theorem vectorWordsDecode : Obligations.VectorWordsDecode := by
  refine ⟨?_, ?_, ?_, ?_, ?_, ?_, ?_, ?_⟩ <;> decide

end Sys2Proof

namespace Sys2Proof.Machine

/-! ## What a step refuses (rules R101, R120) -/

/-- An outcome that is a next state, or the refusal of a word or a host code that is no operation. -/
def StopsOnlyOnNoOperation (o : Result) : Prop :=
  (∃ t, o = .next t) ∨
    (∃ w, o = .refused (.ioWordHighBits w) ∧ txnHigh w ≠ 0#8 ∧ txnKind w ≠ 0#2 ∧ txnKind w ≠ 1#2) ∨
    ∃ code, o = .refused (.unknownHostCode code) ∧ (code = 0#8 ∨ 0x0C < code.toNat)

theorem issue_txn_stops (w : TxnWord) (s : State) : StopsOnlyOnNoOperation (issue (.txn w) s) := by
  cases hd : decodeTxn s.devices w with
  | ok i =>
    obtain ⟨t, ht⟩ := exec_next_of_decodeTxn hd
    exact .inl ⟨t, (issue_ok (c := .txn w) hd).trans ht⟩
  | error e =>
    obtain ⟨rfl, hrd, hwr, hhigh⟩ := decodeTxn_error hd
    exact .inr (.inl ⟨w, by simp [issue, decode, hd], hhigh, hrd, hwr⟩)

/-- A host operation answers a next state in every state. -/
theorem exec_host_next {i : Instr} (hport : onCpuPort i = false) (s : State) : ∃ t, exec i s = .next t := by
  cases i with
  | readMemory addr =>
    change ∃ t, execReadMemory addr s = .next t
    unfold execReadMemory
    split <;> exact ⟨_, rfl⟩
  | clock | continueRun | stepOne | setBreakpoint | removeBreakpoint | registerTracepoint | queryHalted | queryBreak
  | writeMemory | serialPuts | serialGets | bdReadByte => exact ⟨_, rfl⟩
  | _ => cases hport

theorem issue_host_stops (r : HostRecord) (s : State) : StopsOnlyOnNoOperation (issue (.host r) s) := by
  cases hd : decodeHost r with
  | ok i =>
    obtain ⟨t, ht⟩ := exec_host_next (decodeHost_port hd) s
    exact .inl ⟨t, (issue_ok (c := .host r) hd).trans ht⟩
  | error e =>
    obtain ⟨rfl, hcode⟩ := decodeHost_error hd
    exact .inr (.inr ⟨r.code, by simp [issue, decode, hd], hcode⟩)

theorem hostStep_stops (a : HostAct) (s : State) : StopsOnlyOnNoOperation (hostStep a s) := by
  cases a with
  | op r => exact issue_host_stops r s
  | setStore n k v => exact .inl ⟨_, rfl⟩

/-- Settles O48: by the agent whose turn it is and what it presents. -/
theorem stepStopsOnlyOnWhatIsNoOperation : Obligations.StepStopsOnlyOnWhatIsNoOperation := by
  intro s
  change StopsOnlyOnNoOperation (step s)
  cases hp : s.phase with
  | idle =>
    rw [step_idle hp]
    split
    · exact .inl ⟨_, rfl⟩
    · exact hostStep_stops _ _
  | engine call =>
    rw [step_engine hp]
    split
    · exact .inl ⟨_, rfl⟩
    · rename_i e rest _
      cases e with
      | txn w => exact issue_txn_stops w _
      | ret c pc halted => exact .inl ⟨_, rfl⟩
  | clock call c =>
    rw [step_clock hp, clockStep_eq]
    exact .inl ⟨_, rfl⟩
  | callback call pcS cb =>
    rw [step_callback hp]
    split
    · exact .inl ⟨_, rfl⟩
    · rename_i a rest _
      cases a with
      | host a => exact hostStep_stops a _
      | readRegister | writeRegister | ret => exact .inl ⟨_, rfl⟩

/-! ## The step runs what was decoded (rules R100, R120, R210) -/

/-- Settles O58: one clause per agent that presents something, and the clock batch. -/
theorem stepRunsTheDecodedOperation : Obligations.StepRunsTheDecodedOperation := by
  refine ⟨fun s r rest i hp hin hd => ?_, fun s call w rest i hp hin hd => ?_, fun s call pcS cb r rest i hp hin hd => ?_,
    fun s t call c hp ht => ?_⟩
  · rw [step_idle hp, hin]
    exact issue_ok (s := { s with hostIn := rest }) hd
  · rw [step_engine hp, hin]
    exact issue_ok (s := { s with engineIn := rest }) hd
  · rw [step_callback hp, hin]
    exact issue_ok (s := { s with callbackIn := rest }) hd
  · rw [step_clock hp, clockStep, issue_ok rfl, ht]

/-- Settles O60: a register access of the callback answers, and a write replaces what the program counter answers. -/
theorem callbackRegisterAccessesReachOnlyTheEngine : Obligations.CallbackRegisterAccessesReachOnlyTheEngine := by
  intro s call pcS cb register value pcAfter rest hp
  refine ⟨fun hin => ?_, fun hin => ?_⟩
  all_goals
    rw [step_callback hp, hin]
    rfl

/-! ## The run state (rule R201) -/

/-- The stop checks of a call that runs leave Running only for a halt or a breakpoint (rules R213, R215, R217). -/
theorem State.finishIteration_runState {s t : State} {call : Call} {pcS : Addr} (ht : t = s.finishIteration call pcS)
    (hrun : s.dbg.runState = .running) (hne : t.dbg.runState ≠ .running) :
    (t.dbg.runState = .halted ∧ t.eng.halted = true) ∨
      (t.dbg.runState = .breakHit ∧ t.eng.halted = false ∧ t.isBreakpoint pcS.toNat = true) := by
  obtain ⟨hh, h⟩ | ⟨hh, hbp, h⟩ | ⟨-, -, -, h⟩ | ⟨-, -, -, h⟩ := s.finishIteration_cases call pcS
  · subst ht; rw [h]; exact .inl ⟨rfl, hh⟩
  · subst ht; rw [h]; exact .inr ⟨rfl, hh, hbp⟩
  · subst ht; rw [h] at hne; exact absurd rfl hne
  · subst ht; rw [h] at hne; exact absurd hrun hne

theorem State.Inv.running_of_clock {s : State} (h : s.Inv) {call : Call} {c : Nat} (hp : s.phase = .clock call c) :
    s.dbg.runState = .running := by
  have hphase := h.phase
  rw [PhaseOk, hp] at hphase
  exact hphase.2.1

theorem State.Inv.running_of_callback {s : State} (h : s.Inv) {call : Call} {pcS : Addr} {cb : Callback}
    (hp : s.phase = .callback call pcS cb) : s.dbg.runState = .running ∧ s.dbg.inCallback = true := by
  have hphase := h.phase
  rw [PhaseOk, hp] at hphase
  exact ⟨hphase.2.1, hphase.1⟩

/-- A host operation that changes the run state is a CONTINUE or STEP that begins, outside a callback. -/
theorem HostEffect.runState_changed {i : Instr} {s t : State} (h : HostEffect i s t)
    (hne : t.dbg.runState ≠ s.dbg.runState) :
    ((∃ max, i = .continueRun max) ∨ i = .stepOne) ∧ s.dbg.inCallback = false ∧ s.dbg.runState ≠ .halted ∧
      t.dbg.runState = .running := by
  cases h with
  | devices devs r hd h => exact absurd (by rw [h]; rfl) hne
  | begun max hi hfault hcb hrun h => exact ⟨hi.imp_left fun hi => ⟨max, hi⟩, hcb, hrun, by rw [h]⟩
  | breakpoints bps hbps h => exact absurd (by rw [h]; rfl) hne
  | tracepoint addr cb haddr harity h => exact absurd (by rw [h]; rfl) hne

theorem decodeHost_continueRun {r : HostRecord} {max : Option Nat} (h : decodeHost r = .ok (.continueRun max)) :
    max = r.max := by
  have hr : r.code = 0x01#8 ∧ max = r.max := by simpa using decodeHost_ok h
  exact hr.2

theorem State.engineReturns_runState (s : State) (call : Call) (c : Nat) (pc : Addr) (h : Bool) :
    (s.engineReturns call c pc h).dbg.runState = s.dbg.runState := by
  obtain ⟨-, e⟩ | ⟨-, e⟩ := s.engineReturns_cases call c pc h
  all_goals simp [e]

/-- Settles O44: of everything a step can do, only the start of a CONTINUE or STEP and the stop checks change the run state. -/
theorem runStateChangesOnlyByTheTable : Obligations.RunStateChangesOnlyByTheTable := by
  intro s t hinv h hne
  cases step_kind h with
  | stay ht => exact absurd (by rw [ht]) hne
  | host i s' r htake hd hexec =>
    have heff := exec_host_effect (decodeHost_port hd) (decodeHost_ne_clock hd) hexec
    have hdbg : s'.dbg = s.dbg := by rw [htake.eq]
    obtain ⟨hi, hcb, hhalt, hrun⟩ := heff.runState_changed (hdbg ▸ hne)
    rw [hdbg] at hcb hhalt
    obtain ⟨rest, hp, hin, -⟩ | ⟨call, pcS, cb, rest, hp, -, -⟩ := htake
    · refine .inl ⟨hp, ?_, hrun, r, rest, hin, ?_⟩
      · cases hs : s.dbg.runState with
        | undefined => exact .inl rfl
        | breakHit => exact .inr rfl
        | halted => exact absurd hs hhalt
        | running => exact absurd (hrun.trans hs.symm) hne
      · obtain ⟨max, rfl⟩ | rfl := hi
        · exact .inl (decodeHost_continueRun hd ▸ hd)
        · exact .inr hd
    · exact absurd ((hinv.running_of_callback hp).2.symm.trans hcb) (by simp)
  | store s' n k v htake ht =>
    obtain ⟨devs, -, heq⟩ := s'.setStoreByte_eq n k v
    exact absurd (by rw [ht, heq, htake.eq]) hne
  | txn i call w rest hp hin hd hexec =>
    obtain ⟨x, hfin, -⟩ := exec_cpuPort_next (decodeTxn_port hd) hexec
    exact absurd (by rw [hfin.dbg]) hne
  | ret call c pc halted rest hp hin ht => exact absurd (by rw [ht, State.engineReturns_runState]) hne
  | clock call c hp ht =>
    have hrun := hinv.running_of_clock hp
    obtain ⟨cb, -, heq⟩ | ⟨-, heq⟩ := State.afterBatch_cases
      { s with devs := (clockAll c s.devs).1, returns := { s.returns with bus := some (clockAll c s.devs).2.busState } }
      call (clockAll c s.devs).2.busState
    · exact absurd (by rw [ht, heq]; rfl) hne
    · obtain ⟨hhalt, heng⟩ | ⟨hbreak, heng, hbp⟩ := State.finishIteration_runState (ht.trans heq) hrun (hrun ▸ hne)
      · exact .inr (.inl ⟨hrun, hhalt, heng⟩)
      · exact .inr (.inr ⟨hrun, hbreak, heng, s.eng.pc, hbp, .inl rfl⟩)
  | register call pcS cb rest pc reply hp ht => exact absurd (by rw [ht]; rfl) hne
  | callbackRet call pcS cb rest hp hin ht =>
    have hrun := (hinv.running_of_callback hp).1
    obtain ⟨hhalt, heng⟩ | ⟨hbreak, heng, hbp⟩ := State.finishIteration_runState ht hrun (hrun ▸ hne)
    · exact .inr (.inl ⟨hrun, hhalt, heng⟩)
    · exact .inr (.inr ⟨hrun, hbreak, heng, pcS, hbp, .inr ⟨call, cb, hp⟩⟩)

end Sys2Proof.Machine

/-! # Serial port: the ring buffer is a queue -/

namespace Sys2Proof.Machine

/-! ## Indices modulo the capacity (rules R36, R37) -/

/-- Positions less than a capacity apart are different places of the ring. -/
theorem add_mod_ne {a j k c : Nat} (ha : a < c) (hjk : j < k) (hk : k < j + c) (hkc : k ≤ c) : (a + j) % c ≠ (a + k) % c := by
  rw [add_mod_of_lt ha (by omega), add_mod_of_lt ha hkc]
  split <;> split <;> omega

namespace Ring

variable {pol : SerialOverflow} {cap : Nat} {r r' : Ring}

theorem len_of_counting (h : pol ≠ .indexWrap) (r : Ring) : r.len pol cap = r.cnt := by
  cases pol with
  | overwriteOldest | dropNewest => rfl
  | indexWrap => exact absurd rfl h

/-- Under INDEX_WRAP the length is the distance from the read index to the write index (rule R37). -/
theorem len_indexWrap {l : Nat} (hrd : r.rd < cap) (hwr : r.wr = (r.rd + l) % cap) (hl : l < cap) :
    r.len .indexWrap cap = l := by
  calc r.len .indexWrap cap
    _ = ((r.rd + l) % cap + (cap - r.rd)) % cap := by rw [← hwr]; rfl
    _ = (l + cap) % cap := by rw [Nat.mod_add_mod]; congr 1; omega
    _ = l := by rw [Nat.add_mod_right, Nat.mod_eq_of_lt hl]

/-- A ring whose write index is `l` places past its read index is well formed and holds `l` bytes, if its count says so under the
policies that keep one. -/
theorem ok_of_distance {l : Nat} (hbuf : Memory.Ok cap r.buf) (hrd : r.rd < cap) (hwr : r.wr = (r.rd + l) % cap) (hl : l ≤ cap)
    (hcnt : pol ≠ .indexWrap → r.cnt = l) (hwrap : pol = .indexWrap → r.cnt = 0 ∧ l < cap) :
    r.Ok pol cap ∧ r.len pol cap = l := by
  have hwrlt : r.wr < cap := hwr ▸ Nat.mod_lt _ (by omega)
  by_cases hpol : pol = .indexWrap
  · subst hpol
    obtain ⟨hzero, hlt⟩ := hwrap rfl
    exact ⟨⟨hbuf, hwrlt, hrd, hzero⟩, len_indexWrap hrd hwr hlt⟩
  · have hc := hcnt hpol
    refine ⟨⟨hbuf, hwrlt, hrd, ?_⟩, (len_of_counting hpol r).trans hc⟩
    cases pol with
    | overwriteOldest | dropNewest => exact ⟨hc ▸ hl, hc ▸ hwr⟩
    | indexWrap => exact absurd rfl hpol

theorem Ok.cnt_of_indexWrap (h : r.Ok .indexWrap cap) : r.cnt = 0 := h.2.2.2

/-! ## A push (rule R176) -/

/-- A byte stored where there is room joins the unread bytes as the newest. -/
theorem put_of_room (h : r.Ok pol cap) {v : Byte} (hroom : r.len pol cap < cap)
    (hcnt : pol ≠ .indexWrap → r'.cnt = r.cnt + 1) (hwrap : pol = .indexWrap → r'.cnt = r.cnt ∧ r.len pol cap + 1 < cap)
    (hbuf : r'.buf = r.buf.write r.wr v) (hwr : r'.wr = (r.wr + 1) % cap) (hrd : r'.rd = r.rd) :
    r'.Ok pol cap ∧ r'.unread pol cap = r.unread pol cap ++ [v] := by
  obtain ⟨hdist, hle, -⟩ := h.wr_eq
  obtain ⟨hmem, hwrlt, hrdlt, -⟩ := id h
  obtain ⟨hok, hlen⟩ := ok_of_distance (r := r') (pol := pol) (l := r.len pol cap + 1) (hbuf ▸ hmem.write hwrlt v) (hrd ▸ hrdlt)
    (by rw [hwr, hdist, hrd, Nat.mod_add_mod, Nat.add_assoc]) hroom
    (fun hp => by rw [hcnt hp, len_of_counting hp])
    (fun hp => ⟨by subst hp; rw [(hwrap rfl).1, h.cnt_of_indexWrap], (hwrap hp).2⟩)
  refine ⟨hok, unread_eq_iff.2 ⟨by simp [hlen, unread_length], fun k hk => ?_⟩⟩
  rw [hbuf, hrd, Memory.read_write, hdist]
  simp only [List.length_append, unread_length, List.length_singleton] at hk
  by_cases hlast : k = r.len pol cap
  · subst hlast
    simp [unread_length]
  · rw [if_neg (add_mod_ne hrdlt (by omega) (by omega) hle).symm,
      List.getElem_append_left (by rw [unread_length]; omega)]
    exact (unread_eq_iff.1 rfl).2 k _

/-- Under OVERWRITE_OLDEST a byte pushed at the capacity takes the oldest one's place. -/
theorem push_overwriteOldest_of_full (h : r.Ok .overwriteOldest cap) (hfull : r.cnt = cap) (v : Byte) :
    (r.push .overwriteOldest cap v).Ok .overwriteOldest cap ∧
      (r.push .overwriteOldest cap v).unread .overwriteOldest cap = (r.unread .overwriteOldest cap ++ [v]).drop 1 := by
  obtain ⟨hmem, hwrlt, hrdlt, -, hdist⟩ := id h
  have hwr : r.wr = r.rd := by rw [hdist, hfull, Nat.add_mod_right, Nat.mod_eq_of_lt hrdlt]
  have hpush : r.push .overwriteOldest cap v =
      { buf := r.buf.write r.wr v, wr := (r.wr + 1) % cap, rd := (r.rd + 1) % cap, cnt := r.cnt } := by
    simp [push, put, hfull]
  obtain ⟨hok, hlen⟩ := ok_of_distance (r := r.push .overwriteOldest cap v) (pol := .overwriteOldest) (l := cap)
    (by rw [hpush]; exact hmem.write hwrlt v) (by rw [hpush]; exact Nat.mod_lt _ (by omega))
    (by rw [hpush]; simp [hwr]) le_rfl (fun _ => by rw [hpush]; exact hfull) (by simp)
  have hold : r.len .overwriteOldest cap = cap := hfull
  refine ⟨hok, unread_eq_iff.2 ⟨by simp [hlen, unread_length, hold], fun k hk => ?_⟩⟩
  simp only [List.length_drop, List.length_append, unread_length, List.length_singleton, hold] at hk
  have hplace : ((r.rd + 1) % cap + k) % cap = (r.rd + (k + 1)) % cap := by
    rw [Nat.mod_add_mod]; congr 1; omega
  simp only [hpush, hplace, Memory.read_write, List.getElem_drop, hwr, Nat.add_comm 1 k]
  by_cases hlast : k + 1 = cap
  · rw [if_pos (by rw [hlast, Nat.add_mod_right, Nat.mod_eq_of_lt hrdlt]),
      List.getElem_append_right (by rw [unread_length, hold]; omega)]
    simp
  · have hne := add_mod_ne hrdlt (Nat.succ_pos k) (by omega) (by omega)
    rw [Nat.add_zero, Nat.mod_eq_of_lt hrdlt] at hne
    rw [if_neg hne, List.getElem_append_left (by rw [unread_length, hold]; omega)]
    exact (unread_eq_iff.1 rfl).2 (k + 1) _

/-- Under INDEX_WRAP a byte pushed when one place is free makes the indices meet: the ring reads as empty. -/
theorem push_indexWrap_of_full (h : r.Ok .indexWrap cap) (hfull : r.len .indexWrap cap + 1 = cap) (v : Byte) :
    (r.push .indexWrap cap v).Ok .indexWrap cap ∧ (r.push .indexWrap cap v).unread .indexWrap cap = [] := by
  obtain ⟨hdist, -, -⟩ := h.wr_eq
  obtain ⟨hmem, hwrlt, hrdlt, hcnt⟩ := id h
  have hwr : (r.wr + 1) % cap = (r.rd + 0) % cap := by
    rw [hdist, Nat.mod_add_mod, Nat.add_assoc, hfull, Nat.add_mod_right, Nat.add_zero]
  obtain ⟨hok, hlen⟩ := ok_of_distance (r := r.push .indexWrap cap v) (pol := .indexWrap) (l := 0)
    (hmem.write hwrlt v) hrdlt hwr (Nat.zero_le _) (by simp) (fun _ => ⟨hcnt, by omega⟩)
  exact ⟨hok, List.length_eq_zero_iff.1 (unread_length.trans hlen)⟩

/-- A push keeps the ring well formed and does to the unread bytes what the policy says (rule R176). -/
theorem push_spec (h : r.Ok pol cap) (v : Byte) :
    (r.push pol cap v).Ok pol cap ∧ (r.push pol cap v).unread pol cap = queuePush pol cap (r.unread pol cap) v := by
  obtain ⟨-, hle, hlt⟩ := h.wr_eq
  cases pol with
  | overwriteOldest =>
    have hlen : (r.unread .overwriteOldest cap).length = r.cnt := unread_length
    by_cases hfull : r.cnt = cap
    · simpa [queuePush, hlen, hfull] using push_overwriteOldest_of_full h hfull v
    · simp only [queuePush, hlen, if_neg hfull, push]
      exact put_of_room h (Nat.lt_of_le_of_ne hle hfull) (fun _ => rfl) (by simp) rfl rfl rfl
  | dropNewest =>
    have hlen : (r.unread .dropNewest cap).length = r.cnt := unread_length
    by_cases hfull : r.cnt = cap
    · simpa [queuePush, push, hlen, hfull] using h
    · simp only [queuePush, hlen, if_neg hfull, push]
      exact put_of_room h (Nat.lt_of_le_of_ne hle hfull) (fun _ => rfl) (by simp) rfl rfl rfl
  | indexWrap =>
    have hlen : (r.unread .indexWrap cap).length = r.len .indexWrap cap := unread_length
    by_cases hfull : r.len .indexWrap cap + 1 = cap
    · simpa [queuePush, hlen, hfull] using push_indexWrap_of_full h hfull v
    · simp only [queuePush, hlen, if_neg hfull]
      have hroom := hlt rfl
      exact put_of_room h hroom (by simp) (fun _ => ⟨rfl, by omega⟩) rfl rfl rfl

/-! ## A pop (rule R178) -/

theorem empty_iff : r.empty pol cap = true ↔ r.unread pol cap = [] := by
  rw [empty, beq_iff_eq, ← unread_length, List.length_eq_zero_iff]

/-- A pop takes the oldest unread byte and leaves the others. -/
theorem pop_spec (h : r.Ok pol cap) {b : Byte} {rest : List Byte} (hq : r.unread pol cap = b :: rest) :
    (r.pop pol cap).1 = b ∧ (r.pop pol cap).2.unread pol cap = rest ∧ (r.pop pol cap).2.Ok pol cap := by
  obtain ⟨hdist, hle, hlt⟩ := h.wr_eq
  obtain ⟨hmem, -, hrdlt, -⟩ := id h
  obtain ⟨hlen, hread⟩ := unread_eq_iff.1 hq
  rw [List.length_cons] at hlen
  have hplace : ∀ k, ((r.rd + 1) % cap + k) % cap = (r.rd + (k + 1)) % cap := fun k => by
    rw [Nat.mod_add_mod]; congr 1; omega
  obtain ⟨hok, hlen'⟩ := ok_of_distance (r := (r.pop pol cap).2) (pol := pol) (l := rest.length) hmem
    (Nat.mod_lt _ (by omega))
    (by
      change r.wr = ((r.rd + 1) % cap + rest.length) % cap
      rw [hplace, ← hlen]
      exact hdist)
    (by omega)
    (fun hp => by
      have hcnt : (r.pop pol cap).2.cnt = r.cnt - 1 := by
        cases pol with
        | overwriteOldest | dropNewest => rfl
        | indexWrap => exact absurd rfl hp
      rw [len_of_counting hp] at hlen
      omega)
    (fun hp => by subst hp; exact ⟨h.cnt_of_indexWrap, by omega⟩)
  refine ⟨?_, unread_eq_iff.2 ⟨hlen', fun k hk => ?_⟩, hok⟩
  · have hfirst := hread 0 (by simp)
    rwa [Nat.add_zero, Nat.mod_eq_of_lt hrdlt] at hfirst
  · have hnext := hread (k + 1) (by simpa using hk)
    rw [List.getElem_cons_succ] at hnext
    rw [← hnext, ← hplace]
    rfl

/-! ## Several pushes and pops (rules R180, R182) -/

theorem pushAll_spec (h : r.Ok pol cap) (bs : List Byte) :
    (r.pushAll pol cap bs).Ok pol cap ∧
      (r.pushAll pol cap bs).unread pol cap = bs.foldl (queuePush pol cap) (r.unread pol cap) := by
  induction bs generalizing r with
  | nil => exact ⟨h, rfl⟩
  | cons v bs ih =>
    obtain ⟨hok, hq⟩ := push_spec h v
    simpa [pushAll, hq] using ih hok

theorem popMany_spec {k : Nat} (h : r.Ok pol cap) (hk : k ≤ r.len pol cap) :
    (popMany pol cap k r).1 = (r.unread pol cap).take k ∧
      (popMany pol cap k r).2.unread pol cap = (r.unread pol cap).drop k ∧ (popMany pol cap k r).2.Ok pol cap := by
  induction k generalizing r with
  | zero => exact ⟨by simp [popMany], by simp [popMany], h⟩
  | succ k ih =>
    cases hq : r.unread pol cap with
    | nil =>
      rw [← unread_length, hq] at hk
      simp at hk
    | cons b rest =>
      obtain ⟨hb, hrest, hok⟩ := pop_spec h hq
      have hlen : k ≤ (r.pop pol cap).2.len pol cap := by
        rw [← unread_length, hrest]
        rw [← unread_length, hq] at hk
        simpa using hk
      obtain ⟨htake, hdrop, hok'⟩ := ih hok hlen
      exact ⟨by simp [popMany, hb, htake, hrest], by simp [popMany, hdrop, hrest], hok'⟩

end Ring

/-- Settles O16. -/
theorem ringIsAByteQueue : Obligations.RingIsAByteQueue := fun _ _ _ v h =>
  ⟨(Ring.push_spec h v).1, (Ring.push_spec h v).2, Ring.empty_iff, fun _ _ hq => Ring.pop_spec h hq⟩

end Sys2Proof.Machine

/-! # Construction and the invariant -/

namespace Sys2Proof

/-- What construction requires of a variant's descriptor (rule R341); tied to the model by `configError_eq_none_iff`. -/
def DeviceDesc.Passes : DeviceDesc → Prop
  | .rom r => 1 ≤ r.size ∧ r.base.toNat + r.size ≤ 0x10000 ∧ (r.image.getD []).length ≤ r.size
  | .ram r => 1 ≤ r.size ∧ r.base.toNat + r.size ≤ 0x10000 ∧ (r.image.getD []).length ≤ r.size
  | .serial p => p.inPort ≠ p.readyPort ∧ 1 ≤ p.capacity
  | .timer t => t.countPort ≠ t.controlPort
  | .drive b => 1 ≤ b.sectorSize ∧ 1 ≤ b.numSectors ∧ b.basePort.toNat ≤ 0xF8 ∧
      ∀ f, b.file = some f → f.length = b.sectorSize * b.numSectors

end Sys2Proof

namespace Sys2Proof.Machine

/-! ## The checks of construction (rule R341) -/

theorem firstFailing_eq_none_iff {devs : List Descriptor} {bad : Descriptor → Bool} {err : Name → ConfigError} :
    firstFailing devs bad err = none ↔ ∀ d ∈ devs, bad d = false := by
  simp [firstFailing]

/-- No device shares its name exactly when the names are all different (CFG_DUPLICATE_NAME). -/
theorem sharesName_eq_false_iff {devs : List Descriptor} :
    (∀ d ∈ devs, sharesName devs d = false) ↔ (devs.map Descriptor.name).Nodup := by
  have hcount : ∀ n : Name, (devs.map Descriptor.name).count n = devs.countP fun e => e.name == n := fun n => by
    rw [List.count, List.countP_map]; rfl
  rw [List.nodup_iff_count_le_one]
  constructor
  · intro h n
    by_cases hn : n ∈ devs.map Descriptor.name
    · obtain ⟨d, hd, rfl⟩ := List.mem_map.1 hn
      have hone := h d hd
      rw [sharesName, decide_eq_false_iff_not] at hone
      rw [hcount]
      omega
    · rw [List.count_eq_zero_of_not_mem hn]
      omega
  · intro h d _
    have hone := h d.name
    rw [hcount] at hone
    rw [sharesName, decide_eq_false_iff_not]
    omega

/-- The checks of one device's own descriptor all pass. -/
def DescriptorChecksPass (d : DeviceDesc) : Prop :=
  regionRangeBad d = false ∧ imageSizeBad d = false ∧ bdGeometryBad d = false ∧ bdFileSizeBad d = false ∧
    bdPortRangeBad d = false ∧ serialPortsBad d = false ∧ serialCapacityBad d = false ∧ timerPortsBad d = false

theorem descriptorChecksPass_iff (d : DeviceDesc) : DescriptorChecksPass d ↔ d.Passes := by
  cases d with
  | rom r | ram r =>
    simp only [DescriptorChecksPass, DeviceDesc.Passes, regionRangeBad, imageSizeBad, bdGeometryBad, bdFileSizeBad,
      bdPortRangeBad, serialPortsBad, serialCapacityBad, timerPortsBad, decide_eq_false_iff_not, and_true]
    omega
  | serial p =>
    simp only [DescriptorChecksPass, DeviceDesc.Passes, regionRangeBad, imageSizeBad, bdGeometryBad, bdFileSizeBad,
      bdPortRangeBad, serialPortsBad, serialCapacityBad, timerPortsBad, decide_eq_false_iff_not, true_and, and_true,
      Nat.one_le_iff_ne_zero]
  | timer t =>
    simp [DescriptorChecksPass, DeviceDesc.Passes, regionRangeBad, imageSizeBad, bdGeometryBad, bdFileSizeBad,
      bdPortRangeBad, serialPortsBad, serialCapacityBad, timerPortsBad]
  | drive b =>
    simp only [DescriptorChecksPass, DeviceDesc.Passes, regionRangeBad, imageSizeBad, bdGeometryBad, bdFileSizeBad,
      bdPortRangeBad, serialPortsBad, serialCapacityBad, timerPortsBad, decide_eq_false_iff_not, true_and, and_true,
      Nat.one_le_iff_ne_zero, not_or, Nat.not_lt]
    cases hf : b.file with
    | none => simp [and_assoc]
    | some f =>
      simp only [decide_eq_false_iff_not, Decidable.not_not, Option.some.injEq, forall_eq', and_assoc]
      exact ⟨fun ⟨hs, hn, hlen, hp⟩ => ⟨hs, hn, hp, hlen⟩, fun ⟨hs, hn, hp, hlen⟩ => ⟨hs, hn, hlen, hp⟩⟩

/-- No check fails exactly when every descriptor passes its own and the names are all different. -/
theorem configError_eq_none_iff {devs : List Descriptor} :
    configError devs = none ↔ (∀ d ∈ devs, d.desc.Passes) ∧ (devs.map Descriptor.name).Nodup := by
  simp only [configError, Option.or_eq_none_iff, firstFailing_eq_none_iff, sharesName_eq_false_iff,
    ← descriptorChecksPass_iff, DescriptorChecksPass, imp_and, forall_and, and_assoc]

/-- Settles O52: the descriptors that are read are those the records give, and the checks pass as the rule states them. -/
theorem constructionChecksTheConfiguration : Obligations.ConstructionChecksTheConfiguration := by
  intro devices params s
  rw [construct_ok_iff]
  constructor
  · rintro ⟨devs, hread, hcheck, rfl⟩
    obtain ⟨hpass, hnames⟩ := configError_eq_none_iff.1 hcheck
    exact ⟨devs, readDevices_ok_iff.1 hread, hpass, hnames, rfl⟩
  · rintro ⟨devs, hgives, hpass, hnames, rfl⟩
    exact ⟨devs, readDevices_ok_iff.2 hgives, configError_eq_none_iff.2 ⟨hpass, hnames⟩, rfl⟩

/-! ## The state construction builds meets the invariant (rules R342, R343) -/

theorem Ring.ok_reset {pol : SerialOverflow} {cap : Nat} (h : 1 ≤ cap) : Ring.reset.Ok pol cap :=
  (Ring.ok_of_distance (l := 0) (Memory.Ok.nil cap) h (Nat.zero_mod cap).symm (Nat.zero_le cap) (fun _ => rfl)
    fun _ => ⟨rfl, h⟩).1

theorem Device.ok_reset {d : DeviceDesc} (h : d.Passes) (params : Params) (faulted : Bool) :
    (Device.reset params d).Ok params faulted := by
  cases d with
  | rom r | ram r => exact Memory.Ok.ofBytes h.2.2
  | serial p => exact ⟨Ring.ok_reset h.2, Ring.ok_reset h.2⟩
  | timer t => trivial
  | drive b =>
    refine ⟨⟨rfl, rfl, rfl⟩, Memory.Ok.nil _, ?_⟩
    obtain ⟨-, -, -, hlen⟩ := h
    cases hf : b.file with
    | none => simp [BlockDrive.reset, BlockDrive.StoreOk, hf]
    | some f =>
      have hok : (Memory.ofBytes f).Ok (b.sectorSize * b.numSectors) := .ofBytes (hlen f hf).le
      simpa [BlockDrive.reset, BlockDrive.StoreOk, hf] using hok

theorem State.inv_initial {c : Config} (h : configError c.devices = none) : (State.initial c).Inv where
  config := by
    have hdevs : (State.initial c).devices = c.devices := congrArg Config.devices (State.config_initial c)
    rwa [hdevs]
  devices x hx := by
    obtain ⟨d, hd, rfl⟩ := State.eq_reset_of_mem_devs_initial hx
    exact Device.ok_reset ((configError_eq_none_iff.1 h).1 d hd) c.params _
  breakpoints := ⟨rfl, rfl⟩
  tracepoints := ⟨rfl, rfl⟩
  arity x hx := by cases hx
  phase := rfl
  run := ⟨fun _ => ⟨rfl, rfl, rfl, rfl⟩, fun hrun => by cases hrun⟩
  int hint := by cases hint

/-- Settles O51. -/
theorem constructionMeetsTheInvariant : Obligations.ConstructionMeetsTheInvariant := by
  intro devices params s h
  obtain ⟨devs, -, hcheck, rfl⟩ := construct_ok_iff.1 h
  exact State.inv_initial hcheck

/-- The reference configuration passes the checks. -/
theorem configError_reference : configError Config.reference.devices = none :=
  configError_eq_none_iff.2 ⟨by simp [Config.reference, DeviceDesc.Passes], by simp [Config.reference]⟩

/-- Settles O50. -/
theorem resetMeetsTheInvariant : Obligations.ResetMeetsTheInvariant :=
  State.inv_initial configError_reference

end Sys2Proof.Machine

/-! # Every step keeps the invariant -/

namespace Sys2Proof.Machine

/-! ## Memory regions (rules R33, R73) -/

theorem Device.Ok.mono {params : Params} {f g : Bool} (hfg : f = true → g = true) {d : Device} (h : d.Ok params f) :
    d.Ok params g := by
  cases d with
  | rom | ram | serial | timer => exact h
  | drive b =>
    obtain ⟨hphase, hrest⟩ := h
    refine ⟨?_, hrest⟩
    unfold BlockDrive.PhaseOk at hphase ⊢
    split at hphase
    · exact hphase
    · exact hphase
    · exact hphase.imp_right (Or.imp_right (And.imp_left hfg))

/-- A byte stored at an address of the region stays inside it. -/
theorem Region.ok_put {r : Region} {a : Addr} (ha : r.covers a) (v : Byte) (h : Memory.Ok r.desc.size r.contents) :
    Memory.Ok r.desc.size (r.put a v).contents := by
  obtain ⟨hlo, hhi⟩ := ha
  exact h.write (by unfold offset; omega) v

theorem Slot.covers_of_claims {d : Slot} {a : Addr} {r : Region} (h : d.claims a = true) (hr : d.device.region = some r) :
    r.covers a := by
  obtain ⟨q, hq, hcov⟩ := (claims_iff d a).1 h
  obtain rfl := Option.some.inj (hr.symm.trans hq)
  exact hcov

theorem Slot.busWrite_ok {params : Params} {f : Bool} {d : Slot} {a : Addr} (hc : d.claims a = true) (v : Byte)
    (h : d.device.Ok params f) : (d.device.busWrite a v).Ok params f := by
  obtain ⟨n, x⟩ := d
  cases x with
  | ram r => exact Region.ok_put (covers_of_claims hc rfl) v h
  | rom | serial | timer | drive => exact h

theorem Slot.hostWrite_ok {params : Params} {f : Bool} {d : Slot} {a : Addr} (hc : d.claims a = true) (rom : HostWriteRom)
    (v : Byte) (h : d.device.Ok params f) : (d.device.hostWrite rom a v).Ok params f := by
  obtain ⟨n, x⟩ := d
  cases x with
  | ram r => exact Region.ok_put (covers_of_claims hc rfl) v h
  | rom r =>
    cases rom with
    | ignore => exact h
    | store => exact Region.ok_put (covers_of_claims hc rfl) v h
  | serial | timer | drive => exact h

/-! ## Serial ports (rule R36) -/

theorem SerialPort.ok_serIn {params : Params} {f : Bool} {p : SerialPort} (h : (Device.serial p).Ok params f) :
    (Device.serial (p.serIn params.overflow).dev).Ok params f := by
  obtain ⟨hto, hfrom⟩ := id h
  unfold serIn
  split
  · exact h
  · rename_i hempty
    obtain ⟨b, rest, hq⟩ := List.exists_cons_of_ne_nil fun hq => hempty (Ring.empty_iff.2 hq)
    exact ⟨(Ring.pop_spec hto hq).2.2, hfrom⟩

/-! ## Block drives (rules R40 to R42) -/

theorem BlockDrive.ok_loadSector {b : BlockDrive} {k : Nat} {m : Memory} (h : b.loadSector k = some m) :
    m.Ok b.desc.sectorSize := by
  unfold loadSector at h
  split at h
  · cases h; exact Memory.Ok.nil _
  · split at h
    · cases h; exact (Memory.Ok.nil _).copyIn (by omega) _
    · cases h

/-- A sector stored at an LBA in range stays inside the store, and only the store changes. -/
theorem BlockDrive.storeSector_spec {b b' : BlockDrive} {k : Nat} {buf : Memory} (h : b.storeSector k buf = some b')
    (hok : b.StoreOk) : b' = { b with store := b'.store } ∧ b'.StoreOk := by
  unfold storeSector at h
  split at h
  · cases h; exact ⟨rfl, hok⟩
  · rename_i m hm
    split at h
    · rename_i hk
      cases h
      refine ⟨rfl, ?_⟩
      unfold StoreOk at hok ⊢
      rw [hm] at hok
      have hroom : k * b.desc.sectorSize + b.desc.sectorSize ≤ b.desc.sectorSize * b.desc.numSectors := by
        calc k * b.desc.sectorSize + b.desc.sectorSize
          _ = (k + 1) * b.desc.sectorSize := (Nat.succ_mul k _).symm
          _ ≤ b.desc.numSectors * b.desc.sectorSize := Nat.mul_le_mul_right _ hk
          _ = b.desc.sectorSize * b.desc.numSectors := Nat.mul_comm _ _
      exact ⟨hok.1, hok.2.copyIn hroom _⟩
    · cases h

/-- The drive a handler leaves holds what its rules allow, if a fault the handler raised is recorded. -/
def Handled.DriveOk (params : Params) (f : Bool) (h : Handled BlockDrive) : Prop :=
  (f = false → h.fault = none) → (Device.drive h.dev).Ok params f

/-- The flush of a full write buffer: CMD_READY, or the fault that leaves DATA_READY (rules R272, R315). -/
theorem BlockDrive.flush_driveOk {params : Params} {f : Bool} {c : BlockDrive} (hmode : c.mode = .write) (hstatus : c.status = dataReady)
    (hfull : c.bufferOffset = c.desc.sectorSize) (hbuf : Memory.Ok c.desc.sectorSize c.sectorBuffer) (hstore : c.StoreOk)
    (n : Name) : (c.flush n).DriveOk params f := by
  intro hfault
  unfold flush at hfault ⊢
  cases hput : c.storeSector (lbaOf c) c.sectorBuffer with
  | none =>
    have hf : f = true := by
      cases f with
      | true => rfl
      | false => simpa [hput] using hfault rfl
    refine ⟨?_, hbuf, hstore⟩
    simp only [PhaseOk, hmode]
    exact .inr (.inr ⟨hf, hstatus, hfull⟩)
  | some c' =>
    obtain ⟨heq, hstore'⟩ := storeSector_spec hput hstore
    refine ⟨?_, ?_, hstore'⟩
    · rw [heq]
      simp only [PhaseOk, hmode]
      exact .inr (.inl ⟨trivial, hfull⟩)
    · rw [heq]
      exact hbuf

section

variable {params : Params} {f : Bool} {b : BlockDrive} (hgeo : 1 ≤ b.desc.sectorSize) (hok : (Device.drive b).Ok params f)

include hgeo hok

theorem BlockDrive.cmdRead_driveOk (n : Name) : (b.cmdRead n).DriveOk params f := by
  intro _
  unfold cmdRead
  split
  · exact hok
  · exact ⟨.inl ⟨rfl, hgeo⟩, ok_loadSector ‹_›, hok.2.2⟩

theorem BlockDrive.cmdWrite_driveOk (n : Name) : (b.cmdWrite n).DriveOk params f :=
  fun _ => ⟨.inl ⟨rfl, hgeo⟩, Memory.Ok.nil _, hok.2.2⟩

theorem BlockDrive.command_driveOk (v : Byte) (n : Name) : (b.command v n).DriveOk params f := by
  unfold command
  split
  · exact cmdRead_driveOk hgeo hok n
  · split
    · exact cmdWrite_driveOk hgeo hok n
    · exact fun _ => hok

omit hgeo

/-- While a sector is being transferred, DATA_READY is set. -/
theorem BlockDrive.status_of_transfer (hmode : b.mode ≠ .uninit) (hoff : b.bufferOffset < b.desc.sectorSize) :
    b.status = dataReady := by
  obtain ⟨hphase, -⟩ := hok
  unfold PhaseOk at hphase
  split at hphase
  · exact absurd ‹_› hmode
  · obtain ⟨hs, -⟩ | ⟨-, hend⟩ := hphase
    · exact hs
    · omega
  · obtain ⟨hs, -⟩ | ⟨-, hend⟩ | ⟨-, -, hend⟩ := hphase
    · exact hs
    · omega
    · omega

theorem BlockDrive.dataRead_driveOk (n : Name) : (b.dataRead n).DriveOk params f := by
  intro _
  unfold dataRead
  split
  · rename_i hphase
    obtain ⟨hmode, hoff⟩ := hphase
    have hstatus := status_of_transfer hok (by simp [hmode]) hoff
    refine ⟨?_, hok.2⟩
    simp only [PhaseOk, hmode]
    by_cases hlast : b.bufferOffset + 1 = b.desc.sectorSize
    · exact .inr ⟨if_pos hlast, hlast⟩
    · exact .inl ⟨(if_neg hlast).trans hstatus, by omega⟩
  · exact hok

theorem BlockDrive.dataWrite_driveOk (v : Byte) (n : Name) : (b.dataWrite v n).DriveOk params f := by
  unfold dataWrite
  split
  · rename_i hphase
    obtain ⟨hmode, hoff⟩ := hphase
    obtain ⟨-, hbuf, hstore⟩ := id hok
    have hstatus := status_of_transfer hok (by simp [hmode]) hoff
    have hbuf' : Memory.Ok b.desc.sectorSize (b.acceptByte v).sectorBuffer := hbuf.write hoff v
    split
    · rename_i hlast
      exact flush_driveOk (c := b.acceptByte v) hmode hstatus hlast hbuf' hstore n
    · intro _
      refine ⟨?_, hbuf', hstore⟩
      simp only [PhaseOk, acceptByte, hmode]
      exact .inl ⟨hstatus, by omega⟩
  · exact fun _ => hok

end

/-! ## Every change of a device -/

theorem Slot.onSerial_eq_some {g : SerialPort → Handled SerialPort} {d : Slot} {h : Handled Slot} (hd : d.onSerial g = some h) :
    ∃ n p, d = { name := n, device := .serial p } ∧ h = (g p).map fun p' => { name := n, device := .serial p' } := by
  obtain ⟨n, x⟩ := d
  cases x with
  | serial p => cases hd; exact ⟨n, p, rfl, rfl⟩
  | rom | ram | timer | drive => cases hd

theorem Slot.onTimer_eq_some {g : Timer → Handled Timer} {d : Slot} {h : Handled Slot} (hd : d.onTimer g = some h) :
    ∃ n t, d = { name := n, device := .timer t } ∧ h = (g t).map fun t' => { name := n, device := .timer t' } := by
  obtain ⟨n, x⟩ := d
  cases x with
  | timer t => cases hd; exact ⟨n, t, rfl, rfl⟩
  | rom | ram | serial | drive => cases hd

theorem Slot.onDrive_eq_some {g : Name → BlockDrive → Handled BlockDrive} {d : Slot} {h : Handled Slot}
    (hd : d.onDrive g = some h) :
    ∃ n b, d = { name := n, device := .drive b } ∧ h = (g n b).map fun b' => { name := n, device := .drive b' } := by
  obtain ⟨n, x⟩ := d
  cases x with
  | drive b => cases hd; exact ⟨n, b, rfl, rfl⟩
  | rom | ram | serial | timer => cases hd

section

variable {params : Params} {f : Bool} {d : Slot} (hpass : d.device.desc.Passes) (hok : d.device.Ok params f)

include hok

theorem Slot.onSerial_ok {g : SerialPort → Handled SerialPort} {h : Handled Slot} (hd : d.onSerial g = some h)
    (hg : ∀ p, (Device.serial p).Ok params f → (Device.serial (g p).dev).Ok params f) : h.dev.device.Ok params f := by
  obtain ⟨n, p, rfl, rfl⟩ := onSerial_eq_some hd
  exact hg p hok

include hpass

theorem Slot.onDrive_ok {g : Name → BlockDrive → Handled BlockDrive} {h : Handled Slot} (hd : d.onDrive g = some h)
    (hf : f = false → h.fault = none)
    (hg : ∀ n b, 1 ≤ b.desc.sectorSize → (Device.drive b).Ok params f → (g n b).DriveOk params f) :
    h.dev.device.Ok params f := by
  obtain ⟨n, b, rfl, rfl⟩ := onDrive_eq_some hd
  exact hg n b hpass.1 hok hf

theorem Slot.readHandler_ok {r : ReadReg} {h : Handled Slot} (hd : d.readHandler params r = some h)
    (hf : f = false → h.fault = none) : h.dev.device.Ok params f := by
  cases r with
  | serIn => exact onSerial_ok hok hd fun _ => SerialPort.ok_serIn
  | serReady => exact onSerial_ok hok hd fun _ hp => hp
  | bdData => exact onDrive_ok hpass hok hd hf fun n b _ hb => BlockDrive.dataRead_driveOk hb n
  | bdStatus => exact onDrive_ok hpass hok hd hf fun _ _ _ hb _ => hb

theorem Slot.writeHandler_ok {v : Byte} {r : WriteReg} {h : Handled Slot} (hd : d.writeHandler params v r = some h)
    (hf : f = false → h.fault = none) : h.dev.device.Ok params f := by
  cases r with
  | serOut => exact onSerial_ok hok hd fun p hp => ⟨hp.1, (Ring.push_spec hp.2 v).1⟩
  | tmrCount | tmrControl =>
    obtain ⟨n, t, rfl, rfl⟩ := onTimer_eq_some hd
    trivial
  | bdData => exact onDrive_ok hpass hok hd hf fun n b _ hb => BlockDrive.dataWrite_driveOk hb v n
  | bdLba0 | bdLba1 | bdLba2 | bdLba3 => exact onDrive_ok hpass hok hd hf fun _ _ _ hb _ => hb
  | bdCmd => exact onDrive_ok hpass hok hd hf fun n b hgeo hb => BlockDrive.command_driveOk hgeo hb v n

theorem Slot.BusChange.ok {d' : Slot} (h : d.BusChange params f d') : d'.device.Ok params f := by
  cases h with
  | same => exact hok
  | read r h hh hf => exact readHandler_ok hpass hok hh hf
  | write v r h hh hf => exact writeHandler_ok hpass hok hh hf
  | store a v hc => exact busWrite_ok hc v hok

omit hpass

theorem Slot.HostChange.ok {d' : Slot} (h : d.HostChange params d') : d'.device.Ok params f := by
  cases h with
  | same => exact hok
  | store a v hc => exact hostWrite_ok hc _ v hok
  | puts p bs hp =>
    rw [hp] at hok
    exact ⟨(Ring.pushAll_spec hok.1 bs).1, hok.2⟩
  | gets p k hp hk =>
    rw [hp] at hok
    exact ⟨hok.1, (Ring.popMany_spec hok.2 hk).2.2⟩
  | setStore b m k v hb hm hk =>
    rw [hb] at hok
    obtain ⟨hphase, hbuf, hstore⟩ := hok
    refine ⟨hphase, hbuf, ?_⟩
    rw [BlockDrive.StoreOk, hm] at hstore
    exact ⟨hstore.1, hstore.2.write hk v⟩

theorem Device.ticks_ok (c : Nat) (last : Requests) : (Device.ticks c d.device last).1.Ok params f := by
  by_cases h : ∃ tm, d.device = .timer tm
  · obtain ⟨tm, htm⟩ := h
    rw [htm, Device.ticks_timer]
    trivial
  · rw [Device.ticks_of_not_timer fun tm htm => h ⟨tm, htm⟩]
    exact hok

include hpass

theorem Slot.Change.ok {d' : Slot} (h : d.Change params f d') : d'.device.Ok params f := by
  cases h with
  | bus h => exact h.ok hpass hok
  | host h => exact h.ok hok
  | tick c h => rw [h]; exact Device.ticks_ok hok c _

end

theorem State.Inv.passes {s : State} (h : s.Inv) {d : Slot} (hd : d ∈ s.devs) : d.device.desc.Passes :=
  (configError_eq_none_iff.1 h.config).1 d.descriptor (List.mem_map_of_mem hd)

/-- After a step every device holds what its rules allow. -/
theorem step_devices_ok {s t : State} (hinv : s.Inv) (h : step s = .next t) :
    ∀ d ∈ t.devs, d.device.Ok t.params t.dbg.fault.isSome := by
  obtain ⟨hparams, heach⟩ := step_devs_eachTo h
  obtain ⟨f, hf⟩ := step_fault_eq h
  intro d' hd'
  obtain ⟨d, hd, hchange⟩ := heach.exists_of_mem hd'
  rw [hparams]
  exact hchange.ok (hinv.passes hd) ((hinv.devices d hd).mono fun hs => by simp [hf, hs])

/-! ## The breakpoints and the tracepoints (rule R43) -/

/-- The part of the invariant about the debug controller's maps. -/
structure Debug.MapsOk (dbg : Debug) : Prop where
  breakpoints : addrMapOk dbg.breakpoints
  tracepoints : addrMapOk dbg.tracepoints
  arity : ∀ x ∈ dbg.tracepoints, x.2.arity = 1

theorem State.Inv.mapsOk {s : State} (h : s.Inv) : s.dbg.MapsOk :=
  ⟨h.breakpoints, h.tracepoints, h.arity⟩

theorem HostEffect.mapsOk {i : Instr} {s t : State} (h : HostEffect i s t) (hok : s.dbg.MapsOk) : t.dbg.MapsOk := by
  obtain ⟨hb, ht, ha⟩ := id hok
  cases h with
  | devices devs r hd h => rw [h]; exact hok
  | begun max hi hfault hcb hrun h => rw [h]; exact ⟨hb, ht, ha⟩
  | breakpoints bps hbps h => rw [h]; exact ⟨hbps hb, ht, ha⟩
  | tracepoint addr cb haddr harity h =>
    rw [h]
    refine ⟨hb, addrMapOk_mapSet haddr cb ht, fun x hx => ?_⟩
    obtain rfl | hx := mem_mapSet hx
    · exact harity
    · exact ha x hx

theorem State.finishIteration_mapsOk {s : State} (h : s.dbg.MapsOk) (call : Call) (pcS : Addr) :
    (s.finishIteration call pcS).dbg.MapsOk := by
  obtain ⟨r, hr⟩ := s.finishIteration_dbg call pcS
  rw [hr]
  exact ⟨h.breakpoints, h.tracepoints, h.arity⟩

theorem step_mapsOk {s t : State} (hok : s.dbg.MapsOk) (h : step s = .next t) : t.dbg.MapsOk := by
  obtain ⟨hb, htp, ha⟩ := id hok
  cases step_kind h with
  | stay ht => rw [ht]; exact hok
  | host i s' r htake hd hexec =>
    refine (exec_host_effect (decodeHost_port hd) (decodeHost_ne_clock hd) hexec).mapsOk ?_
    rw [htake.eq]
    exact hok
  | store s' n k v htake ht =>
    obtain ⟨devs, -, heq⟩ := s'.setStoreByte_eq n k v
    rw [ht, heq, htake.eq]
    exact hok
  | txn i call w rest hp hin hd hexec =>
    obtain ⟨x, hfin, -⟩ := exec_cpuPort_next (decodeTxn_port hd) hexec
    rw [hfin.dbg]
    exact ⟨hb, htp, ha⟩
  | ret call c pc halted rest hp hin ht =>
    obtain ⟨-, heq⟩ | ⟨-, heq⟩ := State.engineReturns_cases { s with engineIn := rest } call c pc halted
    all_goals
      rw [ht, heq]
      exact ⟨hb, htp, ha⟩
  | clock call c hp ht =>
    obtain ⟨cb, -, heq⟩ | ⟨-, heq⟩ := State.afterBatch_cases
      { s with devs := (clockAll c s.devs).1, returns := { s.returns with bus := some (clockAll c s.devs).2.busState } }
      call (clockAll c s.devs).2.busState
    · rw [ht, heq]; exact ⟨hb, htp, ha⟩
    · rw [ht, heq]
      refine State.finishIteration_mapsOk ?_ call _
      exact hok
  | register call pcS cb rest pc reply hp ht => rw [ht]; exact hok
  | callbackRet call pcS cb rest hp hin ht =>
    rw [ht]
    refine State.finishIteration_mapsOk ?_ call pcS
    exact ⟨hb, htp, ha⟩

/-! ## The operation in progress and the run state (rules R200, R201, R210) -/

/-- The part of the invariant about the operation in progress, the run state and the engine's INT level. -/
structure State.FlowOk (s : State) : Prop where
  phase : s.PhaseOk
  run : s.RunOk
  int : s.eng.intLevel ≠ some true

theorem State.Inv.flowOk {s : State} (h : s.Inv) : s.FlowOk :=
  ⟨h.phase, h.run, h.int⟩

namespace State

/-- It speaks of the debug state but for the maps, the engine and the phase. -/
theorem FlowOk.congr {s t : State} (h : s.FlowOk) {bps : List (Nat × Unit)} {tps : List (Nat × Callback)}
    (hdbg : t.dbg = { s.dbg with breakpoints := bps, tracepoints := tps }) (heng : t.eng = s.eng) (hphase : t.phase = s.phase) :
    t.FlowOk := by
  obtain ⟨hp, hr, hi⟩ := h
  refine ⟨?_, ?_, heng ▸ hi⟩
  · rw [PhaseOk, hdbg, hphase]
    exact hp
  · rw [RunOk, hdbg, heng, hphase]
    exact hr

theorem FlowOk.of_engine {s : State} (h : s.FlowOk) {call : Call} (hp : s.phase = .engine call) :
    s.dbg.inCallback = false ∧ s.dbg.runState = .running ∧ s.dbg.fault = none ∧ call.total ≤ s.dbg.cyclesTotal := by
  have hphase := h.phase
  rwa [PhaseOk, hp] at hphase

theorem FlowOk.of_clock {s : State} (h : s.FlowOk) {call : Call} {c : Nat} (hp : s.phase = .clock call c) :
    s.dbg.inCallback = false ∧ s.dbg.runState = .running ∧ s.dbg.fault = none ∧ call.total ≤ s.dbg.cyclesTotal ∧
      1 ≤ c ∧ c ≤ call.total := by
  have hphase := h.phase
  rwa [PhaseOk, hp] at hphase

theorem FlowOk.of_callback {s : State} (h : s.FlowOk) {call : Call} {pcS : Addr} {cb : Callback}
    (hp : s.phase = .callback call pcS cb) :
    s.dbg.inCallback = true ∧ s.dbg.runState = .running ∧ s.dbg.fault = none ∧ call.total ≤ s.dbg.cyclesTotal ∧
      cb.arity = 1 := by
  have hphase := h.phase
  rwa [PhaseOk, hp] at hphase

theorem runOk_of_running {s : State} (h : s.dbg.runState = .running) : s.RunOk :=
  ⟨fun hrun => by simp [h] at hrun, fun hrun => by simp [h] at hrun⟩

/-- A model fault in a call ends it: the machine is idle, and Running (log 12). -/
theorem flowOk_of_aborted {s : State} (hphase : s.phase = .idle) (hcb : s.dbg.inCallback = false)
    (hrun : s.dbg.runState = .running) (hint : s.eng.intLevel ≠ some true) : s.FlowOk :=
  ⟨by rw [PhaseOk, hphase]; exact hcb, runOk_of_running hrun, hint⟩

/-- The stop checks of a running call leave a state whose run state and phase agree. -/
theorem finishIteration_flowOk {s : State} {call : Call} (hcb : s.dbg.inCallback = false) (hrun : s.dbg.runState = .running)
    (hfault : s.dbg.fault = none) (htotal : call.total ≤ s.dbg.cyclesTotal) (hint : s.eng.intLevel ≠ some true) (pcS : Addr) :
    (s.finishIteration call pcS).FlowOk := by
  obtain ⟨hhalt, h⟩ | ⟨-, -, h⟩ | ⟨-, -, -, h⟩ | ⟨-, -, -, h⟩ := s.finishIteration_cases call pcS
  · rw [h]; exact ⟨hcb, ⟨fun hr => (by cases hr), fun _ => ⟨rfl, hhalt⟩⟩, hint⟩
  · rw [h]; exact ⟨hcb, ⟨fun hr => (by cases hr), fun hr => (by cases hr)⟩, hint⟩
  · rw [h]; exact flowOk_of_aborted rfl hcb rfl hint
  · rw [h]; exact ⟨⟨hcb, hrun, hfault, htotal⟩, runOk_of_running hrun, hint⟩

end State

theorem HostEffect.flowOk {i : Instr} {s t : State} (h : HostEffect i s t) (hok : s.FlowOk) : t.FlowOk := by
  cases h with
  | devices devs r hd h => rw [h]; exact hok.congr rfl rfl rfl
  | begun max hi hfault hcb hrun h =>
    rw [h]
    exact ⟨⟨hcb, rfl, hfault, Nat.zero_le _⟩, State.runOk_of_running rfl, hok.int⟩
  | breakpoints bps hbps h => rw [h]; exact hok.congr rfl rfl rfl
  | tracepoint addr cb haddr harity h => rw [h]; exact hok.congr rfl rfl rfl

theorem arity_of_mapGet {tps : List (Nat × Callback)} (h : ∀ x ∈ tps, x.2.arity = 1) {k : Nat} {cb : Callback}
    (hk : mapGet tps k = some cb) : cb.arity = 1 := by
  induction tps with
  | nil => cases hk
  | cons x tps ih =>
    simp only [mapGet] at hk
    split at hk
    · cases hk; exact h x List.mem_cons_self
    · exact ih (fun y hy => h y (List.mem_cons_of_mem x hy)) hk

/-- The bus state of a clock batch has INT 0 (rule R149). -/
theorem busInt_clockAll (c : Nat) (devs : List Slot) : busInt (clockAll c devs).2.busState = false :=
  (Requests.busState_bits _).2.trans (clockAll_int c devs)

theorem step_flowOk {s t : State} (hok : s.FlowOk) (hmaps : s.dbg.MapsOk) (h : step s = .next t) : t.FlowOk := by
  cases step_kind h with
  | stay ht => rw [ht]; exact hok
  | host i s' r htake hd hexec =>
    refine (exec_host_effect (decodeHost_port hd) (decodeHost_ne_clock hd) hexec).flowOk ?_
    rw [htake.eq]
    exact hok.congr rfl rfl rfl
  | store s' n k v htake ht =>
    obtain ⟨devs, -, heq⟩ := s'.setStoreByte_eq n k v
    rw [ht, heq, htake.eq]
    exact hok.congr rfl rfl rfl
  | txn i call w rest hp hin hd hexec =>
    obtain ⟨hcb, hrun, hfault, -⟩ := hok.of_engine hp
    obtain ⟨x, hfin, -⟩ := exec_cpuPort_next (decodeTxn_port hd) hexec
    obtain ⟨-, -, hdbg, heng, hphase, -⟩ := hfin
    cases hx : x.fault with
    | none =>
      exact hok.congr (bps := s.dbg.breakpoints) (tps := s.dbg.tracepoints) (by simp [hdbg, hx]) heng (by simp [hphase, hx])
    | some f =>
      exact State.flowOk_of_aborted (by simp [hphase, hx]) (by simpa [hdbg] using hcb) (by simpa [hdbg] using hrun)
        (by rw [heng]; exact hok.int)
  | ret call c pc halted rest hp hin ht =>
    obtain ⟨hcb, hrun, hfault, htotal⟩ := hok.of_engine hp
    obtain ⟨-, heq⟩ | ⟨hc, heq⟩ := State.engineReturns_cases { s with engineIn := rest } call c pc halted
    · rw [ht, heq]; exact State.flowOk_of_aborted rfl hcb hrun hok.int
    · rw [ht, heq]
      exact ⟨⟨hcb, hrun, hfault, Nat.add_le_add_right htotal c, hc, Nat.le_add_left c _⟩, State.runOk_of_running hrun, hok.int⟩
  | clock call c hp ht =>
    obtain ⟨hcb, hrun, hfault, htotal, -, -⟩ := hok.of_clock hp
    have hint : some (busInt (clockAll c s.devs).2.busState) ≠ some true := by simp [busInt_clockAll]
    obtain ⟨cb, htp, heq⟩ | ⟨-, heq⟩ := State.afterBatch_cases
      { s with devs := (clockAll c s.devs).1, returns := { s.returns with bus := some (clockAll c s.devs).2.busState } }
      call (clockAll c s.devs).2.busState
    · rw [ht, heq]
      exact ⟨⟨rfl, hrun, hfault, htotal, arity_of_mapGet hmaps.arity htp⟩, State.runOk_of_running hrun, hint⟩
    · rw [ht, heq]
      refine State.finishIteration_flowOk ?_ ?_ ?_ ?_ ?_ _
      exacts [hcb, hrun, hfault, htotal, hint]
  | register call pcS cb rest pc reply hp ht =>
    have hphase := hok.of_callback hp
    rw [ht]
    refine ⟨?_, State.runOk_of_running hphase.2.1, hok.int⟩
    rw [State.PhaseOk, State.reply_phase, hp]
    exact hphase
  | callbackRet call pcS cb rest hp hin ht =>
    obtain ⟨-, hrun, hfault, htotal, -⟩ := hok.of_callback hp
    rw [ht]
    refine State.finishIteration_flowOk ?_ ?_ ?_ ?_ ?_ pcS
    exacts [rfl, hrun, hfault, htotal, hok.int]

/-- Settles O49: the configuration stays, and each part of the invariant is kept by everything a step can do. -/
theorem everyStepKeepsTheInvariant : Obligations.EveryStepKeepsTheInvariant := by
  intro s t hinv h
  obtain ⟨hb, htp, harity⟩ := step_mapsOk hinv.mapsOk h
  obtain ⟨hphase, hrun, hint⟩ := step_flowOk hinv.flowOk hinv.mapsOk h
  exact {
    config := (step_devices_eq h).symm ▸ hinv.config
    devices := step_devices_ok hinv h
    breakpoints := hb, tracepoints := htp, arity := harity, phase := hphase, run := hrun, int := hint }

end Sys2Proof.Machine

/-! # Bus dispatcher: memory and I/O transactions, and one device's row -/

namespace Sys2Proof.Machine

/-! ## Memory transactions (rules R140, R142) -/

/-- Settles O1. -/
theorem memRdAnswersFirstCoveringRegion : Obligations.MemRdAnswersFirstCoveringRegion := fun s a =>
  ⟨_, _, exec_memRd a s, rfl, fun _ _ hfirst => hfirst.memRead_eq, fun hfree => hfree.memRead_eq, fun _ => rfl⟩

theorem State.withWrite_eq_self {s : State} {a : Addr} {f : Device → Device} (h : writeClaimant s.devs a f = s.devs) :
    s.withWrite a f = s := by
  rw [withWrite, h]

/-- Settles O2: the write reaches the claimant, and its variant decides. -/
theorem memWrStoresOnlyInFirstCoveringRam : Obligations.MemWrStoresOnlyInFirstCoveringRam := by
  intro s a v
  refine ⟨_, exec_memWr a v s, fun i n r hd hfirst => ⟨?_, ?_, fun b hb => ?_⟩, fun i n r hd hfirst => ?_, fun hfree => ?_⟩
  · rw [State.withWrite, writeClaimant_first hfirst hd]
    rfl
  · exact (memRead_busWrite_ram hd hfirst v a).trans (if_pos rfl)
  · exact (memRead_busWrite_ram hd hfirst v b).trans (if_neg hb)
  · rw [State.withWrite_eq_self (writeClaimant_busWrite_rom hd hfirst v)]
    rfl
  · rw [State.withWrite_eq_self (writeClaimant_unclaimed hfree _)]
    rfl

/-! ## The host's memory access (rules R121, R150, R152) -/

theorem exec_readMemory (addr : Nat) (s : State) : exec (.readMemory addr) s =
    .next (if 0xFFFF < addr then s.refuse (.badValue [addr]) else s.reply (.byte (memRead s.devs (hostAddr addr)))) := by
  change execReadMemory addr s = _
  unfold execReadMemory
  rw [badAddrs_single]
  by_cases h : 0xFFFF < addr <;> simp [h]

/-- Settles O4. -/
theorem readMemoryIsTheBusRead : Obligations.ReadMemoryIsTheBusRead := by
  intro s addr
  rw [exec_readMemory]
  refine ⟨fun h => ⟨_, _, exec_memRd _ s, rfl, ?_⟩, fun h => ?_⟩
  · rw [if_neg (by omega)]
    rfl
  · rw [if_pos h]
    rfl

theorem exec_writeMemory {s : State} (h : s.Unfaulted) (addr value : Nat) :
    exec (.writeMemory addr value) s = .next (s.hostWrite addr value) :=
  congrArg Host.Outcome.next (State.unlessFaulted_of_none h)

theorem State.hostWrite_of_le {s : State} {addr value : Nat} (ha : addr ≤ 0xFFFF) (hv : value ≤ 255) :
    s.hostWrite addr value = (s.withWrite (hostAddr addr)
      (Device.hostWrite s.params.hostWriteRom (hostAddr addr) (hostByte value))).reply .done := by
  unfold hostWrite
  rw [badAddrs_single, badBytes_single, if_neg (by omega), if_neg (by omega)]
  rfl

theorem State.hostWrite_of_bad {s : State} {addr value : Nat} (h : ¬ (addr ≤ 0xFFFF ∧ value ≤ 255)) :
    ∃ args, s.hostWrite addr value = s.refuse (.badValue args) := by
  unfold hostWrite
  rw [badAddrs_single, badBytes_single]
  by_cases ha : 0xFFFF < addr
  · rw [if_pos ha]
    exact ⟨_, rfl⟩
  · rw [if_neg ha, if_pos (by omega)]
    exact ⟨_, rfl⟩

/-- The host stores into a RAM, and into a ROM under HOST_WRITE_ROM = STORE (rule R152). -/
theorem Device.region_hostWrite {d : Device} {r : Region} {rom : HostWriteRom} (hr : d.region = some r)
    (h : d = .ram r ∨ rom = .store) (a : Addr) (v : Byte) : (d.hostWrite rom a v).region = some (r.put a v) := by
  cases d with
  | ram q => cases hr; rfl
  | rom q =>
    obtain h | rfl := h
    · cases h
    · cases hr; rfl
  | serial | timer | drive => cases hr

/-- Every memory read after a host write that its claimant stores. -/
theorem memRead_hostWrite {devs : List Slot} {i : Nat} {n : Name} {d : Device} {r : Region} {a : Addr} {rom : HostWriteRom}
    (hd : devs[i]? = some { name := n, device := d }) (h : FirstRegion devs a i r) (hstores : d = .ram r ∨ rom = .store)
    (v : Byte) (b : Addr) :
    memRead (writeClaimant devs a (Device.hostWrite rom a v)) b = if b = a then v else memRead devs b := by
  have hr : d.region = some r := by simpa [regionAt, hd] using h.1
  rw [writeClaimant_first h hd]
  exact memRead_put h hd (Device.region_hostWrite hr hstores a v) b

/-- A host write that a ROM claims changes no device under HOST_WRITE_ROM = IGNORE. -/
theorem writeClaimant_hostWrite_rom {devs : List Slot} {i : Nat} {n : Name} {r : Region} {a : Addr} {rom : HostWriteRom}
    (hd : devs[i]? = some { name := n, device := .rom r }) (h : FirstRegion devs a i r) (hrom : rom = .ignore) (v : Byte) :
    writeClaimant devs a (Device.hostWrite rom a v) = devs := by
  rw [writeClaimant_first h hd, hrom]
  exact set_getElem?_self hd

/-- A host write changes no device but the claimant. -/
theorem writeClaimant_others {devs : List Slot} {i : Nat} {r : Region} {d : Slot} {a : Addr} (h : FirstRegion devs a i r)
    (hd : devs[i]? = some d) (f : Device → Device) {j : Nat} (hj : j ≠ i) : (writeClaimant devs a f)[j]? = devs[j]? := by
  rw [writeClaimant_first h hd]
  exact List.getElem?_set_ne hj.symm

/-- Settles O5: the write reaches the claimant; its variant and HOST_WRITE_ROM decide. -/
theorem writeMemoryStoresInFirstCoveringRegion : Obligations.WriteMemoryStoresInFirstCoveringRegion := by
  intro s addr value hs
  rw [exec_writeMemory hs]
  refine ⟨fun ha hv => ⟨_, congrArg _ (State.hostWrite_of_le ha hv), fun i n d r hd hfirst hstores => ?_,
    fun i n r hd hfirst hrom => ?_, fun hfree => ?_⟩, fun hbad => ?_⟩
  · exact ⟨rfl, fun j hj => writeClaimant_others hfirst hd _ hj, (memRead_hostWrite hd hfirst hstores _ _).trans (if_pos rfl),
      fun b hb => (memRead_hostWrite hd hfirst hstores _ b).trans (if_neg hb)⟩
  · exact congrArg (State.reply · .done) (State.withWrite_eq_self (writeClaimant_hostWrite_rom hd hfirst hrom _))
  · exact congrArg (State.reply · .done) (State.withWrite_eq_self (writeClaimant_unclaimed hfree _))
  · obtain ⟨args, hargs⟩ := State.hostWrite_of_bad (s := s) hbad
    exact ⟨args, congrArg _ hargs⟩

/-! ## I/O transactions (rules R144, R146) -/

/-- Settles O6. -/
theorem ioRdReachesEveryRecognizingDevice : Obligations.IoRdReachesEveryRecognizingDevice := by
  intro s p hnone
  have hall := offerAll_of_no_fault hnone
  refine ⟨⟨_, exec_ioRd p s, ?_, fun b => ?_⟩, fun d _ hd => ?_⟩
  · rw [hall]
    exact State.finishRead_of_value rfl
  · rw [State.byteAt, State.finishRead_devs]
    exact memRead_congr (offerAll_map_region (Slot.offerRead_keeps s.params p) s.devs) b
  · rw [Slot.offerRead_of_unrecognized hd]
    exact ⟨rfl, rfl⟩

/-- Settles O7. -/
theorem ioWrReachesEveryRecognizingDevice : Obligations.IoWrReachesEveryRecognizingDevice := by
  intro s p v hnone
  have hall := offerAll_of_no_fault hnone
  refine ⟨⟨_, exec_ioWr p v s, ?_, fun b => ?_⟩, fun d _ hd => ?_⟩
  · rw [hall]
    exact State.finishWrite_of_done rfl
  · rw [State.byteAt, State.finishWrite_devs]
    exact memRead_congr (offerAll_map_region (Slot.offerWrite_keeps s.params p v) s.devs) b
  · rw [Slot.offerWrite_of_unrecognized hd]
    rfl

/-! ## A device that is alone at a port (rule R110; log 8) -/

/-- The device list splits where the configuration's list does. -/
theorem State.devs_split {s : State} {pre post : List Descriptor} {d : Descriptor} (h : s.devices = pre ++ d :: post) :
    ∃ xs x ys, s.devs = xs ++ x :: ys ∧ xs.map Slot.descriptor = pre ∧ x.descriptor = d ∧ ys.map Slot.descriptor = post := by
  obtain ⟨xs, rest, hdevs, hxs, hrest⟩ := List.map_eq_append_iff.1 h
  obtain ⟨x, ys, rfl, hx, hys⟩ := List.map_eq_cons_iff.1 hrest
  exact ⟨xs, x, ys, hdevs, hxs, hx, hys⟩

/-- An access in which only device `i` takes part is that device's own. -/
theorem offerAll_eq_single {offer : Slot → Handled Slot} {xs ys : List Slot} {x : Slot}
    (hxs : ∀ d ∈ xs, offer d = Handled.absent d) (hys : ∀ d ∈ ys, offer d = Handled.absent d) :
    let single := (offer x).map fun d' => (xs ++ x :: ys).set xs.length d'
    (offerAll offer (xs ++ x :: ys)).dev = single.dev ∧ (offerAll offer (xs ++ x :: ys)).fault = single.fault ∧
      ((offerAll offer (xs ++ x :: ys)).fault = none → (offerAll offer (xs ++ x :: ys)).value = single.value) := by
  obtain ⟨hdev, hfault, hvalue⟩ := offerAll_sole hxs hys (d := x)
  refine ⟨?_, hfault, fun hnone => hvalue (hfault ▸ hnone)⟩
  rw [hdev]
  simp [Handled.map]

/-- The end of a read depends on the value only when there is no fault. -/
theorem State.finishRead_congr {s : State} {h h' : Handled (List Slot)} (hdev : h.dev = h'.dev) (hfault : h.fault = h'.fault)
    (hvalue : h.fault = none → h.value = h'.value) : s.finishRead h = s.finishRead h' := by
  cases hf : h.fault with
  | none => rw [finishRead_of_value hf, finishRead_of_value (hfault ▸ hf), hdev, hvalue hf]
  | some f => rw [finishRead_of_fault hf, finishRead_of_fault (hfault ▸ hf), hdev]

theorem State.finishWrite_congr {s : State} {h h' : Handled (List Slot)} (hdev : h.dev = h'.dev) (hfault : h.fault = h'.fault) :
    s.finishWrite h = s.finishWrite h' := by
  rw [finishWrite, finishWrite, hdev, hfault]

theorem exec_readRow_of_sole {s : State} {p : Port} {i : Nat} {r : ReadReg} (h : soleReader s.devices p = some (i, r)) :
    exec (readRow i r) s = exec (.ioRd p) s := by
  obtain ⟨pre, d, post, hdevices, hi, hreg, hpre, hpost⟩ := readersFrom_eq_singleton (sole_eq h)
  obtain ⟨xs, x, ys, hdevs, rfl, rfl, rfl⟩ := State.devs_split hdevices
  obtain rfl : xs.length = i := by simpa using hi
  have hxs : ∀ y ∈ xs, y.offerRead s.params p = Handled.absent y := fun y hy =>
    Slot.offerRead_of_unrecognized (hpre y.descriptor (List.mem_map_of_mem hy)) _
  have hys : ∀ y ∈ ys, y.offerRead s.params p = Handled.absent y := fun y hy =>
    Slot.offerRead_of_unrecognized (hpost y.descriptor (List.mem_map_of_mem hy)) _
  obtain ⟨hh, hhandler⟩ := Slot.readHandler_isSome (params := s.params) (d := x) hreg
  have hoffer : x.offerRead s.params p = hh := by
    have hreg' : x.device.desc.readReg p = some r := hreg
    simp [Slot.offerRead, hreg', hhandler]
  obtain ⟨hdev, hfault, hvalue⟩ := offerAll_eq_single (offer := Slot.offerRead s.params p) (x := x) hxs hys
  rw [exec_readRow, State.readDevice_eq (by simp [hdevs]) hhandler, exec_ioRd, hdevs]
  rw [hoffer] at hdev hfault hvalue
  rw [State.finishRead_congr hdev hfault hvalue]

theorem exec_writeRow_of_sole {s : State} {p : Port} {i : Nat} {r : WriteReg} (h : soleWriter s.devices p = some (i, r))
    (v : Byte) : exec (writeRow i v r) s = exec (.ioWr p v) s := by
  obtain ⟨pre, d, post, hdevices, hi, hreg, hpre, hpost⟩ := writersFrom_eq_singleton (sole_eq h)
  obtain ⟨xs, x, ys, hdevs, rfl, rfl, rfl⟩ := State.devs_split hdevices
  obtain rfl : xs.length = i := by simpa using hi
  have hxs : ∀ y ∈ xs, y.offerWrite s.params p v = Handled.absent y := fun y hy =>
    Slot.offerWrite_of_unrecognized (hpre y.descriptor (List.mem_map_of_mem hy)) _ v
  have hys : ∀ y ∈ ys, y.offerWrite s.params p v = Handled.absent y := fun y hy =>
    Slot.offerWrite_of_unrecognized (hpost y.descriptor (List.mem_map_of_mem hy)) _ v
  obtain ⟨hh, hhandler⟩ := Slot.writeHandler_isSome (params := s.params) (v := v) (d := x) hreg
  have hoffer : x.offerWrite s.params p v = hh := by
    have hreg' : x.device.desc.writeReg p = some r := hreg
    simp [Slot.offerWrite, hreg', hhandler]
  obtain ⟨hdev, hfault, -⟩ := offerAll_eq_single (offer := Slot.offerWrite s.params p v) (x := x) hxs hys
  rw [exec_writeRow, State.writeDevice_eq (by simp [hdevs]) hhandler, exec_ioWr, hdevs]
  rw [hoffer] at hdev hfault
  rw [State.finishWrite_congr hdev hfault]

/-- Settles O9: the other devices are ABSENT, so the list's access is the one handler's. -/
theorem soleDeviceRowIsTheTransaction : Obligations.SoleDeviceRowIsTheTransaction :=
  ⟨fun _ _ _ _ h => exec_readRow_of_sole h, fun _ _ v _ _ h => exec_writeRow_of_sole h v⟩

/-! ## A row on the index of no such device (log 20) -/

theorem State.readDevice_absent {s : State} {i : Nat} {f : Slot → Option (Handled Slot)}
    (h : ∀ d, s.devs[i]? = some d → f d = none) : s.readDevice i f = .fault (.noSuchDevice i) := by
  unfold readDevice
  cases hd : s.devs[i]? with
  | none => rfl
  | some d => simp [h d hd]

theorem State.writeDevice_absent {s : State} {i : Nat} {f : Slot → Option (Handled Slot)}
    (h : ∀ d, s.devs[i]? = some d → f d = none) : s.writeDevice i f = .fault (.noSuchDevice i) := by
  unfold writeDevice
  cases hd : s.devs[i]? with
  | none => rfl
  | some d => simp [h d hd]

theorem onSerial_eq_none {devs : List Slot} {i : Nat} (h : serialAt devs i = none) (f : SerialPort → Handled SerialPort) :
    ∀ d, devs[i]? = some d → d.onSerial f = none := by
  rintro ⟨n, x⟩ hd
  cases x with
  | serial p => exact absurd (serialAt_eq_some_iff.2 ⟨n, hd⟩) (by simp [h])
  | rom | ram | timer | drive => rfl

theorem onTimer_eq_none {devs : List Slot} {i : Nat} (h : timerAt devs i = none) (f : Timer → Handled Timer) :
    ∀ d, devs[i]? = some d → d.onTimer f = none := by
  rintro ⟨n, x⟩ hd
  cases x with
  | timer t => exact absurd (timerAt_eq_some_iff.2 ⟨n, hd⟩) (by simp [h])
  | rom | ram | serial | drive => rfl

theorem onDrive_eq_none {devs : List Slot} {i : Nat} (h : driveAt devs i = none) (f : Name → BlockDrive → Handled BlockDrive) :
    ∀ d, devs[i]? = some d → d.onDrive f = none := by
  rintro ⟨n, x⟩ hd
  cases x with
  | drive b => exact absurd (driveAt_eq_some_iff.2 ⟨n, hd⟩) (by simp [h])
  | rom | ram | serial | timer => rfl

/-- Settles O10: no handler of the row's variant runs on what stands at the index. -/
theorem rowOfAnAbsentDeviceStops : Obligations.RowOfAnAbsentDeviceStops := by
  intro s i v
  simp only [List.forall_mem_cons, List.not_mem_nil, false_implies, implies_true, and_true]
  refine ⟨fun h => ?_, fun h => ?_, fun h => ?_⟩
  · exact ⟨State.readDevice_absent (onSerial_eq_none h _), State.readDevice_absent (onSerial_eq_none h _),
      State.writeDevice_absent (onSerial_eq_none h _)⟩
  · exact ⟨State.writeDevice_absent (onTimer_eq_none h _), State.writeDevice_absent (onTimer_eq_none h _)⟩
  · have hwrite := fun f => State.writeDevice_absent (onDrive_eq_none h f)
    have hread := fun f => State.readDevice_absent (onDrive_eq_none h f)
    exact ⟨hread _, hwrite _, hwrite _, hwrite _, hwrite _, hwrite _, hread _, hwrite _, hwrite _, hwrite _⟩

end Sys2Proof.Machine

/-! # Interval timer and serial port: the registers, the ticks, and the host's puts and gets -/

namespace Sys2Proof.Machine

/-! ## A row whose handler raises no fault, or raises one -/

section

variable {s : State} {i : Nat} {f : Slot → Option (Handled Slot)} {d : Slot} {x : Handled Slot} (hd : s.devs[i]? = some d)
  (hx : f d = some x)

include hd hx

theorem State.readDevice_of_value (hf : x.fault = none) : s.readDevice i f =
    .next { s with devs := s.devs.set i x.dev, returns := { s.returns with cpu := some (x.value.getD 0#8) } } := by
  rw [readDevice_eq hd hx, finishRead_of_value hf]
  rfl

theorem State.writeDevice_of_done (hf : x.fault = none) : s.writeDevice i f =
    .next { s with devs := s.devs.set i x.dev, returns := { s.returns with cpu := none } } := by
  rw [writeDevice_eq hd hx, finishWrite_of_done hf]
  rfl

theorem State.readDevice_of_fault {e : ModelFault} (hf : x.fault = some e) : s.readDevice i f =
    .next { s with
      devs := s.devs.set i x.dev, dbg := { s.dbg with fault := s.dbg.fault.or (some e) }, phase := .idle,
      returns := { s.returns with cpu := none, host := some .aborted } } := by
  rw [readDevice_eq hd hx, finishRead_of_fault hf]
  rfl

theorem State.writeDevice_of_fault {e : ModelFault} (hf : x.fault = some e) : s.writeDevice i f =
    .next { s with
      devs := s.devs.set i x.dev, dbg := { s.dbg with fault := s.dbg.fault.or (some e) }, phase := .idle,
      returns := { s.returns with cpu := none, host := some .aborted } } := by
  rw [writeDevice_eq hd hx, finishWrite_of_fault hf]
  rfl

/-- A readable register whose handler raises no fault answers, and only the device's registers change. -/
theorem State.readDevice_answers (hf : x.fault = none) (hk : x.Keeps d) :
    ∃ t, s.readDevice i f = .next t ∧ SameOutsideDevice i s t ∧ t.returns.cpu = some (x.value.getD 0#8) ∧
      t.devs[i]? = some x.dev :=
  ⟨_, readDevice_of_value hd hx hf, .of_set hd hk.1 hk.2, rfl, List.getElem?_set_self (List.getElem?_eq_some_iff.1 hd).1⟩

/-- A writable register whose handler raises no fault answers nothing, and only the device's registers change. -/
theorem State.writeDevice_answers (hf : x.fault = none) (hk : x.Keeps d) :
    ∃ t, s.writeDevice i f = .next t ∧ SameOutsideDevice i s t ∧ t.returns.cpu = none ∧ t.devs[i]? = some x.dev :=
  ⟨_, writeDevice_of_done hd hx hf, .of_set hd hk.1 hk.2, rfl, List.getElem?_set_self (List.getElem?_eq_some_iff.1 hd).1⟩

end

/-! ## The timer's registers (rules R240, R241) -/

theorem runningOf_eq (v : Byte) : runningOf v = decide (v ≠ 0#8) := by
  rw [Bool.eq_iff_iff]
  simp [runningOf]

/-- Settles O13. -/
theorem timerRegisterWrites : Obligations.TimerRegisterWrites := by
  intro s dev n tm v hd
  rw [← runningOf_eq]
  exact ⟨State.writeDevice_answers hd (f := Slot.onTimer (Timer.writeCount v)) rfl rfl ⟨rfl, rfl⟩,
    State.writeDevice_answers hd (f := Slot.onTimer (Timer.writeControl v)) rfl rfl ⟨rfl, rfl⟩⟩

/-- What a write of a timer's register does to the timers. -/
theorem timerAt_writeDevice {s : State} {dev : Nat} {tm : Timer} (h : timerAt s.devs dev = some tm) {g : Timer → Handled Timer}
    (hg : (g tm).fault = none) :
    ∃ t, s.writeDevice dev (Slot.onTimer g) = .next t ∧
      ∀ j, timerAt t.devs j = if dev = j then some (g tm).dev else timerAt s.devs j := by
  obtain ⟨n, hd⟩ := timerAt_eq_some_iff.1 h
  exact ⟨_, State.writeDevice_of_done hd rfl hg, fun j => timerAt_set hd⟩

/-! ## The clock batch (rules R148, R246) -/

theorem exec_clock (c : Nat) (s : State) : exec (.clock c) s = .next { s with
    devs := (clockAll c s.devs).1, returns := { s.returns with bus := some (clockAll c s.devs).2.busState } } := rfl

theorem getElem?_clockAll (c : Nat) (devs : List Slot) (i : Nat) : (clockAll c devs).1[i]? =
    devs[i]?.map fun d => { d with device := (Device.ticks c d.device Requests.none).1 } := by
  rw [clockAll_fst, List.getElem?_map]

theorem getElem?_clockAll_of_not_timer {devs : List Slot} {i : Nat} (h : timerAt devs i = none) (c : Nat) :
    (clockAll c devs).1[i]? = devs[i]? := by
  rw [getElem?_clockAll]
  cases hd : devs[i]? with
  | none => rfl
  | some d =>
    obtain ⟨n, x⟩ := d
    have hx : ∀ tm, x ≠ .timer tm := by
      rintro tm rfl
      simp [timerAt, hd] at h
    simp [Device.ticks_of_not_timer hx]

/-- A clock batch takes every timer `c` ticks on. -/
theorem timerAt_clockAll (c : Nat) (devs : List Slot) (i : Nat) :
    timerAt (clockAll c devs).1 i = (timerAt devs i).map fun tm => tm.after c := by
  cases h : timerAt devs i with
  | none =>
    unfold timerAt at h ⊢
    rwa [getElem?_clockAll_of_not_timer h]
  | some tm =>
    obtain ⟨n, hn⟩ := timerAt_eq_some_iff.1 h
    exact timerAt_eq_some_iff.2 ⟨n, by rw [getElem?_clockAll, hn]; simp [Device.ticks_timer]⟩

/-- The NMI bit of the bus state a clock batch answers (rule R246). -/
theorem busState_nmi_iff (c : Nat) (devs : List Slot) : (clockAll c devs).2.busState.getLsbD 0 = true ↔
    ∃ i tm, timerAt devs i = some tm ∧ tm.running = true ∧ tm.count.toNat + 1 ≤ c := by
  rw [(Requests.busState_bits _).1, clockAll_nmi_iff]

/-- Settles O11. -/
theorem clockBatchCountsTimersDown : Obligations.ClockBatchCountsTimersDown := by
  intro s c
  refine ⟨_, _, exec_clock c s, rfl, by simp [clockAll_fst], fun i n tm hi => ?_,
    fun i hi => getElem?_clockAll_of_not_timer hi c, busState_nmi_iff c s.devs, busInt_clockAll c s.devs,
    memRead_congr (clockAll_region c s.devs)⟩
  simp [getElem?_clockAll, hi, Device.ticks_timer, Timer.after]

/-! ## NMI on tick N + 1 (rule R248) -/

theorem runOps_pair {i j : Instr} {s t u : State} (hi : exec i s = .next t) (hj : exec j t = .next u) :
    ∃ bytes, runOps [i, j] s = some (bytes, u) := by
  simp [runOps, hi, hj]

/-- The count and the control byte written, in either order, load and start the timer, and reach no other one. -/
theorem runOps_load_and_start {s : State} {dev : Nat} {tm : Timer} {N v : Byte} {order : List Instr}
    (h : timerAt s.devs dev = some tm) (hv : v ≠ 0#8)
    (horder : order = [.tmrCount dev N, .tmrControl dev v] ∨ order = [.tmrControl dev v, .tmrCount dev N]) :
    ∃ bytes t, runOps order s = some (bytes, t) ∧
      ∀ j, timerAt t.devs j = if dev = j then some { tm with count := N, running := true } else timerAt s.devs j := by
  have hrun : runningOf v = true := by simp [runningOf_eq, hv]
  have finish : ∀ {i j : Instr} {g g' : Timer → Handled Timer}, (∀ s, exec i s = s.writeDevice dev (Slot.onTimer g)) →
      (∀ s, exec j s = s.writeDevice dev (Slot.onTimer g')) → (g tm).fault = none → (g' (g tm).dev).fault = none →
      (g' (g tm).dev).dev = { tm with count := N, running := true } →
      ∃ bytes t, runOps [i, j] s = some (bytes, t) ∧
        ∀ k, timerAt t.devs k = if dev = k then some { tm with count := N, running := true } else timerAt s.devs k := by
    intro i j g g' hi hj hg hg' hdev
    obtain ⟨t, ht, htimers⟩ := timerAt_writeDevice h hg
    obtain ⟨u, hu, hutimers⟩ := timerAt_writeDevice (s := t) ((htimers dev).trans (if_pos rfl)) hg'
    obtain ⟨bytes, hbytes⟩ := runOps_pair ((hi s).trans ht) ((hj t).trans hu)
    refine ⟨bytes, u, hbytes, fun k => ?_⟩
    rw [hutimers, htimers, hdev]
    split <;> rfl
  obtain rfl | rfl := horder
  · exact finish (g := Timer.writeCount N) (g' := Timer.writeControl v) (fun _ => rfl) (fun _ => rfl) rfl rfl
      (by simp [Timer.writeCount, Timer.writeControl, hrun])
  · exact finish (g := Timer.writeControl v) (g' := Timer.writeCount N) (fun _ => rfl) (fun _ => rfl) rfl rfl
      (by simp [Timer.writeCount, Timer.writeControl, hrun])

/-- When one timer alone runs, a batch requests NMI exactly when it is longer than that timer's count. -/
theorem busState_nmi_iff_of_alone {devs : List Slot} {dev : Nat} {tm : Timer} (h : timerAt devs dev = some tm)
    (hrun : tm.running = true) (halone : ∀ i other, i ≠ dev → timerAt devs i = some other → other.running = false) (c : Nat) :
    (clockAll c devs).2.busState.getLsbD 0 = true ↔ tm.count.toNat + 1 ≤ c := by
  rw [busState_nmi_iff]
  constructor
  · rintro ⟨i, other, hi, hrunning, hc⟩
    by_cases hdev : i = dev
    · subst hdev
      obtain rfl := Option.some.inj (h.symm.trans hi)
      exact hc
    · simp [halone i other hdev hi] at hrunning
  · exact fun hc => ⟨dev, tm, h, hrun, hc⟩

/-- Settles O14: the loaded timer is the only one that runs, so a batch's NMI bit compares its length with `N`; after `N` ticks
the count is 0 and the next tick requests. -/
theorem timerRequestsNmiOnTickNPlusOne : Obligations.TimerRequestsNmiOnTickNPlusOne := by
  intro s dev tm N v order hdev hv hothers horder
  obtain ⟨bytes, t, hops, htimers⟩ := runOps_load_and_start hdev hv horder
  have hloaded : timerAt t.devs dev = some { tm with count := N, running := true } := (htimers dev).trans (if_pos rfl)
  have halone : ∀ i other, i ≠ dev → timerAt t.devs i = some other → other.running = false := fun i other hi ho =>
    hothers i other hi (by rwa [htimers, if_neg hi.symm] at ho)
  have hnmi := busState_nmi_iff_of_alone hloaded rfl halone
  refine ⟨bytes, t, hops, fun c hc => ⟨_, _, exec_clock c t, rfl, Bool.eq_false_iff.2 fun h => ?_⟩,
    ⟨_, _, exec_clock _ t, rfl, (hnmi _).2 le_rfl⟩, _, _, _, exec_clock _ t, exec_clock 1 _, rfl, ?_⟩
  · have hlate := (hnmi c).1 h
    simp only at hlate
    omega
  · have hzero := (timerAt_clockAll N.toNat t.devs dev).trans (congrArg _ hloaded)
    exact (busState_nmi_iff 1 _).2 ⟨dev, _, hzero, rfl, by simp [Timer.after]⟩

/-! ## The serial port's registers (rules R170 to R174) -/

/-- SER_IN answers the oldest unread byte and removes it, or answers 0 (rule R170). -/
theorem SerialPort.serIn_spec {pol : SerialOverflow} {p : SerialPort} (h : p.toDevice.Ok pol p.desc.capacity) :
    ∃ r, p.serIn pol =
        ⟨{ p with toDevice := r }, some ((p.toDevice.unread pol p.desc.capacity).headD 0#8), none⟩ ∧
      r.unread pol p.desc.capacity = (p.toDevice.unread pol p.desc.capacity).tail ∧
      (p.toDevice.unread pol p.desc.capacity = [] → r = p.toDevice) := by
  cases hq : p.toDevice.unread pol p.desc.capacity with
  | nil => exact ⟨p.toDevice, by rw [serIn, if_pos (Ring.empty_iff.2 hq)]; rfl, hq, fun _ => rfl⟩
  | cons b rest =>
    obtain ⟨hb, hrest, -⟩ := Ring.pop_spec h hq
    have hne : ¬ p.toDevice.empty pol p.desc.capacity = true := fun he => by simp [Ring.empty_iff.1 he] at hq
    exact ⟨_, by rw [serIn, if_neg hne, hb]; rfl, hrest, fun h => by cases h⟩

/-- Settles O17. -/
theorem serInPopsOldestOrAnswersZero : Obligations.SerInPopsOldestOrAnswersZero := by
  intro s dev n p hd hok
  obtain ⟨r, hser, htail, hempty⟩ := SerialPort.serIn_spec hok
  have hhandler : Slot.onSerial (SerialPort.serIn s.params.overflow) { name := n, device := .serial p } =
      some (Handled.map (fun p' => { name := n, device := .serial p' }) (p.serIn s.params.overflow)) := rfl
  rw [hser] at hhandler
  obtain ⟨t, ht, hsame, hcpu, hdev⟩ := State.readDevice_answers hd hhandler rfl ⟨rfl, rfl⟩
  exact ⟨t, r, ht, hsame, hdev, hcpu, htail, hempty⟩

/-- Settles O18. -/
theorem serReadyTellsWhetherAByteWaits : Obligations.SerReadyTellsWhetherAByteWaits := by
  intro s dev p hp
  obtain ⟨n, hd⟩ := serialAt_eq_some_iff.1 hp
  have hread := State.readDevice_of_value hd (f := Slot.onSerial (SerialPort.serReady s.params.overflow)) rfl rfl
  refine hread.trans ?_
  simp only [Handled.map, SerialPort.serReady, set_getElem?_self hd, Option.getD_some, Ring.empty_iff]

/-- Settles O19. -/
theorem serOutPushesTowardsTheHost : Obligations.SerOutPushesTowardsTheHost := by
  intro s dev n p v hd hok
  obtain ⟨t, ht, hsame, hcpu, hdev⟩ := State.writeDevice_answers hd
    (f := Slot.onSerial (SerialPort.serOut s.params.overflow v)) rfl rfl ⟨rfl, rfl⟩
  exact ⟨t, _, ht, hsame, hcpu, hdev, (Ring.push_spec hok v).2⟩

/-! ## The host's puts and gets (rules R121, R180, R182) -/

/-- The device list after the host replaced the registers of one device, memory and configuration being as before. -/
theorem putDevice_frame {devs : List Slot} {i : Nat} {d : Slot} {x : Device} (hd : devs[i]? = some d)
    (hdesc : x.desc = d.device.desc) (hregion : x.region = d.device.region) :
    (∀ j, j ≠ i → (putDevice devs i x)[j]? = devs[j]?) ∧ (putDevice devs i x)[i]? = some { d with device := x } ∧
      (putDevice devs i x).map Slot.descriptor = devs.map Slot.descriptor ∧
      ∀ a, memRead (putDevice devs i x) a = memRead devs a := by
  rw [putDevice_eq_set hd]
  exact ⟨fun j hj => List.getElem?_set_ne hj.symm, List.getElem?_set_self (List.getElem?_eq_some_iff.1 hd).1,
    map_descriptor_set hd (by simp [Slot.descriptor, hdesc]), memRead_congr (map_region_set hd hregion)⟩

/-- The device list after the host replaced the buffers of a serial port. -/
theorem putSerial_frame {devs : List Slot} {i : Nat} {p q : SerialPort} (hp : serialAt devs i = some p) (hdesc : q.desc = p.desc) :
    (∀ j, j ≠ i → (putDevice devs i (.serial q))[j]? = devs[j]?) ∧ serialAt (putDevice devs i (.serial q)) i = some q ∧
      (putDevice devs i (.serial q)).map Slot.descriptor = devs.map Slot.descriptor ∧
      ∀ a, memRead (putDevice devs i (.serial q)) a = memRead devs a := by
  obtain ⟨n, hd⟩ := serialAt_eq_some_iff.1 hp
  obtain ⟨hothers, hself, hdevices, hmem⟩ := putDevice_frame (x := .serial q) hd (by simp [Device.desc, hdesc]) rfl
  exact ⟨hothers, serialAt_eq_some_iff.2 ⟨n, hself⟩, hdevices, hmem⟩

theorem exec_serialPuts {s : State} (h : s.Unfaulted) (name : Name) (bytes : List Nat) :
    exec (.serialPuts name bytes) s = .next (s.puts name bytes) :=
  congrArg Host.Outcome.next (State.unlessFaulted_of_none h)

theorem exec_serialGets {s : State} (h : s.Unfaulted) (name : Name) (count : Option Nat) :
    exec (.serialGets name count) s = .next (s.gets name count) :=
  congrArg Host.Outcome.next (State.unlessFaulted_of_none h)

theorem badBytes_eq_nil_iff {bytes : List Nat} : badBytes bytes = [] ↔ ∀ b ∈ bytes, b ≤ 255 := by
  simp [badBytes]

/-- Bytes presented as numbers are all in range, and are read back as themselves. -/
theorem badBytes_map_toNat (bytes : List Byte) : badBytes (bytes.map BitVec.toNat) = [] := by
  rw [badBytes_eq_nil_iff]
  intro b hb
  obtain ⟨v, -, rfl⟩ := List.mem_map.1 hb
  exact Nat.le_of_lt_succ v.isLt

theorem map_hostByte_toNat (bytes : List Byte) : (bytes.map BitVec.toNat).map hostByte = bytes := by
  simp [hostByte, Function.comp_def]

theorem State.puts_of_serial {s : State} {name : Name} {dev : Nat} {p : SerialPort} (hname : findSerial s.devs name = some dev)
    (hp : serialAt s.devs dev = some p) (bytes : List Byte) : s.puts name (bytes.map BitVec.toNat) =
      (s.putDevice dev (.serial { p with
        toDevice := p.toDevice.pushAll s.params.overflow p.desc.capacity bytes })).reply .done := by
  simp only [puts, hname, badBytes_map_toNat, putsAt, hp, map_hostByte_toNat]

/-- Settles O20. -/
theorem serialPutsPushesInOrder : Obligations.SerialPutsPushesInOrder := by
  intro s name bytes dev p hs hname hp hok
  obtain ⟨hothers, hself, hdevices, hmem⟩ := putSerial_frame hp
    (q := { p with toDevice := p.toDevice.pushAll s.params.overflow p.desc.capacity bytes }) rfl
  rw [exec_serialPuts hs, State.puts_of_serial hname hp]
  exact ⟨_, _, rfl, rfl, hothers, hself, hdevices, hmem, (Ring.pushAll_spec hok bytes).2⟩

theorem getsCount_eq (count : Option Nat) (available : Nat) : getsCount count available = min (count.getD available) available := by
  cases count <;> simp [getsCount]

theorem State.gets_of_serial {s : State} {name : Name} {dev : Nat} {p : SerialPort} (hname : findSerial s.devs name = some dev)
    (hp : serialAt s.devs dev = some p) (count : Option Nat) :
    let k := getsCount count (p.fromDevice.len s.params.overflow p.desc.capacity)
    let got := Ring.popMany s.params.overflow p.desc.capacity k p.fromDevice
    s.gets name count = (s.putDevice dev (.serial { p with fromDevice := got.2 })).reply (.bytes got.1) := by
  simp [gets, hname, hp]

/-- Settles O21. -/
theorem serialGetsTakesOldestBytes : Obligations.SerialGetsTakesOldestBytes := by
  rintro s name count dev p q hs hname hp hok rfl
  have hcount := getsCount_eq count (p.fromDevice.len s.params.overflow p.desc.capacity)
  have hle := HostEffect.getsCount_le count (p.fromDevice.len s.params.overflow p.desc.capacity)
  obtain ⟨htake, hdrop, -⟩ := Ring.popMany_spec hok hle
  obtain ⟨hothers, hself, hdevices, hmem⟩ := putSerial_frame hp
    (q := { p with fromDevice := (Ring.popMany s.params.overflow p.desc.capacity
      (getsCount count (p.fromDevice.len s.params.overflow p.desc.capacity)) p.fromDevice).2 }) rfl
  rw [exec_serialGets hs, State.gets_of_serial hname hp, Ring.unread_length, ← hcount]
  exact ⟨_, _, rfl, by rw [htake]; rfl, hothers, hself, hdevices, hmem, hdrop⟩

/-! ## Refused puts and gets (rule R121; log 13, log 14) -/

theorem State.gets_of_no_serial {s : State} {name : Name} (h : findSerial s.devs name = none) (count : Option Nat) :
    s.gets name count = s.refuse (.badDevice name) := by
  simp [gets, h]

theorem State.puts_of_no_serial {s : State} {name : Name} (h : findSerial s.devs name = none) (bytes : List Nat) :
    ((∀ b ∈ bytes, b ≤ 255) → s.puts name bytes = s.refuse (.badDevice name)) ∧
      ∃ e, s.puts name bytes = s.refuse e ∧ (e = .badDevice name ∨ e = .badValue (badBytes bytes)) := by
  cases hb : badBytes bytes with
  | nil =>
    have hputs : s.puts name bytes = s.refuse (.badDevice name) := by simp [puts, h, hb]
    exact ⟨fun _ => hputs, _, hputs, .inl rfl⟩
  | cons b bs =>
    refine ⟨fun hgood => absurd (badBytes_eq_nil_iff.2 hgood) (by simp [hb]), _, by simp only [puts, h, hb]; rfl, ?_⟩
    split
    · exact .inr rfl
    · exact .inl rfl

theorem State.puts_of_bad_byte {s : State} {name : Name} {bytes : List Nat} (h : findSerial s.devs name ≠ none)
    (hbad : ∃ b ∈ bytes, 255 < b) : s.puts name bytes = s.refuse (.badValue (badBytes bytes)) := by
  obtain ⟨i, hi⟩ := Option.ne_none_iff_exists'.1 h
  cases hb : badBytes bytes with
  | nil =>
    obtain ⟨b, hmem, hlt⟩ := hbad
    have hle := badBytes_eq_nil_iff.1 hb b hmem
    omega
  | cons b bs => simp [puts, hi, hb]

/-- Settles O22. -/
theorem serialHostOpsRefuseBadArguments : Obligations.SerialHostOpsRefuseBadArguments := by
  intro s name bytes count hs
  rw [exec_serialGets hs, exec_serialPuts hs]
  refine ⟨fun hname => ?_, fun hname hbad => congrArg _ (State.puts_of_bad_byte hname hbad)⟩
  obtain ⟨hgood, e, hputs, he⟩ := State.puts_of_no_serial hname bytes
  exact ⟨congrArg _ (State.gets_of_no_serial hname count), fun hb => congrArg _ (hgood hb), e, congrArg _ hputs, he⟩

end Sys2Proof.Machine

/-! # Block drive: registers, commands, the data port and the host's access -/

namespace Sys2Proof.Machine

/-! ## A row whose handler faults without a change -/

section

variable {s : State} {i : Nat} {f : Slot → Option (Handled Slot)} {d : Slot} {x : Handled Slot} {e : ModelFault}
  (hd : s.devs[i]? = some d) (hx : f d = some x) (hdev : x.dev = d) (hf : x.fault = some e)

include hd hx hdev hf

theorem State.readDevice_of_unchanged_fault : s.readDevice i f = .next (s.raise e) := by
  rw [readDevice_of_fault hd hx hf, hdev, set_getElem?_self hd]
  rfl

theorem State.writeDevice_of_unchanged_fault : s.writeDevice i f = .next (s.raise e) := by
  rw [writeDevice_of_fault hd hx hf, hdev, set_getElem?_self hd]
  rfl

end

/-! ## The address and status registers (rules R42, R260, R264, R269) -/

theorem toNat_append_eq {m k : Nat} (x : BitVec m) (y : BitVec k) : (x ++ y).toNat = x.toNat * 2 ^ k + y.toNat := by
  rw [BitVec.toNat_append, ← Nat.shiftLeft_add_eq_or_of_lt y.isLt, Nat.shiftLeft_eq]

/-- The LBA as a number (rule R42). -/
theorem lbaOf_eq (b : BlockDrive) :
    lbaOf b = b.lba0.toNat + 2 ^ 8 * b.lba1.toNat + 2 ^ 16 * b.lba2.toNat + 2 ^ 24 * (b.lba3.toNat % 2 ^ 5) := by
  rw [lbaOf, lbaWord, toNat_append_eq, toNat_append_eq, toNat_append_eq, BitVec.extractLsb'_toNat, Nat.shiftRight_zero]
  omega

/-- Settles O23. -/
theorem lbaRegisterWritesAndAssembly : Obligations.LbaRegisterWritesAndAssembly := by
  refine ⟨fun s dev n b v hd => ?_, lbaOf_eq⟩
  simp only [List.forall_mem_cons, List.not_mem_nil, false_implies, implies_true, and_true]
  exact ⟨State.writeDevice_answers hd (f := Slot.onDrive (BlockDrive.writeLba0 v)) rfl rfl ⟨rfl, rfl⟩,
    State.writeDevice_answers hd (f := Slot.onDrive (BlockDrive.writeLba1 v)) rfl rfl ⟨rfl, rfl⟩,
    State.writeDevice_answers hd (f := Slot.onDrive (BlockDrive.writeLba2 v)) rfl rfl ⟨rfl, rfl⟩,
    State.writeDevice_answers hd (f := Slot.onDrive (BlockDrive.writeLba3 v)) rfl rfl ⟨rfl, rfl⟩⟩

/-- Settles O24: both handlers leave the drive as it is. -/
theorem statusReadAndOtherCommandChangeNothing : Obligations.StatusReadAndOtherCommandChangeNothing := by
  intro s dev b v hb
  obtain ⟨n, hd⟩ := driveAt_eq_some_iff.1 hb
  have hread := State.readDevice_of_value hd (f := Slot.onDrive BlockDrive.readStatus) rfl rfl
  have hwrite := State.writeDevice_of_done hd (f := Slot.onDrive BlockDrive.cmdOther) rfl rfl
  simp only [Handled.map, BlockDrive.readStatus, BlockDrive.cmdOther, set_getElem?_self hd] at hread hwrite
  exact ⟨hread, hwrite⟩

/-! ## The commands (rules R266, R268, R278) -/

/-- The byte of a drive's store at a position, 0 without a file (rules R278, R280). -/
def BlockDrive.storeByte (b : BlockDrive) (k : Nat) : Byte :=
  match b.store with
  | none => 0#8
  | some m => m.read k

theorem BlockDrive.storeByte_of_none {b : BlockDrive} (h : b.store = none) (k : Nat) : b.storeByte k = 0#8 := by
  rw [storeByte, h]

theorem BlockDrive.storeByte_of_some {b : BlockDrive} {m : Memory} (h : b.store = some m) (k : Nat) : b.storeByte k = m.read k := by
  rw [storeByte, h]

/-- A read command within range loads the addressed sector (rule R266). -/
theorem BlockDrive.cmdRead_of_range {b : BlockDrive} (h : b.store = none ∨ lbaOf b < b.desc.numSectors) (n : Name) :
    ∃ buf, b.cmdRead n =
        ⟨{ b with sectorBuffer := buf, bufferOffset := 0, mode := .read, status := dataReady }, none, none⟩ ∧
      ∀ o, o < b.desc.sectorSize → buf.read o = b.storeByte (lbaOf b * b.desc.sectorSize + o) := by
  cases hs : b.store with
  | none =>
    have hload : b.loadSector (lbaOf b) = some [] := by simp [loadSector, hs]
    exact ⟨[], by rw [cmdRead, hload, hs], fun o _ => by rw [storeByte_of_none hs]; rfl⟩
  | some m =>
    have hlba : lbaOf b < b.desc.numSectors := h.resolve_left (by simp [hs])
    have hload : b.loadSector (lbaOf b) = some (Memory.copyIn [] 0 (fun o => m.read (lbaOf b * b.desc.sectorSize + o))
        b.desc.sectorSize) := by simp [loadSector, hs, hlba]
    refine ⟨_, by rw [cmdRead, hload, hs], fun o ho => ?_⟩
    rw [Memory.read_copyIn, if_pos (by omega), storeByte_of_some hs, Nat.sub_zero]

/-- A read command beyond the last sector faults and changes nothing (rule R266). -/
theorem BlockDrive.cmdRead_of_beyond {b : BlockDrive} (hs : b.store ≠ none) (h : b.desc.numSectors ≤ lbaOf b) (n : Name) :
    b.cmdRead n = ⟨b, none, some (.bdLbaRange n (lbaOf b))⟩ := by
  rw [cmdRead, (loadSector_eq_none_iff b _).2 ⟨hs, h⟩]

/-- Settles O26: the two clauses are the two results of the sector's load. -/
theorem readCommandLoadsTheSector : Obligations.ReadCommandLoadsTheSector := by
  intro s dev n b hd
  have hhandler : Slot.onDrive BlockDrive.cmdRead { name := n, device := .drive b } =
      some ((b.cmdRead n).map fun b' => { name := n, device := .drive b' }) := rfl
  refine ⟨fun hrange => ?_, fun hs hbeyond => ?_⟩
  · obtain ⟨buf, hread, hbuf⟩ := BlockDrive.cmdRead_of_range hrange n
    rw [hread] at hhandler
    obtain ⟨t, ht, hsame, hcpu, hdev⟩ := State.writeDevice_answers hd hhandler rfl ⟨rfl, rfl⟩
    exact ⟨t, buf, ht, hsame, hcpu, hdev, hbuf⟩
  · rw [BlockDrive.cmdRead_of_beyond hs hbeyond] at hhandler
    exact State.writeDevice_of_unchanged_fault hd hhandler rfl rfl

/-- Settles O27. -/
theorem writeCommandClearsTheBuffer : Obligations.WriteCommandClearsTheBuffer := by
  intro s dev n b hd
  obtain ⟨t, ht, hsame, hcpu, hdev⟩ := State.writeDevice_answers hd (f := Slot.onDrive BlockDrive.cmdWrite) rfl rfl ⟨rfl, rfl⟩
  exact ⟨t, [], ht, hsame, hcpu, hdev, Memory.read_nil⟩

/-! ## The data port (rules R270, R272, R276) -/

theorem BlockDrive.dataRead_of_phase {b : BlockDrive} (h : b.mode = .read ∧ b.bufferOffset < b.desc.sectorSize) (n : Name) :
    b.dataRead n =
      ⟨{ b with
          bufferOffset := b.bufferOffset + 1,
          status := if b.bufferOffset + 1 = b.desc.sectorSize then cmdReady else b.status },
        some (b.sectorBuffer.read b.bufferOffset), none⟩ :=
  if_pos h

theorem BlockDrive.dataRead_of_not_phase {b : BlockDrive} (h : ¬ (b.mode = .read ∧ b.bufferOffset < b.desc.sectorSize))
    (n : Name) : b.dataRead n = ⟨b, none, some (.bdProtocol n .read b.mode b.bufferOffset)⟩ :=
  if_neg h

/-- Settles O28. -/
theorem dataReadReturnsTheNextByte : Obligations.DataReadReturnsTheNextByte := by
  intro s dev n b hd
  have hhandler : Slot.onDrive BlockDrive.dataRead { name := n, device := .drive b } =
      some ((b.dataRead n).map fun b' => { name := n, device := .drive b' }) := rfl
  refine ⟨fun hphase => ?_, fun hphase => ?_⟩
  · rw [BlockDrive.dataRead_of_phase hphase] at hhandler
    obtain ⟨t, ht, hsame, hcpu, hdev⟩ := State.readDevice_answers hd hhandler rfl ⟨rfl, rfl⟩
    exact ⟨t, ht, hsame, hcpu, hdev⟩
  · rw [BlockDrive.dataRead_of_not_phase hphase] at hhandler
    exact State.readDevice_of_unchanged_fault hd hhandler rfl rfl

/-- A written byte that is not the sector's last is stored (rule R272). -/
theorem BlockDrive.dataWrite_of_room {b : BlockDrive} (hmode : b.mode = .write) (h : b.bufferOffset + 1 < b.desc.sectorSize)
    (v : Byte) (n : Name) : b.dataWrite v n = ⟨b.acceptByte v, none, none⟩ := by
  rw [dataWrite, if_pos ⟨hmode, by omega⟩, if_neg (by omega)]

/-- The sector's last byte is stored and flushed (rule R272). -/
theorem BlockDrive.dataWrite_of_last {b : BlockDrive} (hmode : b.mode = .write) (h : b.bufferOffset + 1 = b.desc.sectorSize)
    (v : Byte) (n : Name) : b.dataWrite v n = (b.acceptByte v).flush n := by
  rw [dataWrite, if_pos ⟨hmode, by omega⟩, if_pos h]

/-- What a flush within range makes of the store: nothing without a file, else the buffer in the addressed sector and every other
byte as before (rules R272, R278). -/
def BlockDrive.FlushedTo (b : BlockDrive) (st : Option Memory) : Prop :=
  (b.store = none → st = none) ∧
    ∀ m, b.store = some m → ∃ m', st = some m' ∧
      (∀ o, o < b.desc.sectorSize → m'.read (lbaOf b * b.desc.sectorSize + o) = b.sectorBuffer.read o) ∧
      ∀ k, ¬ (lbaOf b * b.desc.sectorSize ≤ k ∧ k < lbaOf b * b.desc.sectorSize + b.desc.sectorSize) → m'.read k = m.read k

theorem BlockDrive.flush_of_range {b : BlockDrive} (h : b.store = none ∨ lbaOf b < b.desc.numSectors) (n : Name) :
    ∃ st, b.flush n = ⟨{ b with status := cmdReady, store := st }, none, none⟩ ∧ b.FlushedTo st := by
  cases hs : b.store with
  | none =>
    have hput : b.storeSector (lbaOf b) b.sectorBuffer = some b := by simp [storeSector, hs]
    refine ⟨none, by rw [flush, hput, ← hs], fun _ => rfl, fun m hm => ?_⟩
    cases hs.symm.trans hm
  | some m =>
    have hlba : lbaOf b < b.desc.numSectors := h.resolve_left (by simp [hs])
    have hput : b.storeSector (lbaOf b) b.sectorBuffer = some { b with
        store := some (m.copyIn (lbaOf b * b.desc.sectorSize) b.sectorBuffer.read b.desc.sectorSize) } := by
      simp [storeSector, hs, hlba]
    refine ⟨_, by rw [flush, hput], fun hnone => ?_, fun m0 hm => ?_⟩
    · cases hs.symm.trans hnone
    · obtain rfl := Option.some.inj (hs.symm.trans hm)
      refine ⟨_, rfl, fun o ho => ?_, fun k hk => ?_⟩
      · rw [Memory.read_copyIn, if_pos (by omega), Nat.add_sub_cancel_left]
      · rw [Memory.read_copyIn, if_neg hk]

theorem BlockDrive.flush_of_beyond {b : BlockDrive} (hs : b.store ≠ none) (h : b.desc.numSectors ≤ lbaOf b) (n : Name) :
    b.flush n = ⟨b, none, some (.bdLbaRange n (lbaOf b))⟩ := by
  rw [flush, (storeSector_eq_none_iff b _ _).2 ⟨hs, h⟩]

/-- Settles O29: a byte before the last is accepted; the last is accepted and the buffer flushed. -/
theorem dataWriteStoresAndFlushes : Obligations.DataWriteStoresAndFlushes := by
  intro s dev n b v hd hmode _
  have hhandler : Slot.onDrive (BlockDrive.dataWrite v) { name := n, device := .drive b } =
      some ((b.dataWrite v n).map fun b' => { name := n, device := .drive b' }) := rfl
  refine ⟨fun hroom => ?_, fun hlast hrange => ?_⟩
  · rw [BlockDrive.dataWrite_of_room hmode hroom] at hhandler
    exact State.writeDevice_answers hd hhandler rfl ⟨rfl, rfl⟩
  · obtain ⟨st, hflush, hnone, hsome⟩ := BlockDrive.flush_of_range (b := b.acceptByte v) hrange n
    rw [BlockDrive.dataWrite_of_last hmode hlast, hflush] at hhandler
    obtain ⟨t, ht, hsame, hcpu, hdev⟩ := State.writeDevice_answers hd hhandler rfl ⟨rfl, rfl⟩
    refine ⟨t, st, ht, hsame, hcpu, ?_, ?_⟩
    · rw [hdev, ← hlast]
      rfl
    · cases hs : b.store with
      | none => exact hnone hs
      | some m => exact hsome m hs

/-- Settles O30. -/
theorem dataWriteFaults : Obligations.DataWriteFaults := by
  intro s dev n b v hd
  have hhandler : Slot.onDrive (BlockDrive.dataWrite v) { name := n, device := .drive b } =
      some ((b.dataWrite v n).map fun b' => { name := n, device := .drive b' }) := rfl
  refine ⟨fun hphase => ?_, fun hmode hlast hs hbeyond => ?_⟩
  · rw [BlockDrive.dataWrite_of_not_phase hphase] at hhandler
    exact State.writeDevice_of_unchanged_fault hd hhandler rfl rfl
  · rw [BlockDrive.dataWrite_of_last hmode hlast, BlockDrive.flush_of_beyond (b := b.acceptByte v) hs hbeyond] at hhandler
    exact State.writeDevice_of_fault hd hhandler rfl

/-! ## The host's access to the store (rules R280, R358) -/

/-- Settles O32: the name, then the range, then the file. -/
theorem bdReadByteReadsTheStore : Obligations.BdReadByteReadsTheStore := by
  intro s name sector offset
  refine ⟨fun dev b hname hb => congrArg Host.Outcome.next ?_, fun hname => congrArg Host.Outcome.next ?_⟩
  · simp only [State.readStoreByte, hname, hb]
    by_cases hrange : sector < b.desc.numSectors ∧ offset < b.desc.sectorSize
    · rw [if_neg (by omega), if_pos hrange]
      cases hs : b.store <;> rfl
    · rw [if_pos (by omega), if_neg hrange]
      rfl
  · simp only [State.readStoreByte, hname]
    rfl

/-- BD_READ_BYTE within the drive's range (rule R280). -/
theorem exec_bdReadByte_of_range {s : State} {name : Name} {dev sector offset : Nat} {b : BlockDrive}
    (hname : findDrive s.devs name = some dev) (hb : driveAt s.devs dev = some b) (hsector : sector < b.desc.numSectors)
    (hoffset : offset < b.desc.sectorSize) : exec (.bdReadByte name sector offset) s =
      .next (s.reply (.byte (b.storeByte (sector * b.desc.sectorSize + offset)))) := by
  have h := (bdReadByteReadsTheStore s name sector offset).1 dev b hname hb
  rw [if_pos ⟨hsector, hoffset⟩] at h
  exact h

/-- Replacing an element by one that a function does not tell from it. -/
theorem map_set_eq {α β : Type} {l : List α} {i : Nat} {a a' : α} {g : α → β} (ha : l[i]? = some a) (h : g a' = g a) :
    (l.set i a').map g = l.map g := by
  rw [List.map_set, h]
  exact set_getElem?_self (by rw [List.getElem?_map, ha]; rfl)

theorem findIdx?_congr {α : Type} {l l' : List α} {g : α → Bool} (h : l'.map g = l.map g) : l'.findIdx? g = l.findIdx? g := by
  have hmap : ∀ l : List α, l.findIdx? g = (l.map g).findIdx? id := fun l => by rw [List.findIdx?_map]; rfl
  rw [hmap, hmap, h]

/-- A drive whose registers changed is found by the same name. -/
theorem findDrive_set {devs : List Slot} {i : Nat} {n : Name} {b : BlockDrive}
    (hd : devs[i]? = some { name := n, device := .drive b }) (b' : BlockDrive) (name : Name) :
    findDrive (devs.set i { name := n, device := .drive b' }) name = findDrive devs name :=
  findIdx?_congr (map_set_eq hd rfl)

/-- The step that takes a change of a store byte from the queue of the host whose turn it is (rules R222, R358). -/
theorem step_setStore {s s' : State} {name : Name} {index : Nat} {v : Byte} (h : TakesHostAct s s' (.setStore name index v)) :
    step s = .next (s'.setStoreByte name index v) := by
  obtain ⟨rest, hp, hin, rfl⟩ | ⟨call, pcS, cb, rest, hp, hin, rfl⟩ := h
  · rw [step_idle hp, hin]
    rfl
  · rw [step_callback hp, hin]
    rfl

theorem State.setStoreByte_of_drive {s : State} {name : Name} {index dev : Nat} {b : BlockDrive} {m : Memory}
    (hname : findDrive s.devs name = some dev) (hb : driveAt s.devs dev = some b) (hm : b.store = some m)
    (hindex : index < b.desc.sectorSize * b.desc.numSectors) (v : Byte) :
    s.setStoreByte name index v = s.putDevice dev (.drive { b with store := some (m.write index v) }) := by
  simp [setStoreByte, hname, hb, hm, hindex]

/-- Settles O33: the change replaces one byte of the store, and the position it names is the one BD_READ_BYTE reads. -/
theorem hostStoreChangeIsSeenByTheNextRead : Obligations.HostStoreChangeIsSeenByTheNextRead := by
  intro s s' name index v dev b m htake hname hb hm hindex
  have hdevs : s'.devs = s.devs := by rw [htake.eq]
  obtain ⟨n, hd⟩ := driveAt_eq_some_iff.1 hb
  obtain ⟨hothers, hself, -, hmem⟩ :=
    putDevice_frame (x := .drive { b with store := some (m.write index v) }) hd rfl rfl
  have hset := putDevice_eq_set hd (.drive { b with store := some (m.write index v) })
  have hdrive := driveAt_eq_some_iff.2 ⟨n, hself⟩
  have hsize : 0 < b.desc.sectorSize := Nat.pos_of_mul_pos_right (Nat.zero_lt_of_lt hindex)
  rw [step_setStore htake, State.setStoreByte_of_drive (hdevs ▸ hname) (hdevs ▸ hb) hm hindex]
  refine ⟨_, m.write index v, rfl, rfl, ?_, ?_, Memory.read_write_same m index v,
    fun k hk => Memory.read_write_other m v hk.symm, ?_, ?_⟩
  · rw [State.putDevice_devs, hdevs]
    exact hothers
  · rw [State.putDevice_devs, hdevs]
    exact hdrive
  · intro a
    rw [State.byteAt, State.putDevice_devs, hdevs]
    exact hmem a
  · rw [exec_bdReadByte_of_range (dev := dev) (b := { b with store := some (m.write index v) })]
    · rw [BlockDrive.storeByte_of_some rfl, Nat.div_add_mod', Memory.read_write_same]
      rfl
    · rw [State.putDevice_devs, hdevs, hset, findDrive_set hd, hname]
    · rw [State.putDevice_devs, hdevs]
      exact hdrive
    · exact Nat.div_lt_of_lt_mul hindex
    · exact Nat.mod_lt index hsize

end Sys2Proof.Machine

/-! # Debug controller: CONTINUE and STEP, the iteration, breakpoints and tracepoints -/

namespace Sys2Proof.Machine

/-! ## CONTINUE and STEP (rules R201, R210, R216, R222, R229) -/

theorem exec_continueRun (max : Option Nat) (s : State) : exec (.continueRun max) s = .next (s.continueWith max) := rfl

theorem exec_stepOne (s : State) : exec .stepOne s = .next (s.continueWith (some 1)) := rfl

/-- Without a fault a CONTINUE or STEP is refused in a callback, returns 0 in Halted, and begins otherwise. -/
theorem State.continueWith_of_unfaulted {s : State} (h : s.Unfaulted) (max : Option Nat) :
    (s.dbg.inCallback = false → s.dbg.runState ≠ .halted → s.continueWith max = { s with
      dbg := { s.dbg with runState := .running }, phase := .engine { budget := max, total := 0 },
      returns := { s.returns with host := none } }) ∧
    (s.dbg.inCallback = false → s.dbg.runState = .halted → s.continueWith max = s.reply (.cycles 0)) ∧
    (s.dbg.inCallback = true → s.continueWith max = s.refuse .reentrant) := by
  rw [continueWith, unlessFaulted_of_none h]
  refine ⟨fun hcb hrun => ?_, fun hcb hrun => ?_, fun hcb => by simp [hcb]⟩
  · simp [hcb, beginCall, hrun]
  · simp [hcb, beginCall, hrun]

/-- Settles O34: both operations are a CONTINUE, STEP with a budget of one cycle. -/
theorem continueAndStepBegin : Obligations.ContinueAndStepBegin := by
  intro s max hs
  have houtcome : ∀ {i : Instr} {budget : Option Nat}, exec i s = .next (s.continueWith budget) →
      (s.dbg.inCallback = false → s.dbg.runState ≠ .halted → exec i s = .next { s with
        dbg := { s.dbg with runState := .running }, phase := .engine { budget := budget, total := 0 },
        returns := { s.returns with host := none } }) ∧
      (s.dbg.inCallback = false → s.dbg.runState = .halted → exec i s = .next (s.reply (.cycles 0))) ∧
      (s.dbg.inCallback = true → exec i s = .next (s.refuse .reentrant)) := by
    intro i budget hexec
    obtain ⟨hbegin, hhalted, hreentrant⟩ := State.continueWith_of_unfaulted hs budget
    rw [hexec]
    exact ⟨fun hcb hrun => congrArg _ (hbegin hcb hrun), fun hcb hrun => congrArg _ (hhalted hcb hrun),
      fun hcb => congrArg _ (hreentrant hcb)⟩
  simp only [List.forall_mem_cons, List.not_mem_nil, false_implies, implies_true, and_true]
  exact ⟨houtcome (exec_continueRun max s), houtcome (exec_stepOne s)⟩

/-! ## The rest of an iteration (rules R210 to R218, R302, R305) -/

/-- The call `call` has ended in the state `t`, in the run state `r` and with the debug state else that of `dbg` (rule R210). -/
def State.CallEnded (t : State) (dbg : Debug) (call : Call) (r : RunState) : Prop :=
  t.dbg = { dbg with runState := r } ∧ t.phase = .idle ∧ t.returns.host = some (.cycles call.total)

/-- What the stop checks decide of a call, halt before breakpoint before budget; `dbg` and `host` are the debug state and the host's
return path before them, and `breakpoint` tells of the sampled PC. `finishIteration_stopsInOrder` ties it to the model. -/
structure StopsInOrder (dbg : Debug) (halted breakpoint : Bool) (call : Call) (host : Option HostReply) (t : State) : Prop where
  halt : halted = true → t.CallEnded dbg call .halted
  breakHit : ¬ halted = true → breakpoint = true → t.CallEnded dbg call .breakHit
  exhausted : ¬ halted = true → ¬ breakpoint = true → (∃ max, call.budget = some max ∧ max ≤ call.total) →
    t.CallEnded dbg call .running
  again : ¬ halted = true → ¬ breakpoint = true → (¬ ∃ max, call.budget = some max ∧ max ≤ call.total) →
    t.dbg = dbg ∧ t.phase = .engine call ∧ t.returns.host = host

namespace State

theorem finishIteration_eq (s : State) (call : Call) (pcS : Addr) : s.finishIteration call pcS =
    if s.eng.halted then s.endCall call .halted
    else if s.isBreakpoint pcS.toNat then s.endCall call .breakHit
    else if call.exhausted then s.endCall call .running
    else { s with phase := .engine call } := rfl

theorem finishIteration_stopsInOrder (s : State) (call : Call) (pcS : Addr) :
    StopsInOrder s.dbg s.eng.halted (s.isBreakpoint pcS.toNat) call s.returns.host (s.finishIteration call pcS) := by
  have hbudget := call.exhausted_iff
  refine ⟨fun hhalt => ?_, fun hhalt hbp => ?_, fun hhalt hbp hmax => ?_, fun hhalt hbp hmax => ?_⟩
  · rw [finishIteration_eq, if_pos hhalt]
    exact ⟨rfl, rfl, rfl⟩
  · rw [finishIteration_eq, if_neg hhalt, if_pos hbp]
    exact ⟨rfl, rfl, rfl⟩
  · rw [finishIteration_eq, if_neg hhalt, if_neg hbp, if_pos (hbudget.2 hmax)]
    exact ⟨rfl, rfl, rfl⟩
  · rw [finishIteration_eq, if_neg hhalt, if_neg hbp, if_neg fun h => hmax (hbudget.1 h)]
    exact ⟨rfl, rfl, rfl⟩

theorem finishIteration_sameDevices (s : State) (call : Call) (pcS : Addr) : SameDevices s (s.finishIteration call pcS) := by
  obtain ⟨-, h⟩ | ⟨-, -, h⟩ | ⟨-, -, -, h⟩ | ⟨-, -, -, h⟩ := s.finishIteration_cases call pcS
  all_goals
    rw [h]
    exact ⟨rfl, rfl, rfl, rfl, rfl, rfl, rfl, rfl⟩

/-- The engine after the interrupt drive: one NMI call more when bit 0 is 1, the INT level from bit 1 (rule R302). -/
theorem driveInterrupts_eng_eq (s : State) (bs : BusState) : (s.driveInterrupts bs).eng = { s.eng with
    nmiCalls := s.eng.nmiCalls + (if bs.getLsbD 0 then 1 else 0), intLevel := some (bs.getLsbD 1) } := by
  rw [driveInterrupts_eng, busNmi, busInt]
  split <;> rfl

/-- The state after the clock batch of `c` cycles (rule R148). -/
def ticked (s : State) (c : Nat) : State :=
  { s with devs := (clockAll c s.devs).1, returns := { s.returns with bus := some (clockAll c s.devs).2.busState } }

theorem exec_clock_ticked (s : State) (c : Nat) : exec (.clock c) s = .next (s.ticked c) := rfl

theorem step_clock_ticked {s : State} {call : Call} {c : Nat} (hp : s.phase = .clock call c) :
    step s = .next ((s.ticked c).afterBatch call (clockAll c s.devs).2.busState) :=
  (step_clock hp).trans (clockStep_eq call c s)

theorem byteAt_of_ticked {s t : State} {c : Nat} (h : t.devs = (s.ticked c).devs) (a : Addr) : t.byteAt a = s.byteAt a := by
  rw [byteAt, h]
  exact memRead_congr (clockAll_region c s.devs) a

end State

/-- Settles O36: the batch, the drive and the sample, then what the stop checks decide. -/
theorem iterationDrivesThenStopsInOrder : Obligations.IterationDrivesThenStopsInOrder := by
  intro s call c hp htp
  have hnone : (s.ticked c).afterBatch call (clockAll c s.devs).2.busState =
      ((s.ticked c).driveInterrupts (clockAll c s.devs).2.busState).finishIteration call s.eng.pc := by
    obtain ⟨cb, hcb, -⟩ | ⟨-, h⟩ := (s.ticked c).afterBatch_cases call (clockAll c s.devs).2.busState
    · cases htp.symm.trans hcb
    · exact h
  obtain ⟨hdevs, hparams, heng, hcpu, -, hhostIn, hcallbackIn, hengineIn⟩ :=
    ((s.ticked c).driveInterrupts (clockAll c s.devs).2.busState).finishIteration_sameDevices call s.eng.pc
  refine ⟨_, _, _, s.exec_clock_ticked c, rfl, (State.step_clock_ticked hp).trans (congrArg _ hnone), hdevs, hparams,
    heng.trans (State.driveInterrupts_eng_eq _ _), hhostIn, hcallbackIn, hengineIn, hcpu, State.byteAt_of_ticked hdevs, ?_⟩
  obtain ⟨hhalted, hbreak, hexhausted, hagain⟩ :=
    ((s.ticked c).driveInterrupts (clockAll c s.devs).2.busState).finishIteration_stopsInOrder call s.eng.pc
  split_ifs with hhalt hbp hbudget
  · exact hhalted hhalt
  · exact hbreak hhalt hbp
  · exact hexhausted hhalt hbp hbudget
  · exact hagain hhalt hbp hbudget

/-- Settles O37: the callback is entered in the state after the drive; its return runs the stop checks on the state as it is. -/
theorem tracepointFiresBeforeTheStopChecks : Obligations.TracepointFiresBeforeTheStopChecks := by
  refine ⟨fun s call c cb hp htp => ?_, fun s call pcS cb rest hp hin => ?_⟩
  · have henter : (s.ticked c).afterBatch call (clockAll c s.devs).2.busState =
        ((s.ticked c).driveInterrupts (clockAll c s.devs).2.busState).enterCallback call s.eng.pc cb := by
      obtain ⟨cb', hcb', h⟩ | ⟨hnone, -⟩ := (s.ticked c).afterBatch_cases call (clockAll c s.devs).2.busState
      · obtain rfl := Option.some.inj (htp.symm.trans hcb')
        exact h
      · cases htp.symm.trans hnone
    exact ⟨_, _, _, s.exec_clock_ticked c, rfl, (State.step_clock_ticked hp).trans (congrArg _ henter), rfl, rfl,
      State.driveInterrupts_eng_eq _ _, rfl, rfl, rfl, rfl, rfl, State.byteAt_of_ticked rfl, rfl, rfl⟩
  · have hstep : step s = .next (State.finishIteration
        { s with callbackIn := rest, dbg := { s.dbg with inCallback := false } } call pcS) := by
      rw [step_callback hp, hin]
      rfl
    obtain ⟨hdevs, hparams, heng, hcpu, hbus, hhostIn, hcallbackIn, hengineIn⟩ := State.finishIteration_sameDevices
      { s with callbackIn := rest, dbg := { s.dbg with inCallback := false } } call pcS
    refine ⟨_, hstep, hdevs, hparams, heng, hhostIn, hcallbackIn, hengineIn, hcpu, hbus, fun a => ?_, ?_⟩
    · rw [State.byteAt, hdevs]
      rfl
    · obtain ⟨hhalted, hbreak, hexhausted, hagain⟩ := State.finishIteration_stopsInOrder
        { s with callbackIn := rest, dbg := { s.dbg with inCallback := false } } call pcS
      split_ifs with hhalt hbp hbudget
      · exact hhalted hhalt
      · exact hbreak hhalt hbp
      · exact hexhausted hhalt hbp hbudget
      · exact hagain hhalt hbp hbudget

/-! ## Breakpoints and tracepoints (rules R218 to R220) -/

/-- An operation on an address, without a fault recorded: refused out of range, else done. -/
theorem State.unlessFaulted_withAddr {s : State} (h : s.Unfaulted) (addr : Nat) (t : State) :
    (addr ≤ 0xFFFF → s.unlessFaulted (s.withAddr addr t) = t) ∧
      (0xFFFF < addr → s.unlessFaulted (s.withAddr addr t) = s.refuse (.badValue [addr])) := by
  rw [unlessFaulted_of_none h, withAddr_eq]
  exact ⟨fun ha => if_neg (by omega), fun ha => if_pos ha⟩

/-- A reply with another debug state changes no device and nothing of the engine. -/
theorem State.sameDevices_reply (s : State) (dbg : Debug) (r : HostReply) :
    SameDevices s (State.reply { s with dbg := dbg } r) :=
  ⟨rfl, rfl, rfl, rfl, rfl, rfl, rfl, rfl⟩

/-- Settles O38: a set is a map to the unit type, and an address is in it when the map has a value there. -/
theorem breakpointSetOperations : Obligations.BreakpointSetOperations := by
  intro s addr hs
  have hset := State.unlessFaulted_withAddr hs addr
    (State.reply { s with dbg := { s.dbg with breakpoints := mapSet addr () s.dbg.breakpoints } } .done)
  have hremove := State.unlessFaulted_withAddr hs addr
    (State.reply { s with dbg := { s.dbg with breakpoints := mapDel addr s.dbg.breakpoints } } .done)
  refine ⟨fun ha => ⟨⟨_, congrArg Host.Outcome.next (hset.1 ha), State.sameDevices_reply s _ _, rfl, rfl, rfl, fun a => ?_⟩,
    ⟨_, congrArg Host.Outcome.next (hremove.1 ha), State.sameDevices_reply s _ _, rfl, rfl, rfl, fun a => ?_⟩⟩, fun ha => ?_⟩
  · simp only [State.isBreakpoint, State.reply_dbg, mapGet_mapSet]
    by_cases haddr : addr = a
    · simp [haddr]
    · simp [haddr, Ne.symm haddr]
  · simp only [State.isBreakpoint, State.reply_dbg, mapGet_mapDel]
    by_cases haddr : addr = a
    · simp [haddr]
    · simp [haddr, Ne.symm haddr]
  · simp only [List.forall_mem_cons, List.not_mem_nil, false_implies, implies_true, and_true]
    exact ⟨congrArg _ (hset.2 ha), congrArg _ (hremove.2 ha)⟩

theorem exec_registerTracepoint {s : State} (h : s.Unfaulted) (addr : Nat) (cb : Callback) :
    (addr ≤ 0xFFFF → cb.arity = 1 → exec (.registerTracepoint addr cb) s = .next
      (State.reply { s with dbg := { s.dbg with tracepoints := mapSet addr cb s.dbg.tracepoints } } .done)) ∧
    (addr ≤ 0xFFFF → cb.arity ≠ 1 → exec (.registerTracepoint addr cb) s = .next (s.refuse (.tracepointArity addr))) ∧
    (0xFFFF < addr → exec (.registerTracepoint addr cb) s = .next (s.refuse (.badValue [addr]))) := by
  obtain ⟨hin, hout⟩ := State.unlessFaulted_withAddr h addr (if cb.arity ≠ 1 then s.refuse (.tracepointArity addr) else
    State.reply { s with dbg := { s.dbg with tracepoints := mapSet addr cb s.dbg.tracepoints } } .done)
  refine ⟨fun ha harity => congrArg _ ((hin ha).trans ?_), fun ha harity => congrArg _ ((hin ha).trans ?_),
    fun ha => congrArg _ (hout ha)⟩
  · exact if_neg (by simp [harity])
  · exact if_pos harity

/-- Settles O39. -/
theorem registerTracepointChecksArity : Obligations.RegisterTracepointChecksArity := by
  intro s addr cb hs
  obtain ⟨hput, harity, hrange⟩ := exec_registerTracepoint hs addr cb
  refine ⟨fun ha hone => ⟨_, hput ha hone, State.sameDevices_reply s _ _, rfl, rfl, rfl, fun a => ?_⟩, harity, hrange⟩
  simp only [State.reply_dbg, mapGet_mapSet, eq_comm (a := addr)]

/-! ## Host operations after a model fault (rule R310) -/

/-- Settles O41: each of these operations asks for the fault first. -/
theorem faultedMachineRefusesHostOperations : Obligations.FaultedMachineRefusesHostOperations := by
  intro s i hfault hi
  have hrefused : ∀ t, Host.Outcome.next (s.unlessFaulted t) = (.next (s.refuse .faulted) : Result) := fun t =>
    congrArg _ (State.unlessFaulted_of_some hfault)
  cases i with
  | continueRun | stepOne | setBreakpoint | removeBreakpoint | registerTracepoint | writeMemory | serialPuts | serialGets =>
    exact hrefused _
  | _ => cases hi

end Sys2Proof.Machine

/-! # Block drive: a sector written byte by byte and read back -/

namespace Sys2Proof.Machine

/-! ## Operations one after the other -/

theorem runOps_append {is js : List Instr} {s t u : State} {bs cs : List Byte} (hi : runOps is s = some (bs, t))
    (hj : runOps js t = some (cs, u)) : runOps (is ++ js) s = some (bs ++ cs, u) := by
  induction is generalizing s bs with
  | nil =>
    cases hi
    exact hj
  | cons i is ih =>
    simp only [runOps] at hi
    cases he : exec i s with
    | fault f => simp [he] at hi
    | refused r => simp [he] at hi
    | next v =>
      rw [he] at hi
      cases hr : runOps is v with
      | none => simp [hr] at hi
      | some p =>
        obtain ⟨ps, w⟩ := p
        simp only [hr, Option.some.injEq, Prod.mk.injEq] at hi
        obtain ⟨rfl, rfl⟩ := hi
        simp [runOps, he, ih hr]

theorem runOps_cons {i : Instr} {is : List Instr} {s t u : State} {bs : List Byte} (hi : exec i s = .next t)
    (his : runOps is t = some (bs, u)) : runOps (i :: is) s = some (t.returns.cpu.toList ++ bs, u) := by
  simp [runOps, hi, his]

/-! ## The state while one drive works (rules R260 to R272) -/

/-- The state `s` with the registers `b` in the drive at `dev`, whose name is `n`, and `v` as the CPU's answer. -/
def State.withDrive (s : State) (dev : Nat) (n : Name) (b : BlockDrive) (v : Option Byte) : State :=
  { s with devs := s.devs.set dev { name := n, device := .drive b }, returns := { s.returns with cpu := v } }

section

variable {s : State} {dev : Nat} (hdev : dev < s.devs.length) {n : Name}

include hdev

theorem State.getElem?_withDrive (b : BlockDrive) (v : Option Byte) :
    (s.withDrive dev n b v).devs[dev]? = some { name := n, device := .drive b } :=
  List.getElem?_set_self hdev

theorem State.writeDevice_withDrive {b b' : BlockDrive} {f : Name → BlockDrive → Handled BlockDrive}
    (hf : f n b = ⟨b', none, none⟩) (v : Option Byte) :
    (s.withDrive dev n b v).writeDevice dev (Slot.onDrive f) = .next (s.withDrive dev n b' none) := by
  have hhandler : Slot.onDrive f { name := n, device := .drive b } = some ⟨{ name := n, device := .drive b' }, none, none⟩ :=
    congrArg some (congrArg (Handled.map _) hf)
  rw [State.writeDevice_of_done (State.getElem?_withDrive hdev b v) hhandler rfl]
  simp [State.withDrive]

theorem State.readDevice_withDrive {b b' : BlockDrive} {w : Byte} {f : Name → BlockDrive → Handled BlockDrive}
    (hf : f n b = ⟨b', some w, none⟩) (v : Option Byte) :
    (s.withDrive dev n b v).readDevice dev (Slot.onDrive f) = .next (s.withDrive dev n b' (some w)) := by
  have hhandler : Slot.onDrive f { name := n, device := .drive b } =
      some ⟨{ name := n, device := .drive b' }, some w, none⟩ := congrArg some (congrArg (Handled.map _) hf)
  rw [State.readDevice_of_value (State.getElem?_withDrive hdev b v) hhandler rfl]
  simp [State.withDrive]

/-- A write of one register of the drive, and the operations after it. -/
theorem runOps_write {b b' : BlockDrive} {f : Name → BlockDrive → Handled BlockDrive} {i : Instr} {is : List Instr}
    {v : Option Byte} {bs : List Byte} {u : State} (hi : ∀ t, exec i t = t.writeDevice dev (Slot.onDrive f))
    (hf : f n b = ⟨b', none, none⟩) (his : runOps is (s.withDrive dev n b' none) = some (bs, u)) :
    runOps (i :: is) (s.withDrive dev n b v) = some (bs, u) :=
  runOps_cons ((hi _).trans (State.writeDevice_withDrive hdev hf v)) his

/-- A read of one register of the drive, and the operations after it. -/
theorem runOps_read {b b' : BlockDrive} {f : Name → BlockDrive → Handled BlockDrive} {i : Instr} {is : List Instr}
    {v : Option Byte} {w : Byte} {bs : List Byte} {u : State} (hi : ∀ t, exec i t = t.readDevice dev (Slot.onDrive f))
    (hf : f n b = ⟨b', some w, none⟩) (his : runOps is (s.withDrive dev n b' (some w)) = some (bs, u)) :
    runOps (i :: is) (s.withDrive dev n b v) = some (w :: bs, u) :=
  runOps_cons ((hi _).trans (State.readDevice_withDrive hdev hf v)) his

/-! ## The stages of the round trip -/

/-- The LBA registers are written (rule R260). -/
theorem runOps_address {b : BlockDrive} {l0 l1 l2 l3 : Byte} {v : Option Byte} {is : List Instr} {bs : List Byte} {u : State}
    (his : runOps is (s.withDrive dev n { b with lba0 := l0, lba1 := l1, lba2 := l2, lba3 := l3 } none) = some (bs, u)) :
    runOps (.bdLba0 dev l0 :: .bdLba1 dev l1 :: .bdLba2 dev l2 :: .bdLba3 dev l3 :: is) (s.withDrive dev n b v) =
      some (bs, u) := by
  refine runOps_write hdev (f := BlockDrive.writeLba0 l0) (fun _ => rfl) rfl ?_
  refine runOps_write hdev (f := BlockDrive.writeLba1 l1) (fun _ => rfl) rfl ?_
  refine runOps_write hdev (f := BlockDrive.writeLba2 l2) (fun _ => rfl) rfl ?_
  exact runOps_write hdev (f := BlockDrive.writeLba3 l3) (fun _ => rfl) rfl his

end

/-- The drive after bytes were accepted one after the other (rule R272). -/
def BlockDrive.acceptAll (b : BlockDrive) (x : List Byte) : BlockDrive :=
  x.foldl (fun b v => b.acceptByte v) b

/-- Accepted bytes stand in the buffer in order; nothing else of the drive changes but the offset. -/
theorem BlockDrive.acceptAll_spec (b : BlockDrive) (x : List Byte) :
    ∃ buf, b.acceptAll x = { b with sectorBuffer := buf, bufferOffset := b.bufferOffset + x.length } ∧
      (∀ k, (h : k < x.length) → buf.read (b.bufferOffset + k) = x[k]) ∧
      ∀ k, k < b.bufferOffset → buf.read k = b.sectorBuffer.read k := by
  induction x generalizing b with
  | nil => exact ⟨b.sectorBuffer, rfl, fun k h => by simp at h, fun _ _ => rfl⟩
  | cons v x ih =>
    obtain ⟨buf, hacc, hnew, hold⟩ := ih (b.acceptByte v)
    refine ⟨buf, ?_, fun k hk => ?_, fun k hk => ?_⟩
    · rw [acceptAll, List.foldl_cons, ← acceptAll, hacc, List.length_cons, Nat.add_comm x.length 1, ← Nat.add_assoc]
      rfl
    · cases k with
      | zero =>
        have hv := hold b.bufferOffset (Nat.lt_succ_self _)
        rw [Nat.add_zero, hv]
        exact Memory.read_write_same _ _ v
      | succ k =>
        have hk' := hnew k (by simpa using hk)
        rw [List.getElem_cons_succ, ← hk']
        exact congrArg _ (by simp only [acceptByte]; omega)
    · have hk' := hold k (Nat.lt_succ_of_lt hk)
      rw [hk']
      exact Memory.read_write_other _ v hk.ne'

section

variable {s : State} {dev : Nat} (hdev : dev < s.devs.length) {n : Name}

include hdev

/-- Bytes that do not fill the sector are accepted. -/
theorem runOps_accept {b : BlockDrive} {x : List Byte} (hmode : b.mode = .write)
    (hroom : b.bufferOffset + x.length < b.desc.sectorSize) :
    runOps (x.map (Instr.bdDataWr dev)) (s.withDrive dev n b none) = some ([], s.withDrive dev n (b.acceptAll x) none) := by
  induction x generalizing b with
  | nil => rfl
  | cons v x ih =>
    rw [List.length_cons] at hroom
    have hdata : b.dataWrite v n = ⟨b.acceptByte v, none, none⟩ := BlockDrive.dataWrite_of_room hmode (by omega) v n
    refine runOps_write hdev (f := BlockDrive.dataWrite v) (fun _ => rfl) hdata (ih hmode ?_)
    simp only [BlockDrive.acceptByte]
    omega

/-- Bytes that fill the sector are accepted, and the last one flushes it. -/
theorem runOps_fill {b : BlockDrive} {x : List Byte} (hmode : b.mode = .write) (hx : x ≠ [])
    (hfull : b.bufferOffset + x.length = b.desc.sectorSize) (hrange : b.store = none ∨ lbaOf b < b.desc.numSectors) :
    ∃ st, runOps (x.map (Instr.bdDataWr dev)) (s.withDrive dev n b none) =
        some ([], s.withDrive dev n { b.acceptAll x with status := cmdReady, store := st } none) ∧
      (b.acceptAll x).FlushedTo st := by
  obtain ⟨init, v, rfl⟩ : ∃ init v, x = init ++ [v] := ⟨x.dropLast, x.getLast hx, (List.dropLast_append_getLast hx).symm⟩
  rw [List.length_append, List.length_singleton] at hfull
  obtain ⟨buf, hinit, -, -⟩ := b.acceptAll_spec init
  obtain ⟨buf', hall, -, -⟩ := b.acceptAll_spec (init ++ [v])
  have hlast : b.acceptAll (init ++ [v]) = (b.acceptAll init).acceptByte v := by simp [BlockDrive.acceptAll]
  obtain ⟨st, hflush, hst⟩ := BlockDrive.flush_of_range (b := b.acceptAll (init ++ [v])) (by rw [hall]; exact hrange) n
  have hdata : (b.acceptAll init).dataWrite v n = ⟨{ b.acceptAll (init ++ [v]) with status := cmdReady, store := st }, none, none⟩ := by
    rw [BlockDrive.dataWrite_of_last (by rw [hinit]; exact hmode) (by rw [hinit]; exact hfull), ← hlast, hflush]
  refine ⟨st, ?_, hst⟩
  rw [List.map_append]
  exact runOps_append (runOps_accept hdev hmode (by omega))
    (runOps_write hdev (f := BlockDrive.dataWrite v) (fun _ => rfl) hdata rfl)

/-- Reads of the data port answer the bytes of the buffer in order, and change neither it nor the store. -/
theorem runOps_drain {b : BlockDrive} (k : Nat) (hmode : b.mode = .read) (hroom : b.bufferOffset + k ≤ b.desc.sectorSize)
    (v : Option Byte) :
    ∃ offset status w, runOps (List.replicate k (.bdDataRd dev)) (s.withDrive dev n b v) =
      some ((List.range' b.bufferOffset k).map b.sectorBuffer.read,
        s.withDrive dev n { b with bufferOffset := offset, status := status } w) := by
  induction k generalizing b v with
  | zero => exact ⟨b.bufferOffset, b.status, v, rfl⟩
  | succ k ih =>
    have hdata := BlockDrive.dataRead_of_phase (b := b) ⟨hmode, by omega⟩ n
    obtain ⟨offset, status, w, hrest⟩ := ih (b := { b with
      bufferOffset := b.bufferOffset + 1,
      status := if b.bufferOffset + 1 = b.desc.sectorSize then cmdReady else b.status }) hmode (by simp only; omega)
      (some (b.sectorBuffer.read b.bufferOffset))
    exact ⟨offset, status, w, runOps_read hdev (f := BlockDrive.dataRead) (fun _ => rfl) hdata hrest⟩

/-! ## The round trip (rule R282) -/

/-- What the drive holds at the end: the store of the flush, whose sector is the bytes written. -/
structure BlockDrive.Transferred (a : BlockDrive) (x : List Byte) (c : BlockDrive) : Prop where
  desc : c.desc = a.desc
  noFile : a.store = none → c.store = none
  file : a.store ≠ none → ∀ o, (h : o < x.length) → c.storeByte (lbaOf a * a.desc.sectorSize + o) = x[o]

/-- From the write command to the last byte read back, the LBA registers being written. -/
theorem runOps_transfer {a : BlockDrive} {x : List Byte} (hx : x.length = a.desc.sectorSize) (hsize : 0 < a.desc.sectorSize)
    (hrange : a.store = none ∨ lbaOf a < a.desc.numSectors) (v : Option Byte) :
    ∃ c w, runOps (.bdCmdWriteSector dev :: x.map (Instr.bdDataWr dev) ++ [.bdCmdReadSector dev] ++
          List.replicate a.desc.sectorSize (.bdDataRd dev)) (s.withDrive dev n a v) =
        some ((List.range a.desc.sectorSize).map fun o => c.storeByte (lbaOf a * a.desc.sectorSize + o),
          s.withDrive dev n c w) ∧ a.Transferred x c := by
  have hxne : x ≠ [] := List.ne_nil_of_length_pos (hx ▸ hsize)
  obtain ⟨buf, hacc, hnew, -⟩ := (a.cmdWrite n).dev.acceptAll_spec x
  obtain ⟨st, hfill, hnone, hsome⟩ := runOps_fill hdev (n := n) (b := (a.cmdWrite n).dev) rfl hxne
    ((Nat.zero_add _).trans hx) hrange
  rw [hacc] at hfill hnone hsome
  have hst : st = none ∨ lbaOf a < a.desc.numSectors := hrange.imp_left hnone
  obtain ⟨buf', hload, hbuf'⟩ := BlockDrive.cmdRead_of_range (b := { a with
    sectorBuffer := buf, bufferOffset := 0 + x.length, mode := .write, status := cmdReady, store := st }) hst n
  obtain ⟨offset, status, w, hdrain⟩ := runOps_drain hdev (n := n) (b := { a with
    sectorBuffer := buf', bufferOffset := 0, mode := .read, status := dataReady, store := st }) a.desc.sectorSize rfl
    (Nat.zero_add _).le none
  have hbytes : (List.range' 0 a.desc.sectorSize).map buf'.read = (List.range a.desc.sectorSize).map fun o =>
      BlockDrive.storeByte { a with
        sectorBuffer := buf', bufferOffset := offset, mode := .read, status := status, store := st }
        (lbaOf a * a.desc.sectorSize + o) := by
    rw [List.range_eq_range']
    exact List.map_congr_left fun o ho => hbuf' o (by simpa using ho)
  refine ⟨{ a with sectorBuffer := buf', bufferOffset := offset, mode := .read, status := status, store := st }, w, ?_,
    rfl, hnone, fun hfile o ho => ?_⟩
  · rw [← hbytes, List.cons_append, List.cons_append]
    refine runOps_write hdev (f := BlockDrive.cmdWrite) (fun _ => rfl) rfl ?_
    rw [List.append_assoc]
    exact runOps_append hfill (runOps_write hdev (f := BlockDrive.cmdRead) (fun _ => rfl) hload hdrain)
  · obtain ⟨m, hm⟩ := Option.ne_none_iff_exists'.1 hfile
    obtain ⟨m', hm', hsector, -⟩ := hsome m hm
    have hwritten := hnew o ho
    rw [show (a.cmdWrite n).dev.bufferOffset = 0 from rfl, Nat.zero_add] at hwritten
    exact (BlockDrive.storeByte_of_some hm' _).trans ((hsector o (hx ▸ ho)).trans hwritten)

end

/-- Settles O31: the whole sequence on the drive at its place, then BD_READ_BYTE on the drive it leaves. -/
theorem blockDriveRoundTrip : Obligations.BlockDriveRoundTrip := by
  intro s dev b l0 l1 l2 l3 x hb hsize hx ops
  obtain ⟨n, hd⟩ := driveAt_eq_some_iff.1 hb
  have hdev : dev < s.devs.length := (List.getElem?_eq_some_iff.1 hd).1
  have hself : s.withDrive dev n b s.returns.cpu = s := by rw [State.withDrive, set_getElem?_self hd]
  have hrun : (b.store = none ∨ lbaOf { b with lba0 := l0, lba1 := l1, lba2 := l2, lba3 := l3 } < b.desc.numSectors) → _ :=
    fun hrange => runOps_transfer hdev (n := n) (a := { b with lba0 := l0, lba1 := l1, lba2 := l2, lba3 := l3 }) hx hsize hrange
      none
  refine ⟨fun hnone => ?_, fun name hname hfile hrange => ?_⟩
  · obtain ⟨c, w, hops, hc⟩ := hrun (.inl hnone)
    have hall := runOps_address hdev (v := s.returns.cpu) hops
    rw [hself] at hall
    refine ⟨s.withDrive dev n c w, hall.trans ?_⟩
    simp [BlockDrive.storeByte_of_none (hc.noFile hnone)]
  · obtain ⟨c, w, hops, hc⟩ := hrun (.inr hrange)
    have hall := runOps_address hdev (v := s.returns.cpu) hops
    rw [hself] at hall
    have hbytes := hc.file hfile
    refine ⟨s.withDrive dev n c w, hall.trans ?_, fun o ho => ?_⟩
    · have hlist : ((List.range b.desc.sectorSize).map fun o => c.storeByte
          (lbaOf { b with lba0 := l0, lba1 := l1, lba2 := l2, lba3 := l3 } * b.desc.sectorSize + o)) = x :=
        List.ext_getElem (by simp [hx]) fun o _ ho => by simpa using hbytes o ho
      rw [hlist]
    · have hdesc : c.desc = b.desc := hc.desc
      have hread := exec_bdReadByte_of_range (s := s.withDrive dev n c w) (name := name) (dev := dev) (b := c)
        ((findDrive_set hd c name).trans hname)
        (driveAt_eq_some_iff.2 ⟨n, State.getElem?_withDrive hdev c w⟩) (by rw [hdesc]; exact hrange)
        (by rw [hdesc, ← hx]; exact ho)
      rw [hread, hdesc, hbytes o ho]
      rfl

end Sys2Proof.Machine
